-- ==== Sys2Proof/Word.lean ====
section
/-! DEFINITION. The word types of the block: bytes, two-byte words and capture-queue slots
(`00_scope.md` R11, `10_state.md` R30). Nothing here computes; every computation stands in a file of
`Machine/` or in `Decode.lean`. -/

namespace Sys2Proof

/-- A byte, R11: "A byte is 8 bits". -/
abbrev Byte := BitVec 8

/-- A two-byte value: the speed word, the load word and the angle word (R92, R93). -/
abbrev Word16 := BitVec 16

/-- A slot of the capture queue, R30: "Each slot is 9 bits wide". -/
abbrev Slot := BitVec 9

end Sys2Proof
end

