-- ==== Sys2Proof/Config.lean ====
section
/-! DEFINITION. The configuration surface of an instance (`00_scope.md` R9): every parameter the spec
leaves OPEN, with the constraint the spec states for it. The spec gives no value for the `P_*`; the
model takes all of them as data, so that a statement over all states is a statement over all
instances. The values that `State.reset` uses stand in `Machine/Instance.lean` (log entry 1). -/

namespace Sys2Proof

/-- The instance constants of R9. They are no state (R20): nothing ever writes them. -/
structure Params where
  /-- `P_BAUD`, bits per second; read by no rule of the byte-level model. -/
  baud : Nat
  /-- `P_SERVO_ID`, the one servo the Controller drives. -/
  servoId : Byte
  /-- `P_SPEED_OPEN_MAG`, a raw 10-bit magnitude. -/
  speedOpenMag : BitVec 10
  /-- `P_SPEED_CLOSE_MAG`, a raw 10-bit magnitude. -/
  speedCloseMag : BitVec 10
  /-- `P_OPEN_DIR`, the direction bit used when opening. -/
  openDir : BitVec 1
  /-- Numerator of the rational `P_TORQUE_FRAC`. -/
  torqueNum : Nat
  /-- Denominator of the rational `P_TORQUE_FRAC`. -/
  torqueDen : Nat
  /-- `P_VALID_COUNT`. -/
  validCount : Nat
  /-- `P_TIMEOUT_TICKS`. -/
  timeoutTicks : Nat
  /-- `P_SAMPLE_TICKS`. -/
  sampleTicks : Nat
  /-- `P_HOLD_TICKS`. -/
  holdTicks : Nat
  /-- `P_SETTLE_TICKS`. -/
  settleTicks : Nat
  /-- `P_TICK`, the real-time length of a tick in a unit of the integrator's choice; used by no rule. -/
  tickLength : Nat
  /-- `P_RXQ_DEPTH`. -/
  rxqDepth : Nat
  /-- `P_MAXP`. -/
  maxp : Nat
  /-- `A_ID`. -/
  aId : Byte
  /-- `A_BAUD`. -/
  aBaud : Byte
  /-- `A_CW_LIMIT`. -/
  aCwLimit : Byte
  /-- `A_CCW_LIMIT`. -/
  aCcwLimit : Byte
  /-- `A_TORQUE_EN`. -/
  aTorqueEn : Byte
  /-- `A_SPEED`. -/
  aSpeed : Byte
  /-- `A_LOAD`. -/
  aLoad : Byte
  /-- `A_VOLT`. -/
  aVolt : Byte
  /-- `A_TEMP`. -/
  aTemp : Byte
  /-- `N_VOLT`, the byte count of the voltage read. -/
  nVolt : Byte
  /-- `N_TEMP`, the byte count of the temperature read. -/
  nTemp : Byte
  deriving DecidableEq, Repr

/-- The constraints of the table of R9. The ranges of `P_SPEED_*_MAG` and `P_OPEN_DIR` are their types.
R9 states none for `N_VOLT` and `N_TEMP`; the range 1 to 2 is DEDUCED from R69, "The derived operations
use widths 1 and 2 only" (log entry 4). -/
structure Params.Valid (p : Params) : Prop where
  baud : 0 < p.baud
  servoId : p.servoId.toNat ≤ 0xFD
  torqueDen : 0 < p.torqueDen
  torqueFrac : p.torqueNum ≤ p.torqueDen
  validCount : 1 ≤ p.validCount
  timeoutTicks : 1 ≤ p.timeoutTicks
  sampleTicks : 1 ≤ p.sampleTicks
  settleTicks : 1 ≤ p.settleTicks
  rxqDepth : p.maxp + 6 ≤ p.rxqDepth
  maxpLow : 2 ≤ p.maxp
  maxpHigh : p.maxp ≤ 252
  nVolt : 1 ≤ p.nVolt.toNat ∧ p.nVolt.toNat ≤ 2
  nTemp : 1 ≤ p.nTemp.toNat ∧ p.nTemp.toNat ≤ 2

end Sys2Proof
end

