-- ==== Sys2Proof/Machine/Codes.lean ====
section
/-! DEFINITION. The enumerations of the block and their numeric codes: command codes (R97), response
status and refusal reasons (R102, R103), controller events, edges, `motion` and `ind` (R104 to R107),
and the enumerated state values (R28, R33, R34). -/

namespace Sys2Proof.Machine

/-- The eighteen host commands of R97. -/
inductive CmdOp where
  | tSend | tRxavail | tRxbyte | tReinit
  | cWrite | cRegwrite | cRead | cAction
  | torqueEn | setSpeed | setCwLimit | setCcwLimit | setId | setBaudcode | setModeCont
  | readLoad | readTemp | readVolt
  deriving DecidableEq, Repr

/-- The command codes of R97. -/
def CmdOp.code : CmdOp → Byte
  | .tSend => 0x01 | .tRxavail => 0x02 | .tRxbyte => 0x03 | .tReinit => 0x04
  | .cWrite => 0x10 | .cRegwrite => 0x11 | .cRead => 0x12 | .cAction => 0x13
  | .torqueEn => 0x20 | .setSpeed => 0x21 | .setCwLimit => 0x22 | .setCcwLimit => 0x23
  | .setId => 0x24 | .setBaudcode => 0x25 | .setModeCont => 0x26
  | .readLoad => 0x27 | .readTemp => 0x28 | .readVolt => 0x29

/-- Every command, in the order of the table of R97. -/
def CmdOp.all : List CmdOp :=
  [.tSend, .tRxavail, .tRxbyte, .tReinit, .cWrite, .cRegwrite, .cRead, .cAction, .torqueEn,
   .setSpeed, .setCwLimit, .setCcwLimit, .setId, .setBaudcode, .setModeCont, .readLoad, .readTemp,
   .readVolt]

/-- The command a code stands for; none for a reserved code (R99). -/
def CmdOp.ofCode (op : Byte) : Option CmdOp := CmdOp.all.find? (fun c => c.code == op)

/-- The sync byte, R10. -/
def syncByte : Byte := 0xFF

/-- The broadcast identifier, R10, R61. -/
def broadcastId : Byte := 0xFE

/-- The wire opcode of a read, R84. -/
def opRead : Byte := 0x02

/-- The wire opcode of an immediate write, R84. -/
def opWrite : Byte := 0x03

/-- The wire opcode of a registered write and of the trigger, R84 and `90_conflicts.md` C2. -/
def opRegwrite : Byte := 0x04

/-- The sentinel `EMPTY` of a capture-queue slot, R30. -/
def emptySlot : Slot := 0x100

/-- The direction of the shared pin, R28. -/
inductive LineDir where
  | input | output
  deriving DecidableEq, Repr

/-- The sequencer phase, R33. -/
inductive Seq where
  | idle | settle
  deriving DecidableEq, Repr

/-- The continuation of a transaction, R34: what is done with its result. -/
inductive Cont where
  | host | hostMode2 | start | sample | stop | emerg
  deriving DecidableEq, Repr

/-- The Controller's state, R38. -/
inductive Motion where
  | idle | opening | closing | emergency
  deriving DecidableEq, Repr

/-- The codes of the `motion` output, R106. -/
def Motion.code : Motion → BitVec 2
  | .idle => 0 | .opening => 1 | .closing => 2 | .emergency => 3

/-- The display state, R43. -/
inductive Indicator where
  | off | openSolid | closedSolid | movingBlink | faultBlink
  deriving DecidableEq, Repr

/-- The codes of the `ind` output, R107. -/
def Indicator.code : Indicator → BitVec 3
  | .off => 0 | .openSolid => 1 | .closedSolid => 2 | .movingBlink => 3 | .faultBlink => 4

/-- A controller event, R104. -/
inductive CtrlEv where
  | deadline | closeEv | openEv | sample
  deriving DecidableEq, Repr

/-- The event codes of R104. -/
def CtrlEv.code : CtrlEv → Byte
  | .deadline => 0 | .closeEv => 1 | .openEv => 2 | .sample => 3

/-- A button edge, R105. -/
inductive Edge where
  | openPressed | openReleased | closePressed | closeReleased
  deriving DecidableEq, Repr

/-- The edge codes of R105. -/
def Edge.code : Edge → Byte
  | .openPressed => 0 | .openReleased => 1 | .closePressed => 2 | .closeReleased => 3

/-- The response status, R102. -/
inductive Status where
  | reply | noReply | noWait | refused
  deriving DecidableEq, Repr

/-- The status codes of R102. -/
def Status.code : Status → BitVec 2
  | .reply => 0 | .noReply => 1 | .noWait => 2 | .refused => 3

/-- The reasons of a refusal, R103. -/
inductive Reason where
  | busy | opcode | ident | len | operand
  deriving DecidableEq, Repr

/-- The reason codes of R103, as `rsp_err` shows them. -/
def Reason.code : Reason → Byte
  | .busy => 0x01 | .opcode => 0x02 | .ident => 0x03 | .len => 0x04 | .operand => 0x05

end Sys2Proof.Machine
end

