-- ==== Sys2Proof/Machine/Operands.lean ====
section
/-! DEFINITION. The operand forms of the block: the halves of a two-byte value and their order on the
wire (R66), the speed and load word (R92), the angle word (R93), the 32-bit baud operand (R134), and
the operand tests of the acceptance of a command (R98). -/

namespace Sys2Proof.Machine

/-- `w[7:0]`, the byte that travels first (R66). -/
def lowByte (w : Word16) : Byte := w.extractLsb' 0 8

/-- `w[15:8]`, the byte that travels second (R66). -/
def highByte (w : Word16) : Byte := w.extractLsb' 8 8

/-- The two parameter bytes of a two-byte value, least significant first (R66). -/
def wordBytes (w : Word16) : List Byte := [lowByte w, highByte w]

/-- `{hi, lo}`: the value two bytes carry, `lo` having travelled first (R66). -/
def wordOf (lo hi : Byte) : Word16 := hi ++ lo

/-- Bits [9:0] of the speed and load word (R92). -/
def magOf (w : Word16) : BitVec 10 := w.extractLsb' 0 10

/-- Bit [10] of the speed and load word (R92). -/
def dirOf (w : Word16) : Bool := w.getLsbD 10

/-- The speed word the block sends, `{00000, dir, mag}` (R92, R240). -/
def speedWord (dir : BitVec 1) (mag : BitVec 10) : Word16 := (0#5 ++ dir) ++ mag

/-- The opening speed word of R240. -/
def openSpeedWord (p : Params) : Word16 := speedWord p.openDir p.speedOpenMag

/-- The closing speed word of R240: the direction bit is `1 - P_OPEN_DIR`. -/
def closeSpeedWord (p : Params) : Word16 := speedWord (1#1 - p.openDir) p.speedCloseMag

/-- The operand of `T_REINIT`, `{d3, d2, d1, d0}` (R134). -/
def baudOf (d0 d1 d2 d3 : Byte) : Nat := (((d3 ++ d2) ++ d1) ++ d0 : BitVec 32).toNat

/-- Test (3) of R98 for the codes 0x10 to 0x29: 0xFF is no identifier. -/
def identTest (id : Byte) : Bool × Reason := (id == 0xFF, .ident)

/-- Test (3) of R98 for the reads: nothing is read from broadcast. -/
def unicastTest (id : Byte) : Bool × Reason := (id == broadcastId, .ident)

/-- Test (4) of R98: `n = 0` or `n > P_MAXP`. -/
def lenTest (p : Params) (n : Byte) : Bool × Reason :=
  (n.toNat == 0 || decide (p.maxp < n.toNat), .len)

/-- Test (5) of R98 for `TORQUE_EN`: `data[0] > 1`. -/
def torqueTest (e : Byte) : Bool × Reason := (decide (1 < e.toNat), .operand)

/-- Test (5) of R98 for `SET_SPEED`: `data[1] > 0x07`. -/
def speedTest (d1 : Byte) : Bool × Reason := (decide (0x07 < d1.toNat), .operand)

/-- Test (5) of R98 for the angle limits: `data[1] > 0x03`. -/
def angleTest (d1 : Byte) : Bool × Reason := (decide (0x03 < d1.toNat), .operand)

/-- Test (5) of R98 for `T_REINIT`: the four data bytes are all zero. -/
def baudTest (d0 d1 d2 d3 : Byte) : Bool × Reason :=
  (d0 == 0 && d1 == 0 && d2 == 0 && d3 == 0, .operand)

end Sys2Proof.Machine
end

