-- ==== Sys2Proof/Machine/Flags.lean ====
section
/-! DEFINITION. What the block computes as a check or a flag: the checksum and the frame (R151, R152,
R154), the decoding of a status reply with its two diagnostic bits (R164, R281), `busy` (R44), and the
stall threshold (R9, R262). There are no arithmetic condition codes (R25). -/

namespace Sys2Proof.Machine

/-- `sum8(B)` of R151: the sum of the bytes, modulo 256. -/
def sum8 (bs : List Byte) : Nat := (bs.map BitVec.toNat).sum % 256

/-- `checksum(B)` of R152. -/
def checksum (bs : List Byte) : Byte := BitVec.ofNat 8 (0xFF - sum8 bs)

/-- The `len` field of a packet of `k` parameters, `k + 2` (R82). -/
def lenField (k : Nat) : Byte := BitVec.ofNat 8 (k + 2)

/-- `frame(id, opcode, P)` of R154, laid out as R81. -/
def frame (id opcode : Byte) (ps : List Byte) : List Byte :=
  [syncByte, syncByte, id, lenField ps.length, opcode] ++ ps
    ++ [checksum ([id, lenField ps.length, opcode] ++ ps)]

/-- The result of a transaction, and what a response shows of it (R101, R159). -/
structure Result where
  status : Status
  err : Byte
  n : Nat
  data : List Byte
  echoOk : Bool
  chkOk : Bool
  deriving DecidableEq, Repr

/-- The result of a transaction whose reply was too short (R162). -/
def noReplyResult (echoOk : Bool) : Result := ⟨.noReply, 0, 0, [], echoOk, false⟩

/-- The result of a transaction that waits for no reply (R159). -/
def noWaitResult (echoOk : Bool) : Result := ⟨.noWait, 0, 0, [], echoOk, false⟩

/-- `r[i]`, with 0 outside the list; every rule that uses it reads inside (R164). -/
def byteAt (r : List Byte) (i : Nat) : Byte := r.getD i 0

/-- `nvalid = min(max(len - 2, 0), rd_n)` (R164). -/
def validCountOf (rdN : Nat) (r : List Byte) : Nat := min ((byteAt r 3).toNat - 2) rdN

/-- The checksum verdict `chk_ok` of a reply of `expN` bytes (R164). -/
def chkOkOf (expN : Nat) (r : List Byte) : Bool :=
  let len := (byteAt r 3).toNat
  byteAt r 0 == syncByte && byteAt r 1 == syncByte && decide (2 ≤ len)
    && decide (3 + len ≤ expN - 1)
    && byteAt r (3 + len) == checksum ((r.drop 2).take (len + 1))

/-- Decoding a reply of full length (R164). -/
def decodeReply (expN rdN : Nat) (echoOk : Bool) (r : List Byte) : Result :=
  ⟨.reply, byteAt r 4, validCountOf rdN r, (r.drop 5).take (validCountOf rdN r), echoOk,
    chkOkOf expN r⟩

/-- `busy` of R44. -/
def busyFlag (seq : Seq) (motion : Motion) : Bool := seq != .idle || motion != .idle

/-- `P_TORQUE_THRESH = floor(1023 * P_TORQUE_FRAC)` (R9, R262). -/
def torqueThresh (p : Params) : Nat := 1023 * p.torqueNum / p.torqueDen

/-- The over-threshold test of a load word: `mag > P_TORQUE_THRESH` (R248). -/
def overThreshold (p : Params) (w : Word16) : Bool := decide (torqueThresh p < (magOf w).toNat)

/-- A load sample is usable when `status = ST_REPLY`, `err = 0` and `n = 2` (R248). -/
def Result.usable (r : Result) : Bool := r.status == .reply && r.err == 0 && r.n == 2

/-- The load word of a usable sample, `{data[1], data[0]}` (R248). -/
def Result.loadWord (r : Result) : Word16 := wordOf (byteAt r.data 0) (byteAt r.data 1)

/-- The results on which `SET_MODE_CONT` stops after its first write (R196). -/
def Result.failed (r : Result) : Bool := r.status == .noReply || (r.status == .reply && r.err != 0)

end Sys2Proof.Machine
end

