-- ==== Sys2Proof/Syntax.lean ====
section
/-! DEFINITION. The syntax of the block: one constructor of `Instr` for each row of
`spec/opcode_table.json`, and the form in which the environment presents an external event.

The "instruction set" of this block (`00_scope.md` R3) is the host command set, the external and
controller events, and the wire packets. A constructor carries the operands its rule reads; record
fields that a command does not name are ignored (R96) and so are no operands. -/

namespace Sys2Proof

/-- Every row of the opcode table. -/
inductive Instr where
  -- host commands (R97)
  /-- `T_SEND` (R125): send `d0 = data[0]`. -/
  | tSend (d0 : Byte)
  /-- `T_RXAVAIL` (R130). -/
  | tRxavail
  /-- `T_RXBYTE` (R132). -/
  | tRxbyte
  /-- `T_REINIT` (R134): the four bytes of the new baud rate, least significant first. -/
  | tReinit (d0 d1 d2 d3 : Byte)
  /-- `C_WRITE` (R168): `data` is `data[0 .. n-1]` as far as the record holds it. -/
  | cWrite (id addr n : Byte) (data : List Byte)
  /-- `C_REGWRITE` (R169). -/
  | cRegwrite (id addr n : Byte) (data : List Byte)
  /-- `C_READ` (R170). -/
  | cRead (id addr n : Byte)
  /-- `C_ACTION` (R171). -/
  | cAction (id : Byte)
  /-- `TORQUE_EN` (R190). -/
  | torqueEn (id e : Byte)
  /-- `SET_SPEED` (R191): the speed word, low byte `d0`, high byte `d1`. -/
  | setSpeed (id d0 d1 : Byte)
  /-- `SET_CW_LIMIT` (R192): the angle word, low byte `d0`, high byte `d1`. -/
  | setCwLimit (id d0 d1 : Byte)
  /-- `SET_CCW_LIMIT` (R193). -/
  | setCcwLimit (id d0 d1 : Byte)
  /-- `SET_ID` (R194). -/
  | setId (id newId : Byte)
  /-- `SET_BAUDCODE` (R195). -/
  | setBaudcode (id code : Byte)
  /-- `SET_MODE_CONT` (R196). -/
  | setModeCont (id : Byte)
  /-- `READ_LOAD` (R197). -/
  | readLoad (id : Byte)
  /-- `READ_TEMP` (R198). -/
  | readTemp (id : Byte)
  /-- `READ_VOLT` (R199). -/
  | readVolt (id : Byte)
  /-- `CMD_RESERVED` (R99): any other `op`. -/
  | cmdReserved (op : Byte)
  -- wire packets (R84, R89)
  /-- `PKT_READ` (R85). -/
  | pktRead (id addr n : Byte)
  /-- `PKT_WRITE` (R86). -/
  | pktWrite (id addr : Byte) (data : List Byte)
  /-- `PKT_REGWRITE` (R87). -/
  | pktRegwrite (id addr : Byte) (data : List Byte)
  /-- `PKT_ACTION` (R88). -/
  | pktAction (id : Byte)
  /-- `PKT_STATUS` (R89, R164): the bytes of a reply as they were taken from the capture queue. On
  reception "nothing is illegal" (R95), so the operand is the raw list. -/
  | pktStatus (r : List Byte)
  -- external events (R8)
  /-- `RESET` (R320). -/
  | reset
  /-- `TICK` (R230). -/
  | tick
  /-- `LINE_BYTE(b)` (R121). -/
  | lineByte (b : Byte)
  /-- `EDGE(OPEN_PRESSED)` (R222). -/
  | edgeOpenPressed
  /-- `EDGE(OPEN_RELEASED)` (R223). -/
  | edgeOpenReleased
  /-- `EDGE(CLOSE_PRESSED)` (R222). -/
  | edgeClosePressed
  /-- `EDGE(CLOSE_RELEASED)` (R223). -/
  | edgeCloseReleased
  -- controller events (R104, R235)
  /-- `EV_DEADLINE` (R250, R254). -/
  | evDeadline
  /-- `EV_CLOSE` (R237, R238). -/
  | evClose
  /-- `EV_OPEN` (R236, R239). -/
  | evOpen
  /-- `EV_SAMPLE` (R244, R254). -/
  | evSample
  deriving DecidableEq, Repr

/-- The five inputs of the block, one for each kind of external event (R8, R300 to R305). -/
inductive Port where
  | reset | tick | line | edge | cmd
  deriving DecidableEq, Repr

/-- One external event as the environment presents it: the input it comes on and the bytes it carries.
For `cmd` the bytes are the record of R96, `op id addr n data[0] data[1] …`; for `edge` the one code of
R105; for `line` the one byte; for `reset` and `tick` none (log entry 3). -/
structure Stim where
  port : Port
  bytes : List Byte
  deriving DecidableEq, Repr

/-- Where the bytes a decoder is given come from: an input of the block, the block's own transmit
buffer (an instruction packet), the capture queue (a status packet), or the Controller's event queue. -/
inductive Source where
  | ext (p : Port)
  | txPacket
  | rxPacket
  | evq
  deriving DecidableEq, Repr

/-- Why the decoder reads no instruction. Each is a presentation that is no event of R8, or a byte
sequence that is no packet of R84; the hardware never meets one. -/
inductive Reject where
  /-- A command record shorter than the four fixed bytes and the data bytes its command names (R96). -/
  | shortRecord
  /-- An `EDGE` without exactly one of the four codes of R105. -/
  | badEdge
  /-- A `LINE_BYTE` without exactly one byte (R121). -/
  | badLineByte
  /-- A `RESET` or `TICK` that carries bytes (R8: they have no operand). -/
  | strayBytes
  /-- An instruction packet of fewer than the five header bytes (R81). -/
  | shortPacket
  /-- An instruction packet without its two sync bytes (R81). -/
  | noSync
  /-- An instruction packet to 0xFF, which is no target identifier (R61, R81). -/
  | badId
  /-- An instruction packet whose `len` is not the count of bytes that follow it (R82). -/
  | badLength
  /-- An instruction packet whose last byte is not the checksum (R83). -/
  | badChecksum
  /-- Opcode and parameter count of none of the four packets of R84. -/
  | noSuchPacket
  /-- A status packet of fewer than six bytes (R89, "6-byte-or-more frame"). -/
  | shortStatus
  /-- A code of no controller event (R104). -/
  | badEvent
  deriving DecidableEq, Repr

end Sys2Proof
end

