-- ==== Sys2Proof/WellFormed.lean ====
section
/-! DEFINITION. Which terms of `Instr` stand for something the block can be given or can build, on an
instance with the parameters `p`. What the block itself refuses (an identifier 0xFF, a bad length or
operand, R98) is well formed: its meaning is the refusal. -/

namespace Sys2Proof

/-- `data` is `data[0 .. n-1]` of a record of `P_MAXP` data bytes: all of it when `n ≤ P_MAXP`, and what
the record holds of it when `n` is too large (R96; such a command is refused with `RF_LEN`, R98). -/
def payloadWf (p : Params) (n : Byte) (data : List Byte) : Bool :=
  decide (data.length ≤ n.toNat) && (decide (p.maxp < n.toNat) || data.length == n.toNat)

/-- The identifiers a packet can carry, 0x00 to 0xFE (R81). -/
def targetWf (id : Byte) : Bool := id != 0xFF

/-- The payload lengths of the two write packets, 1 to `P_MAXP` (R86, R87). -/
def lengthWf (p : Params) (k : Nat) : Bool := decide (1 ≤ k) && decide (k ≤ p.maxp)

/-- Well-formedness of an instruction on an instance. -/
def Instr.wf (p : Params) : Instr → Bool
  | .cWrite _ _ n data => payloadWf p n data
  | .cRegwrite _ _ n data => payloadWf p n data
  | .cmdReserved op => (Machine.CmdOp.ofCode op).isNone
  | .pktRead id _ n => targetWf id && lengthWf p n.toNat
  | .pktWrite id _ data => targetWf id && lengthWf p data.length
  | .pktRegwrite id _ data => targetWf id && lengthWf p data.length
  | .pktAction id => targetWf id
  | .pktStatus r => decide (6 ≤ r.length) && decide (r.length ≤ 6 + p.maxp)
  | .tSend _ | .tRxavail | .tRxbyte | .tReinit _ _ _ _ | .cRead _ _ _ | .cAction _ | .torqueEn _ _
  | .setSpeed _ _ _ | .setCwLimit _ _ _ | .setCcwLimit _ _ _ | .setId _ _ | .setBaudcode _ _
  | .setModeCont _ | .readLoad _ | .readTemp _ | .readVolt _ | .reset | .tick | .lineByte _
  | .edgeOpenPressed | .edgeOpenReleased | .edgeClosePressed | .edgeCloseReleased
  | .evDeadline | .evClose | .evOpen | .evSample => true

end Sys2Proof
end

