-- ==== Sys2Proof/Decode.lean ====
section
/-! DEFINITION. The decoder, total on any bytes and rejecting by name, and after it the encoder, from the
same tables: the command record (R96, R97), the four instruction packets (R81 to R88), the status
packet (R89), the edge and controller-event codes (R104, R105). -/

namespace Sys2Proof

open Machine (CmdOp)

/-- The operands each command reads from its record (R97); a record that lacks a data byte its command
names is rejected. -/
def commandOf (c : CmdOp) (id addr n : Byte) (data : List Byte) : Except Reject Instr :=
  match c, data with
  | .tSend, d0 :: _ => .ok (.tSend d0)
  | .tRxavail, _ => .ok .tRxavail
  | .tRxbyte, _ => .ok .tRxbyte
  | .tReinit, d0 :: d1 :: d2 :: d3 :: _ => .ok (.tReinit d0 d1 d2 d3)
  | .cWrite, ds => .ok (.cWrite id addr n (ds.take n.toNat))
  | .cRegwrite, ds => .ok (.cRegwrite id addr n (ds.take n.toNat))
  | .cRead, _ => .ok (.cRead id addr n)
  | .cAction, _ => .ok (.cAction id)
  | .torqueEn, d0 :: _ => .ok (.torqueEn id d0)
  | .setSpeed, d0 :: d1 :: _ => .ok (.setSpeed id d0 d1)
  | .setCwLimit, d0 :: d1 :: _ => .ok (.setCwLimit id d0 d1)
  | .setCcwLimit, d0 :: d1 :: _ => .ok (.setCcwLimit id d0 d1)
  | .setId, d0 :: _ => .ok (.setId id d0)
  | .setBaudcode, d0 :: _ => .ok (.setBaudcode id d0)
  | .setModeCont, _ => .ok (.setModeCont id)
  | .readLoad, _ => .ok (.readLoad id)
  | .readTemp, _ => .ok (.readTemp id)
  | .readVolt, _ => .ok (.readVolt id)
  | _, _ => .error .shortRecord

/-- Decoding a command record (R96, R97, R99). -/
def decodeCmd (bytes : List Byte) : Except Reject Instr :=
  match bytes with
  | op :: id :: addr :: n :: data =>
    match CmdOp.ofCode op with
    | some c => commandOf c id addr n data
    | none => .ok (.cmdReserved op)
  | _ => .error .shortRecord

/-- The packet a wire opcode and its parameters make (R84): a registered write and the trigger share
the opcode 0x04 and are told apart by their length. -/
def packetOf (id opcode : Byte) (ps : List Byte) : Except Reject Instr :=
  if opcode = Machine.opRead then
    match ps with
    | [addr, n] => .ok (.pktRead id addr n)
    | _ => .error .noSuchPacket
  else if opcode = Machine.opWrite then
    match ps with
    | addr :: d :: ds => .ok (.pktWrite id addr (d :: ds))
    | _ => .error .noSuchPacket
  else if opcode = Machine.opRegwrite then
    match ps with
    | [] => .ok (.pktAction id)
    | addr :: d :: ds => .ok (.pktRegwrite id addr (d :: ds))
    | _ => .error .noSuchPacket
  else .error .noSuchPacket

/-- Decoding an instruction packet (R81 to R84): sync bytes, target, length and checksum are checked. -/
def decodePacket (bytes : List Byte) : Except Reject Instr :=
  match bytes with
  | s0 :: s1 :: id :: len :: opcode :: rest =>
    if s0 ≠ Machine.syncByte ∨ s1 ≠ Machine.syncByte then .error .noSync
    else if id = 0xFF then .error .badId
    else if len.toNat ≠ rest.length + 1 then .error .badLength
    else if rest.getLast? ≠ some (Machine.checksum ([id, len, opcode] ++ rest.dropLast)) then
      .error .badChecksum
    else packetOf id opcode rest.dropLast
  | _ => .error .shortPacket

/-- Decoding a status packet (R89, R90): the block "matches nothing", so any six bytes or more will do. -/
def decodeStatus (bytes : List Byte) : Except Reject Instr :=
  if 6 ≤ bytes.length then .ok (.pktStatus bytes) else .error .shortStatus

/-- Decoding an edge (R105). -/
def decodeEdge (bytes : List Byte) : Except Reject Instr :=
  if bytes = [Machine.Edge.code .openPressed] then .ok .edgeOpenPressed
  else if bytes = [Machine.Edge.code .openReleased] then .ok .edgeOpenReleased
  else if bytes = [Machine.Edge.code .closePressed] then .ok .edgeClosePressed
  else if bytes = [Machine.Edge.code .closeReleased] then .ok .edgeCloseReleased
  else .error .badEdge

/-- Decoding a controller event (R104). -/
def decodeCtrl (bytes : List Byte) : Except Reject Instr :=
  if bytes = [Machine.CtrlEv.code .deadline] then .ok .evDeadline
  else if bytes = [Machine.CtrlEv.code .closeEv] then .ok .evClose
  else if bytes = [Machine.CtrlEv.code .openEv] then .ok .evOpen
  else if bytes = [Machine.CtrlEv.code .sample] then .ok .evSample
  else .error .badEvent

/-- The decoder of the block. -/
def decode (src : Source) (bytes : List Byte) : Except Reject Instr :=
  match src with
  | .ext .reset => if bytes = [] then .ok .reset else .error .strayBytes
  | .ext .tick => if bytes = [] then .ok .tick else .error .strayBytes
  | .ext .line =>
    match bytes with
    | [b] => .ok (.lineByte b)
    | _ => .error .badLineByte
  | .ext .edge => decodeEdge bytes
  | .ext .cmd => decodeCmd bytes
  | .txPacket => decodePacket bytes
  | .rxPacket => decodeStatus bytes
  | .evq => decodeCtrl bytes

/-- A command record: the four fixed bytes and the data bytes (R96). -/
def record (c : CmdOp) (id addr n : Byte) (data : List Byte) : List Byte :=
  c.code :: id :: addr :: n :: data

/-- The encoder. Record fields that a command does not name are ignored by the block (R96); the encoder
writes them as 0. -/
def encode : Instr → Source × List Byte
  | .tSend d0 => (.ext .cmd, record .tSend 0 0 0 [d0])
  | .tRxavail => (.ext .cmd, record .tRxavail 0 0 0 [])
  | .tRxbyte => (.ext .cmd, record .tRxbyte 0 0 0 [])
  | .tReinit d0 d1 d2 d3 => (.ext .cmd, record .tReinit 0 0 0 [d0, d1, d2, d3])
  | .cWrite id addr n data => (.ext .cmd, record .cWrite id addr n data)
  | .cRegwrite id addr n data => (.ext .cmd, record .cRegwrite id addr n data)
  | .cRead id addr n => (.ext .cmd, record .cRead id addr n [])
  | .cAction id => (.ext .cmd, record .cAction id 0 0 [])
  | .torqueEn id e => (.ext .cmd, record .torqueEn id 0 0 [e])
  | .setSpeed id d0 d1 => (.ext .cmd, record .setSpeed id 0 0 [d0, d1])
  | .setCwLimit id d0 d1 => (.ext .cmd, record .setCwLimit id 0 0 [d0, d1])
  | .setCcwLimit id d0 d1 => (.ext .cmd, record .setCcwLimit id 0 0 [d0, d1])
  | .setId id newId => (.ext .cmd, record .setId id 0 0 [newId])
  | .setBaudcode id code => (.ext .cmd, record .setBaudcode id 0 0 [code])
  | .setModeCont id => (.ext .cmd, record .setModeCont id 0 0 [])
  | .readLoad id => (.ext .cmd, record .readLoad id 0 0 [])
  | .readTemp id => (.ext .cmd, record .readTemp id 0 0 [])
  | .readVolt id => (.ext .cmd, record .readVolt id 0 0 [])
  | .cmdReserved op => (.ext .cmd, [op, 0, 0, 0])
  | .pktRead id addr n => (.txPacket, Machine.frame id Machine.opRead [addr, n])
  | .pktWrite id addr data => (.txPacket, Machine.frame id Machine.opWrite (addr :: data))
  | .pktRegwrite id addr data => (.txPacket, Machine.frame id Machine.opRegwrite (addr :: data))
  | .pktAction id => (.txPacket, Machine.frame id Machine.opRegwrite [])
  | .pktStatus r => (.rxPacket, r)
  | .reset => (.ext .reset, [])
  | .tick => (.ext .tick, [])
  | .lineByte b => (.ext .line, [b])
  | .edgeOpenPressed => (.ext .edge, [Machine.Edge.code .openPressed])
  | .edgeOpenReleased => (.ext .edge, [Machine.Edge.code .openReleased])
  | .edgeClosePressed => (.ext .edge, [Machine.Edge.code .closePressed])
  | .edgeCloseReleased => (.ext .edge, [Machine.Edge.code .closeReleased])
  | .evDeadline => (.evq, [Machine.CtrlEv.code .deadline])
  | .evClose => (.evq, [Machine.CtrlEv.code .closeEv])
  | .evOpen => (.evq, [Machine.CtrlEv.code .openEv])
  | .evSample => (.evq, [Machine.CtrlEv.code .sample])

/-- The bytes of the longest command record: the four fixed bytes and 252 data bytes, the largest
`P_MAXP` (R9, R96). -/
def longestRecord : Nat := 256

/-- The command record whose bits, numbered as `opcode_table.json` numbers them, are the low `nbits` of
`w`: byte `j` of the record is bits `8j+7 .. 8j`, and every bit above `nbits` is 0. -/
def recordOfWord (nbits w : Nat) : List Byte :=
  (List.range longestRecord).map (fun j => BitVec.ofNat 8 ((w % 2 ^ nbits) >>> (8 * j)))

/-- The instruction the decoder reads from a table word. Only the command rows of the table have bits
(their `match` and `mask` apply to the `op` byte of the record), so the word is a command record. -/
def decodeTableWord (nbits w : Nat) : Option Instr :=
  (decode (.ext .cmd) (recordOfWord nbits w)).toOption

end Sys2Proof
end

