-- ==== Sys2Proof/Machine/Instance.lean ====
section
/-! DEFINITION. The parameter values of the instance that `State.reset` stands for. The spec gives none as
its own: `R9` leaves every `P_*` open. These are the values the spec's test-vector file uses
(`95_test_vectors.md`, its head), with the default addresses of R63. DESIGN CHOICE, unsafe (log entry 1):
no statement rests on one of them. -/

namespace Sys2Proof.Machine

/-- The parameter values at the head of `95_test_vectors.md`; `P_TICK`, which it does not give and no
rule uses, is 1. -/
def vectorParams : Params where
  baud := 1000000
  servoId := 0x01
  speedOpenMag := 512
  speedCloseMag := 512
  openDir := 0
  torqueNum := 1
  torqueDen := 2
  validCount := 3
  timeoutTicks := 24
  sampleTicks := 4
  holdTicks := 2
  settleTicks := 2
  tickLength := 1
  rxqDepth := 16
  maxp := 8
  aId := 0x03
  aBaud := 0x04
  aCwLimit := 0x06
  aCcwLimit := 0x08
  aTorqueEn := 0x18
  aSpeed := 0x20
  aLoad := 0x28
  aVolt := 0x2A
  aTemp := 0x2B
  nVolt := 1
  nTemp := 1

end Sys2Proof.Machine
end

