-- ==== Sys2Proof/Machine/State.lean ====
section
/-! DEFINITION. The state of the block as plain data, grouped as the table of `10_state.md` R20 groups it,
with its reset values (`70_reset_and_hazards.md` R320), and the reasons a step can stop. -/

namespace Sys2Proof.Machine

/-- What the LINE environment supplies for one `send` (R123): a byte, or `NONE` when no echo arrives. -/
abbrev Echo := Option Byte

/-- The Transport Link (R26 to R32). -/
structure Link where
  /-- R26, the link's baud rate. -/
  baud : Nat
  /-- R27, the interrupt mask: true means the receive handler may run. -/
  irqEn : Bool
  /-- R28, the direction of the shared pin. -/
  lineDir : LineDir
  /-- R29, the hardware receive buffer, oldest first. -/
  hwRx : List Byte
  /-- R30, the capture queue. -/
  rxq : List Slot
  /-- R31, the slot the handler writes next. -/
  rxWr : Nat
  /-- R32, the slot `receive_byte` reads next. -/
  rxRd : Nat
  deriving DecidableEq, Repr

/-- The Codec sequencer (R33 to R36). -/
structure Codec where
  /-- R33. -/
  seq : Seq
  /-- R34, ticks left of the settle interval. -/
  settleCnt : Nat
  /-- R34, the count of reply bytes to read. -/
  expN : Nat
  /-- R34, the byte count of a read, 0 for a write. -/
  rdN : Nat
  /-- R34, what is done with the transaction's result. -/
  cont : Cont
  /-- R35, the last instruction packet framed. -/
  txbuf : List Byte
  /-- R36, every byte of the frame last sent was echoed back unchanged. -/
  echoOk : Bool
  /-- R36, the `id` operand of the `SET_MODE_CONT` being served. -/
  hostId : Byte
  deriving DecidableEq, Repr

/-- The response latch (R37). -/
structure Latch where
  /-- `rsp_status`. -/
  status : Status
  /-- `rsp_err`. -/
  err : Byte
  /-- `rsp_n`. -/
  n : Nat
  /-- `rsp_data`, `P_MAXP` bytes. -/
  data : List Byte
  /-- `rsp_echo_ok`. -/
  echoOk : Bool
  /-- `rsp_chk_ok`. -/
  chkOk : Bool
  deriving DecidableEq, Repr

/-- The Actuator State (R38 to R41). -/
structure Actuator where
  /-- R38. -/
  motion : Motion
  /-- R39, the consecutive-overload counter. -/
  ovlCnt : Nat
  /-- R40, the one enable of both timers. -/
  timersOn : Bool
  /-- R40, ticks left until the motion deadline. -/
  deadlineCnt : Nat
  /-- R40, ticks left until the next torque sample. -/
  sampleCnt : Nat
  /-- R41, the emergency flag. -/
  emergency : Bool
  deriving DecidableEq, Repr

/-- The intent qualifier of one button (R45). -/
structure Button where
  /-- `open_held` / `close_held`. -/
  held : Bool
  /-- `open_cnt` / `close_cnt`. -/
  cnt : Nat
  /-- `open_fired` / `close_fired`. -/
  fired : Bool
  deriving DecidableEq, Repr

/-- The Controller's support state (R42 to R45). -/
structure Support where
  /-- R42, the pending controller events, oldest first. -/
  evq : List CtrlEv
  /-- R43, the display state last notified. -/
  ind : Indicator
  /-- R45, `open_held`, `open_cnt`, `open_fired`. -/
  openBtn : Button
  /-- R45, `close_held`, `close_cnt`, `close_fired`. -/
  closeBtn : Button
  deriving DecidableEq, Repr

/-- The MODEL's own fields, none of them state of the block: what the environment has yet to present
(R8, R100) and what the last step put on the outputs (R8, R101). -/
structure Ports where
  /-- The external events still to come, in order (R8). -/
  inbox : List Stim
  /-- The LINE environment's next draws, in order (R100); past the end the line is healthy (R108,
  log entry 2). -/
  echoes : List Echo
  /-- The bytes driven onto the wire by this step, in order (`WIRE_TX`, R8). -/
  wireTx : List Byte
  /-- `rsp_valid`: this step placed a response (R101). -/
  rspValid : Bool
  deriving DecidableEq, Repr

/-- The machine. `cfg` holds the instance constants of R9, which no step writes. -/
structure State where
  cfg : Params
  link : Link
  codec : Codec
  rsp : Latch
  act : Actuator
  sup : Support
  ports : Ports
  deriving DecidableEq, Repr

/-- Why the machine stops. The block has nothing of the kind: "The block raises no exception" (R280) and
"nothing can fault at a fetch"; the one state without progress, a `send` whose echo never arrives (R123),
is a state from which `RESET` leaves, not a stop. So the type has no constructor. -/
inductive Fault where
  deriving DecidableEq, Repr

/-- Why a step has no meaning. -/
inductive Refusal where
  /-- Raised by an arm of `exec` whose instruction has no meaning in the model; no arm raises it. Safe. -/
  | notModelled (mnemonic : String)
  /-- Raised by `step` when what is presented on an input is no event of R8 at all. Safe: the hardware
  never meets such a presentation. -/
  | notAnEvent (why : Reject)
  /-- Raised by `step` when a command record lacks payload bytes that its `n` promises (R96). Safe: a
  record holds `P_MAXP` data bytes. -/
  | recordTooShort
  deriving DecidableEq, Repr

/-- The Transport Link after `RESET`, and after `T_REINIT` but for the baud rate (R134, R320). -/
def Link.fresh (p : Params) (baud : Nat) : Link where
  baud := baud
  irqEn := true
  lineDir := .input
  hwRx := []
  rxq := List.replicate p.rxqDepth emptySlot
  rxWr := 0
  rxRd := 0

/-- A button that is not held (R320). -/
def Button.released : Button := ⟨false, 0, false⟩

/-- Every field of the block at its reset value (R320), on an instance with the parameters `p` and with
the outputs and the environment given. -/
def State.resetWith (p : Params) (io : Ports) : State where
  cfg := p
  link := Link.fresh p p.baud
  codec := ⟨.idle, 0, 0, 0, .host, [], true, 0x00⟩
  rsp := ⟨.noWait, 0x00, 0, List.replicate p.maxp 0x00, true, false⟩
  act := ⟨.idle, 0, false, 0, 0, false⟩
  sup := ⟨[], .off, Button.released, Button.released⟩
  ports := io

/-- The machine right after reset, nothing presented and nothing on its outputs. -/
def State.reset : State := State.resetWith vectorParams ⟨[], [], [], false⟩

end Sys2Proof.Machine
end

