-- ==== Sys2Proof/Machine/Ops.lean ====
section
/-! DEFINITION. The shared operations of the block: the line and `send` (R120 to R124), the capture queue
and its handler (R127 to R131), responses and refusals (R98, R101, R103), the transaction sequencer
(R158 to R166), the timers (R232, R233), the emergency path with its entry and its return (R285 to R288),
the Controller's transitions and its dispatch (R228 to R252), and the parts of a tick (R224, R230). -/

namespace Sys2Proof.Machine

/-! ## Outputs and the stuck state -/

/-- The output `busy` (R44). -/
def State.busy (s : State) : Bool := busyFlag s.codec.seq s.act.motion

/-- The stuck state of R123: the MAIN context waits inside `send` for an echo that never arrives, with
the line still an output and interrupts masked (R342). The line is an output at the end of no other
step (R28). -/
def State.stuck (s : State) : Bool := s.link.lineDir == .output

/-- The outputs at the start of a step: nothing driven yet, no response yet (R8). -/
def State.beginStep (s : State) : State :=
  { s with ports := { s.ports with wireTx := [], rspValid := false } }

/-! ## The capture queue -/

/-- `(i + 1) mod P_RXQ_DEPTH` (R31, R32). -/
def nextIndex (depth i : Nat) : Nat := (i + 1) % depth

/-- `rxq[i]`. -/
def Link.slot (l : Link) (i : Nat) : Slot := l.rxq.getD i emptySlot

/-- What the handler does with one byte (R128): store it in the slot `rx_wr` when that slot is `EMPTY`,
and drop it otherwise (R129). -/
def Link.capture (depth : Nat) (l : Link) (b : Byte) : Link :=
  if l.slot l.rxWr = emptySlot then
    { l with rxq := l.rxq.set l.rxWr (b.setWidth 9), rxWr := nextIndex depth l.rxWr }
  else l

/-- The RX-INTERRUPT handler (R128): it drains the hardware buffer into the queue. -/
def Link.handler (depth : Nat) (l : Link) : Link :=
  l.hwRx.foldl (Link.capture depth) { l with hwRx := [] }

/-- The arrival of a byte from the peer (R121): it lands in the hardware buffer, and the handler runs
when it is enabled (R127). -/
def Link.arrive (depth : Nat) (b : Byte) (l : Link) : Link :=
  let l' := { l with hwRx := l.hwRx ++ [b] }
  if l'.irqEn then l'.handler depth else l'

/-- `receive_available()` (R130). -/
def Link.available (l : Link) : Bool := l.slot l.rxRd != emptySlot

/-- `receive_byte()` (R131): the slot value, and the link after the read. -/
def Link.receiveByte (depth : Nat) (l : Link) : Slot × Link :=
  let v := l.slot l.rxRd
  if v = emptySlot then (v, l)
  else (v, { l with rxq := l.rxq.set l.rxRd emptySlot, rxRd := nextIndex depth l.rxRd })

/-- `v[7:0]` of a slot value (R132, R164). -/
def slotByte (v : Slot) : Byte := v.setWidth 8

/-- The reply bytes `collect` obtains in at most `count` reads, stopping at the first `EMPTY` (R162). -/
def Link.takeBytes (depth : Nat) : Nat → Link → List Byte × Link
  | 0, l => ([], l)
  | count + 1, l =>
    if (l.receiveByte depth).1 = emptySlot then ([], (l.receiveByte depth).2)
    else
      (slotByte (l.receiveByte depth).1 :: (Link.takeBytes depth count (l.receiveByte depth).2).1,
        (Link.takeBytes depth count (l.receiveByte depth).2).2)

/-- The bytes waiting in the queue, oldest first (R32): from `rx_rd` on, up to the first `EMPTY`. -/
def Link.waiting (depth : Nat) (l : Link) : List Byte :=
  (((List.range depth).map (fun j => l.slot ((l.rxRd + j) % depth))).takeWhile
    (fun v => v != emptySlot)).map slotByte

/-- Link reconstruction (R134): a new link at the given rate. -/
def Link.rebuild (depth baud : Nat) (l : Link) : Link :=
  { l with
    baud := baud
    rxq := List.replicate depth emptySlot
    rxWr := 0
    rxRd := 0
    hwRx := []
    irqEn := true
    lineDir := .input }

/-- The state with its link changed. -/
def State.onLink (f : Link → Link) (s : State) : State := { s with link := f s.link }

/-! ## The echo and `send` -/

/-- `draw_echo()` for the byte `b` (R100, R123): the next draw; past the presented draws a healthy line
returns the byte itself (R108, log entry 2). -/
def drawEcho (b : Byte) : List Echo → Echo × List Echo
  | [] => (some b, [])
  | d :: ds => (d, ds)

/-- Micro-steps 1 to 3 of `send` up to the draw (R124): interrupts masked, the line an output, the byte
on the wire, the draw taken. -/
def sendStart (b : Byte) (s : State) : State :=
  { s with
    link := { s.link with irqEn := false, lineDir := .output }
    ports := { s.ports with
      wireTx := s.ports.wireTx ++ [b]
      echoes := (drawEcho b s.ports.echoes).2 } }

/-- Micro-steps 3 to 7 of `send` once the echo `e` is there (R124): it lands in the hardware buffer, the
line is an input again, the head of the buffer is taken off it, interrupts are enabled. -/
def sendFinish (e : Byte) (s : State) : State :=
  { s with
    link := { s.link with
      hwRx := (s.link.hwRx ++ [e]).tail
      lineDir := .input
      irqEn := true } }

/-- `send(b)` (R124): the byte read back, `none` when the block is stuck (R123), and the state after. -/
def sendByte (b : Byte) (s : State) : Option Byte × State :=
  match (drawEcho b s.ports.echoes).1 with
  | none => (none, sendStart b s)
  | some e => (some ((s.link.hwRx ++ [e]).headD e), sendFinish e (sendStart b s))

/-- What a byte read back that differs from the byte sent does to `echo_ok` (R160). -/
def noteEcho (b x : Byte) (s : State) : State :=
  if x = b then s else { s with codec := { s.codec with echoOk := false } }

/-- The bytes of a frame sent in order, each by one `send` (R160); a draw of `NONE` ends it stuck. -/
def transmit : List Byte → State → State
  | [], s => s
  | b :: bs, s =>
    match (sendByte b s).1 with
    | none => (sendByte b s).2
    | some x => transmit bs (noteEcho b x (sendByte b s).2)

/-- The frame built into `txbuf` and `echo_ok` set, before the first byte (R154, R160). -/
def loadFrame (id opcode : Byte) (ps : List Byte) (s : State) : State :=
  { s with codec := { s.codec with txbuf := frame id opcode ps, echoOk := true } }

/-- An instruction packet framed and sent (R154, R160). -/
def sendFrame (id opcode : Byte) (ps : List Byte) (s : State) : State :=
  transmit (frame id opcode ps) (loadFrame id opcode ps s)

/-! ## Responses -/

/-- `rsp_data`: the valid bytes, and 0x00 beyond them up to `P_MAXP` (R101). -/
def padData (maxp : Nat) (data : List Byte) : List Byte :=
  data ++ List.replicate (maxp - data.length) 0x00

/-- `respond(res)` (R101): the whole latch written, `rsp_valid` raised. -/
def respond (r : Result) (s : State) : State :=
  { s with
    rsp := ⟨r.status, r.err, r.n, padData s.cfg.maxp r.data, r.echoOk, r.chkOk⟩
    ports := { s.ports with rspValid := true } }

/-- What `refuse(reason)` responds (R103). -/
def refusal (why : Reason) : Result := ⟨.refused, why.code, 0, [], true, false⟩

/-- `refuse(reason)` (R103): a response "and nothing else". -/
def refuse (why : Reason) (s : State) : State := respond (refusal why) s

/-- The response of a Transport command: `respond(ST_NOWAIT, 0, n, data, echo_ok, 0)` (R125 to R134). -/
def transportResult (data : List Byte) (echoOk : Bool) : Result :=
  ⟨.noWait, 0, data.length, data, echoOk, false⟩

/-! ## Timers and the event queue -/

/-- `enqueue(e)` (R228). -/
def enqueue (e : CtrlEv) (s : State) : State :=
  { s with sup := { s.sup with evq := if e ∈ s.sup.evq then s.sup.evq else s.sup.evq ++ [e] } }

/-- `start_timers()` (R232). -/
def startTimers (s : State) : State :=
  { s with act := { s.act with
      timersOn := true, deadlineCnt := s.cfg.timeoutTicks, sampleCnt := s.cfg.sampleTicks } }

/-- The events `cancel_timers()` removes (R233). -/
def isTimerEvent (e : CtrlEv) : Bool := e == .sample || e == .deadline

/-- `cancel_timers()` (R233). -/
def cancelTimers (s : State) : State :=
  { s with
    act := { s.act with timersOn := false, deadlineCnt := 0, sampleCnt := 0 }
    sup := { s.sup with evq := s.sup.evq.filter (fun e => !isTimerEvent e) } }

/-! ## Transactions the Controller starts -/

/-- The wait for a reply (R159): the settle interval, the expected count, the continuation. -/
def settleFor (rn : Nat) (k : Cont) (s : State) : State :=
  { s with codec := { s.codec with
      seq := .settle, settleCnt := s.cfg.settleTicks, expN := 6 + rn, rdN := rn, cont := k } }

/-- `begin_txn(id, opcode, P, rn, true, k)` (R159): the frame, then the settle interval; stuck inside the
frame when an echo does not arrive (R160). -/
def beginWait (id opcode : Byte) (ps : List Byte) (rn : Nat) (k : Cont) (s : State) : State :=
  if (sendFrame id opcode ps s).stuck then sendFrame id opcode ps s
  else settleFor rn k (sendFrame id opcode ps s)

/-- The speed word of a motion (R240). -/
def motionWord (p : Params) (target : Motion) : Word16 :=
  if target = .opening then openSpeedWord p else closeSpeedWord p

/-- `begin_motion(target)` before its transaction (R240). -/
def setMotion (target : Motion) (s : State) : State :=
  { s with
    act := { s.act with motion := target, emergency := false }
    sup := { s.sup with ind := .movingBlink } }

/-- `begin_motion(target)` (R240). -/
def beginMotion (target : Motion) (s : State) : State :=
  beginWait s.cfg.servoId opWrite (s.cfg.aSpeed :: wordBytes (motionWord s.cfg target)) 0 .start
    (setMotion target (cancelTimers s))

/-- The torque-disable write of the stop paths (R249, R250). -/
def sendTorqueOff (k : Cont) (s : State) : State :=
  beginWait s.cfg.servoId opWrite [s.cfg.aTorqueEn, 0x00] 0 k s

/-- The load read of the torque sampler (R244). -/
def readLoadSample (s : State) : State :=
  beginWait s.cfg.servoId opRead [s.cfg.aLoad, 0x02] 2 .sample s

/-! ## The emergency path: what stands in place of an exception -/

/-- What entering the emergency path writes before its transaction (R250, R285). -/
def setEmergency (s : State) : State :=
  { s with
    act := { s.act with motion := .emergency, emergency := true }
    sup := { s.sup with ind := .faultBlink } }

/-- ENTRY of the emergency path (R250, R285): both timers cancelled with their pending events, `motion`,
`emergency` and `ind` written, the torque-disable transaction begun. Nothing is saved. -/
def enterEmergency (s : State) : State := sendTorqueOff .emerg (setEmergency (cancelTimers s))

/-- RETURN from the emergency path (R252, R286): `motion` is `Idle`; `emergency` and `ind` persist. -/
def leaveEmergency (s : State) : State := { s with act := { s.act with motion := .idle } }

/-! ## The Controller's transitions -/

/-- `EV_OPEN` by the table of R235 (R236, R239). -/
def onOpen (s : State) : State :=
  match s.act.motion with
  | .idle => beginMotion .opening s
  | .opening => s
  | .closing => s
  | .emergency => s

/-- `EV_CLOSE` by the table of R235 (R237, R238). -/
def onClose (s : State) : State :=
  match s.act.motion with
  | .idle => beginMotion .closing s
  | .opening => beginMotion .closing s
  | .closing => beginMotion .closing s
  | .emergency => beginMotion .closing s

/-- `EV_SAMPLE` by the table of R235 (R244, R254). -/
def onSample (s : State) : State :=
  match s.act.motion with
  | .idle => s
  | .opening => readLoadSample s
  | .closing => readLoadSample s
  | .emergency => s

/-- `EV_DEADLINE` by the table of R235 (R250, R254). -/
def onDeadline (s : State) : State :=
  match s.act.motion with
  | .idle => s
  | .opening => enterEmergency s
  | .closing => enterEmergency s
  | .emergency => s

/-- The dispatch table of R235. -/
def transition (e : CtrlEv) (s : State) : State :=
  match e with
  | .deadline => onDeadline s
  | .closeEv => onClose s
  | .openEv => onOpen s
  | .sample => onSample s

/-- The event `dispatch()` takes: the oldest (R234), but that a pending `EV_DEADLINE` passes over a load read
not yet begun. `90_conflicts.md` C8 has the deadline dispatched at the completion of the transaction in
flight; an `EV_SAMPLE` that became pending earlier in that transaction would begin another one before it
(R265, R268; DEDUCED, unsafe, log entry 12). An intent that stands between that `EV_SAMPLE` and the deadline
then comes before both: the spec gives no order for these three, and this one is the model's (DESIGN CHOICE,
unsafe, log entry 18). -/
def nextEvent (evs : List CtrlEv) : Option CtrlEv :=
  (if CtrlEv.deadline ∈ evs then evs.filter (fun e => e != .sample) else evs).head?

/-- The event `e` removed from `evq`. -/
def dropEvent (e : CtrlEv) (s : State) : State :=
  { s with sup := { s.sup with evq := s.sup.evq.erase e } }

/-- When `dispatch()` takes an event (R234): no transaction in flight, and MAIN not stuck (R342). -/
def State.ready (s : State) : Bool := s.codec.seq == .idle && !s.stuck

/-- `dispatch()` with a bound on the events it takes. -/
def dispatchUpTo : Nat → State → State
  | 0, s => s
  | fuel + 1, s =>
    match nextEvent s.sup.evq with
    | none => s
    | some e => if s.ready then dispatchUpTo fuel (transition e (dropEvent e s)) else s

/-- `dispatch()` (R234). No transition adds an event, so the length of `evq` bounds the loop. -/
def dispatch (s : State) : State := dispatchUpTo s.sup.evq.length s

/-! ## Completion of a transaction -/

/-- `begin_txn(id, opcode, P, rn, wait, k)` (R159), `finish` being `complete(k, ·)`. -/
def beginTxn (finish : Result → State → State) (id opcode : Byte) (ps : List Byte) (rn : Nat)
    (wait : Bool) (k : Cont) (s : State) : State :=
  if (sendFrame id opcode ps s).stuck then sendFrame id opcode ps s
  else if wait then settleFor rn k (sendFrame id opcode ps s)
  else finish (noWaitResult (sendFrame id opcode ps s).codec.echoOk) (sendFrame id opcode ps s)

/-- `complete(K_HOST, res)` (R166): the response, then dispatch. -/
def completeHost (r : Result) (s : State) : State := dispatch (respond r s)

/-- Continuation `K_HOST_MODE2` (R196): the second write of `SET_MODE_CONT`, unless the first failed. -/
def contMode2 (r : Result) (s : State) : State :=
  if r.failed then respond r s
  else beginTxn completeHost s.codec.hostId opWrite [s.cfg.aCcwLimit, 0x00, 0x00] 0
    (s.codec.hostId != broadcastId) .host s

/-- Continuation `K_START` (R242): the result is not examined. -/
def contStart (s : State) : State :=
  { startTimers s with act := { (startTimers s).act with ovlCnt := 0 } }

/-- The display state of a confirmed stall (R249). -/
def stallIndicator (m : Motion) : Indicator := if m = .opening then .openSolid else .closedSolid

/-- What a confirmed stall writes before its transaction (R249). -/
def setStalled (s : State) : State :=
  { s with
    act := { s.act with motion := .idle }
    sup := { s.sup with ind := stallIndicator s.act.motion } }

/-- A confirmed stall (R249). -/
def confirmStall (s : State) : State := sendTorqueOff .stop (setStalled (cancelTimers s))

/-- The consecutive-hit counter after a usable sample (R248). -/
def countHit (hit : Bool) (s : State) : State :=
  { s with act := { s.act with ovlCnt := if hit then s.act.ovlCnt + 1 else 0 } }

/-- Continuation `K_SAMPLE` (R248). -/
def contSample (r : Result) (s : State) : State :=
  if r.usable then
    if (countHit (overThreshold s.cfg r.loadWord) s).act.ovlCnt = s.cfg.validCount then
      confirmStall (countHit (overThreshold s.cfg r.loadWord) s)
    else countHit (overThreshold s.cfg r.loadWord) s
  else s

/-- The continuation of a transaction applied to its result (R166). -/
def continueWith (k : Cont) (r : Result) (s : State) : State :=
  match k with
  | .host => respond r s
  | .hostMode2 => contMode2 r s
  | .start => contStart s
  | .sample => contSample r s
  | .stop => s
  | .emerg => leaveEmergency s

/-- `complete(k, res)` (R166): the continuation, then dispatch. -/
def complete (k : Cont) (r : Result) (s : State) : State := dispatch (continueWith k r s)

/-- The result of a transaction whose reply bytes are `r` (R162, R164): no reply when they are fewer than
expected; no more than `exp_n` are looked at (R163). -/
def replyResult (c : Codec) (r : List Byte) : Result :=
  if r.length < c.expN then noReplyResult c.echoOk
  else decodeReply c.expN c.rdN c.echoOk (r.take c.expN)

/-- The end of the settle interval with the reply bytes `r` in hand (R161, R230 (d)): `seq` is idle again
and the transaction completes. -/
def finishTxn (r : List Byte) (s : State) : State :=
  complete s.codec.cont (replyResult s.codec r) { s with codec := { s.codec with seq := .idle } }

/-- The reply bytes taken from the capture queue at the end of the settle interval (R162). -/
def collected (s : State) : List Byte × Link := s.link.takeBytes s.cfg.rxqDepth s.codec.expN

/-! ## The parts of a tick -/

/-- One tick of the settle interval (R161). -/
def countSettle (s : State) : State :=
  { s with codec := { s.codec with settleCnt := s.codec.settleCnt - 1 } }

/-- Part (d) of a tick (R230). -/
def settlePart (s : State) : State :=
  if s.codec.seq = .settle then
    if (countSettle s).codec.settleCnt = 0 then
      finishTxn (collected (countSettle s)).1
        { countSettle s with link := (collected (countSettle s)).2 }
    else countSettle s
  else s

/-- One tick of the motion deadline (R230). -/
def countDeadline (s : State) : State :=
  { s with act := { s.act with deadlineCnt := s.act.deadlineCnt - 1 } }

/-- Part (a) of a tick (R230). -/
def deadlinePart (s : State) : State :=
  if s.act.timersOn ∧ 0 < s.act.deadlineCnt then
    if (countDeadline s).act.deadlineCnt = 0 then enqueue .deadline (countDeadline s)
    else countDeadline s
  else s

/-- A button counts while it is held and has not fired (R224). -/
def Button.counting (b : Button) : Bool := b.held && !b.fired

/-- A button after a tick (R224). -/
def Button.tick (holdTicks : Nat) (b : Button) : Button :=
  if b.counting then { b with cnt := b.cnt + 1, fired := decide (holdTicks ≤ b.cnt + 1) } else b

/-- Whether a tick qualifies the button's intent (R224). -/
def Button.qualifies (holdTicks : Nat) (b : Button) : Bool :=
  b.counting && decide (holdTicks ≤ b.cnt + 1)

/-- A button after a pressed edge (R222); a second press without a release is ignored. -/
def Button.press (holdTicks : Nat) (b : Button) : Button :=
  if b.held then b else ⟨true, 0, decide (holdTicks = 0)⟩

/-- Whether a pressed edge itself qualifies the intent (R222). -/
def Button.pressQualifies (holdTicks : Nat) (b : Button) : Bool := !b.held && decide (holdTicks = 0)

/-- A button after a released edge (R223); a release of a button not held is ignored. -/
def Button.release (b : Button) : Button := if b.held then ⟨false, 0, false⟩ else b

/-- `enqueue(e)` when the button qualified. -/
def enqueueIf (q : Bool) (e : CtrlEv) (s : State) : State := if q then enqueue e s else s

/-- The open button replaced. -/
def withOpenBtn (b : Button) (s : State) : State := { s with sup := { s.sup with openBtn := b } }

/-- The close button replaced. -/
def withCloseBtn (b : Button) (s : State) : State := { s with sup := { s.sup with closeBtn := b } }

/-- Hold counting of the close button (R224). -/
def holdClose (s : State) : State :=
  enqueueIf (s.sup.closeBtn.qualifies s.cfg.holdTicks) .closeEv
    (withCloseBtn (s.sup.closeBtn.tick s.cfg.holdTicks) s)

/-- Hold counting of the open button (R224). -/
def holdOpen (s : State) : State :=
  enqueueIf (s.sup.openBtn.qualifies s.cfg.holdTicks) .openEv
    (withOpenBtn (s.sup.openBtn.tick s.cfg.holdTicks) s)

/-- Part (b) of a tick (R230): close first, then open. -/
def holdPart (s : State) : State := holdOpen (holdClose s)

/-- One tick of the sample timer (R230): the count, reloaded when it reaches 0. -/
def countSample (s : State) : State :=
  { s with act := { s.act with
      sampleCnt := if s.act.sampleCnt - 1 = 0 then s.cfg.sampleTicks else s.act.sampleCnt - 1 } }

/-- Part (c) of a tick (R230). -/
def samplePart (s : State) : State :=
  if s.act.timersOn then enqueueIf (decide (s.act.sampleCnt - 1 = 0)) .sample (countSample s) else s

/-- Parts (a) to (c) of a tick: the timer and button counts of the INTERRUPT context (R221, R230). -/
def countParts (s : State) : State := samplePart (holdPart (deadlinePart s))

/-- A whole tick, parts (a) to (e) (R230). -/
def tickEvent (s : State) : State := dispatch (settlePart (countParts s))

/-! ## Taking an event, and accepting a command -/

/-- Every event but `RESET`: "the model treats `e = NONE` as a stuck state of the whole block from which
only `RESET` leaves" (R123), so in the stuck state the event is not processed. -/
def live (f : State → State) (s : State) : Host.Outcome State Fault Refusal :=
  .next (if s.stuck then s else f s)

/-- The first failing test of R98, `busy` first. -/
def firstRefusal (s : State) (tests : List (Bool × Reason)) : Option Reason :=
  (((s.busy, Reason.busy) :: tests).find? (fun t => t.1)).map (fun t => t.2)

/-- The acceptance of a command (R98): the first failing test refuses it, and otherwise its rule applies. -/
def accept (tests : List (Bool × Reason)) (body : State → State) (s : State) : State :=
  match firstRefusal s tests with
  | some why => refuse why s
  | none => body s

/-- A host command (R98). -/
def command (tests : List (Bool × Reason)) (body : State → State) (s : State) :
    Host.Outcome State Fault Refusal :=
  live (accept tests body) s

/-- The write transaction of a host command (R168, R169): it waits unless the target is broadcast. -/
def hostWrite (opcode id addr : Byte) (data : List Byte) (s : State) : State :=
  beginTxn (complete .host) id opcode (addr :: data) 0 (id != broadcastId) .host s

/-- The read transaction of a host command (R170). -/
def hostRead (id addr n : Byte) (s : State) : State :=
  beginTxn (complete .host) id opRead [addr, n] n.toNat true .host s

/-- A packet sent on its own, outside any transaction in flight (R158). -/
def emitPacket (id opcode : Byte) (ps : List Byte) (s : State) : State :=
  if s.codec.seq = .idle then sendFrame id opcode ps s else s

/-- A controller event taken by the Controller (R234, R235): applied when no transaction is in flight,
and otherwise left pending. -/
def takeEvent (e : CtrlEv) (apply : State → State) (s : State) : State :=
  if s.codec.seq = .idle then apply s else enqueue e s

end Sys2Proof.Machine
end

