-- ==== Sys2Proof/Machine/Controller.lean ====
section
/-! DEFINITION. The meanings of the four controller events: what the Controller does when it takes one
(`43_controller.md` R234, R235). In the block `dispatch()` takes them from `evq` inside the step of an
external event. -/

namespace Sys2Proof.Machine

/-- `EV_DEADLINE` (R250, R254). -/
def execEvDeadline (s : State) : Host.Outcome State Fault Refusal :=
  live (takeEvent .deadline onDeadline) s

/-- `EV_CLOSE` (R237, R238). -/
def execEvClose (s : State) : Host.Outcome State Fault Refusal :=
  live (takeEvent .closeEv onClose) s

/-- `EV_OPEN` (R236, R239). -/
def execEvOpen (s : State) : Host.Outcome State Fault Refusal :=
  live (takeEvent .openEv onOpen) s

/-- `EV_SAMPLE` (R244, R254). -/
def execEvSample (s : State) : Host.Outcome State Fault Refusal :=
  live (takeEvent .sample onSample) s

end Sys2Proof.Machine
end

