-- ==== Sys2Proof/Machine/Derived.lean ====
section
/-! DEFINITION. The meanings of the derived commands (`42_codec_derived.md` R190 to R199), each a primitive
transaction with a fixed address and width (R109). -/

namespace Sys2Proof.Machine

/-- `TORQUE_EN` (R190). -/
def execTorqueEn (id e : Byte) (s : State) : Host.Outcome State Fault Refusal :=
  command [identTest id, torqueTest e] (fun s => hostWrite opWrite id s.cfg.aTorqueEn [e] s) s

/-- `SET_SPEED` (R191). -/
def execSetSpeed (id d0 d1 : Byte) (s : State) : Host.Outcome State Fault Refusal :=
  command [identTest id, speedTest d1] (fun s => hostWrite opWrite id s.cfg.aSpeed [d0, d1] s) s

/-- `SET_CW_LIMIT` (R192). -/
def execSetCwLimit (id d0 d1 : Byte) (s : State) : Host.Outcome State Fault Refusal :=
  command [identTest id, angleTest d1] (fun s => hostWrite opWrite id s.cfg.aCwLimit [d0, d1] s) s

/-- `SET_CCW_LIMIT` (R193). -/
def execSetCcwLimit (id d0 d1 : Byte) (s : State) : Host.Outcome State Fault Refusal :=
  command [identTest id, angleTest d1] (fun s => hostWrite opWrite id s.cfg.aCcwLimit [d0, d1] s) s

/-- `SET_ID` (R194): the operand is not checked and `P_SERVO_ID` does not change. -/
def execSetId (id newId : Byte) (s : State) : Host.Outcome State Fault Refusal :=
  command [identTest id] (fun s => hostWrite opWrite id s.cfg.aId [newId] s) s

/-- `SET_BAUDCODE` (R195): the block's own `baud` does not change. -/
def execSetBaudcode (id code : Byte) (s : State) : Host.Outcome State Fault Refusal :=
  command [identTest id] (fun s => hostWrite opWrite id s.cfg.aBaud [code] s) s

/-- `host_id <- id` (R196). -/
def setHostId (id : Byte) (s : State) : State := { s with codec := { s.codec with hostId := id } }

/-- The first write of `SET_MODE_CONT` (R196); the second is `contMode2`. -/
def beginModeCont (id : Byte) (s : State) : State :=
  beginTxn (complete .hostMode2) id opWrite [s.cfg.aCwLimit, 0x00, 0x00] 0 (id != broadcastId)
    .hostMode2 (setHostId id s)

/-- `SET_MODE_CONT` (R196). -/
def execSetModeCont (id : Byte) (s : State) : Host.Outcome State Fault Refusal :=
  command [identTest id] (beginModeCont id) s

/-- `READ_LOAD` (R197). -/
def execReadLoad (id : Byte) (s : State) : Host.Outcome State Fault Refusal :=
  command [identTest id, unicastTest id] (fun s => hostRead id s.cfg.aLoad 2 s) s

/-- `READ_TEMP` (R198). -/
def execReadTemp (id : Byte) (s : State) : Host.Outcome State Fault Refusal :=
  command [identTest id, unicastTest id] (fun s => hostRead id s.cfg.aTemp s.cfg.nTemp s) s

/-- `READ_VOLT` (R199). -/
def execReadVolt (id : Byte) (s : State) : Host.Outcome State Fault Refusal :=
  command [identTest id, unicastTest id] (fun s => hostRead id s.cfg.aVolt s.cfg.nVolt s) s

end Sys2Proof.Machine
end

