-- ==== Sys2Proof/Machine/Events.lean ====
section
/-! DEFINITION. The meanings of the external events but the commands: `RESET` (R320), `TICK` (R230),
`LINE_BYTE` (R121) and the four `EDGE`s (R222, R223). -/

namespace Sys2Proof.Machine

/-- `RESET` (R320): every field of the block at its reset value "whatever the state before"; no wire byte,
no draw, no response. The instance, the environment and the outputs are not the block's state (R322). -/
def execReset (s : State) : Host.Outcome State Fault Refusal :=
  .next (State.resetWith s.cfg s.ports)

/-- `TICK` (R230). -/
def execTick (s : State) : Host.Outcome State Fault Refusal := live tickEvent s

/-- `LINE_BYTE(b)` (R121). -/
def execLineByte (b : Byte) (s : State) : Host.Outcome State Fault Refusal :=
  live (fun s => s.onLink (Link.arrive s.cfg.rxqDepth b)) s

/-- A pressed edge of the open button before the dispatch (R222). -/
def pressOpen (s : State) : State :=
  enqueueIf (s.sup.openBtn.pressQualifies s.cfg.holdTicks) .openEv
    (withOpenBtn (s.sup.openBtn.press s.cfg.holdTicks) s)

/-- A pressed edge of the close button before the dispatch (R222). -/
def pressClose (s : State) : State :=
  enqueueIf (s.sup.closeBtn.pressQualifies s.cfg.holdTicks) .closeEv
    (withCloseBtn (s.sup.closeBtn.press s.cfg.holdTicks) s)

/-- `EDGE(OPEN_PRESSED)` (R222). -/
def execEdgeOpenPressed (s : State) : Host.Outcome State Fault Refusal :=
  live (fun s => dispatch (pressOpen s)) s

/-- `EDGE(OPEN_RELEASED)` (R223). -/
def execEdgeOpenReleased (s : State) : Host.Outcome State Fault Refusal :=
  live (fun s => withOpenBtn s.sup.openBtn.release s) s

/-- `EDGE(CLOSE_PRESSED)` (R222). -/
def execEdgeClosePressed (s : State) : Host.Outcome State Fault Refusal :=
  live (fun s => dispatch (pressClose s)) s

/-- `EDGE(CLOSE_RELEASED)` (R223). -/
def execEdgeCloseReleased (s : State) : Host.Outcome State Fault Refusal :=
  live (fun s => withCloseBtn s.sup.closeBtn.release s) s

end Sys2Proof.Machine
end

