-- ==== Sys2Proof/Machine/Packets.lean ====
section
/-! DEFINITION. The meanings of the wire packets: sending one of the four instruction packets (R84 to R88,
R154, R160) and taking a status packet as the reply of the transaction in flight (R89, R90, R164). The
block does these inside the step of an external event; here each stands on its own. -/

namespace Sys2Proof.Machine

/-- `PKT_READ` sent (R85). -/
def execPktRead (id addr n : Byte) (s : State) : Host.Outcome State Fault Refusal :=
  live (emitPacket id opRead [addr, n]) s

/-- `PKT_WRITE` sent (R86). -/
def execPktWrite (id addr : Byte) (data : List Byte) (s : State) : Host.Outcome State Fault Refusal :=
  live (emitPacket id opWrite (addr :: data)) s

/-- `PKT_REGWRITE` sent (R87). -/
def execPktRegwrite (id addr : Byte) (data : List Byte) (s : State) :
    Host.Outcome State Fault Refusal :=
  live (emitPacket id opRegwrite (addr :: data)) s

/-- `PKT_ACTION` sent (R88). -/
def execPktAction (id : Byte) (s : State) : Host.Outcome State Fault Refusal :=
  live (emitPacket id opRegwrite []) s

/-- A reply taken at the moment the settle interval ends, inside part (d) of a tick; at any other moment
the block takes no reply: the interval "is not shortened when the whole reply has arrived early" (R161). -/
def takeReply (r : List Byte) (s : State) : State :=
  if s.codec.seq = .settle ∧ s.codec.settleCnt = 0 then finishTxn r s else s

/-- `PKT_STATUS` taken as a reply (R162, R164, R166). -/
def execPktStatus (r : List Byte) (s : State) : Host.Outcome State Fault Refusal :=
  live (takeReply r) s

end Sys2Proof.Machine
end

