-- ==== Sys2Proof/Machine/Primitives.lean ====
section
/-! DEFINITION. The meanings of the Codec's primitive commands (`41_codec_primitives.md`). -/

namespace Sys2Proof.Machine

/-- `C_WRITE` (R168). -/
def execCWrite (id addr n : Byte) (data : List Byte) (s : State) : Host.Outcome State Fault Refusal :=
  command [identTest id, lenTest s.cfg n] (hostWrite opWrite id addr data) s

/-- `C_REGWRITE` (R169). -/
def execCRegwrite (id addr n : Byte) (data : List Byte) (s : State) :
    Host.Outcome State Fault Refusal :=
  command [identTest id, lenTest s.cfg n] (hostWrite opRegwrite id addr data) s

/-- `C_READ` (R170). -/
def execCRead (id addr n : Byte) (s : State) : Host.Outcome State Fault Refusal :=
  command [identTest id, unicastTest id, lenTest s.cfg n] (hostRead id addr n) s

/-- `C_ACTION` (R171): it never waits, whatever the identifier. -/
def execCAction (id : Byte) (s : State) : Host.Outcome State Fault Refusal :=
  command [identTest id] (beginTxn (complete .host) id opRegwrite [] 0 false .host) s

/-- `CMD_RESERVED` (R99): test (2) of R98 fails whatever the code. -/
def execCmdReserved (_op : Byte) (s : State) : Host.Outcome State Fault Refusal :=
  command [(true, .opcode)] (fun s => s) s

end Sys2Proof.Machine
end

