-- ==== Sys2Proof/Machine/Transport.lean ====
section
/-! DEFINITION. The meanings of the Transport commands (`40_transport.md`). -/

namespace Sys2Proof.Machine

/-- `T_SEND` once accepted (R125). -/
def sendCommand (d0 : Byte) (s : State) : State :=
  match (sendByte d0 s).1 with
  | none => (sendByte d0 s).2
  | some x => respond (transportResult [x] (x == d0)) (sendByte d0 s).2

/-- `T_SEND` (R125). -/
def execTSend (d0 : Byte) (s : State) : Host.Outcome State Fault Refusal :=
  command [] (sendCommand d0) s

/-- The byte `T_RXAVAIL` responds (R130). -/
def availByte (a : Bool) : Byte := if a then 0x01 else 0x00

/-- `T_RXAVAIL` (R130). -/
def execTRxavail (s : State) : Host.Outcome State Fault Refusal :=
  command [] (fun s => respond (transportResult [availByte s.link.available] true) s) s

/-- The data `T_RXBYTE` responds for a slot value: none for the sentinel (R132). -/
def slotData (v : Slot) : List Byte := if v = emptySlot then [] else [slotByte v]

/-- `T_RXBYTE` (R132). -/
def execTRxbyte (s : State) : Host.Outcome State Fault Refusal :=
  command []
    (fun s => respond (transportResult (slotData (s.link.receiveByte s.cfg.rxqDepth).1) true)
      { s with link := (s.link.receiveByte s.cfg.rxqDepth).2 }) s

/-- `T_REINIT` (R134). -/
def execTReinit (d0 d1 d2 d3 : Byte) (s : State) : Host.Outcome State Fault Refusal :=
  command [baudTest d0 d1 d2 d3]
    (fun s => respond (transportResult [] true)
      (s.onLink (Link.rebuild s.cfg.rxqDepth (baudOf d0 d1 d2 d3)))) s

end Sys2Proof.Machine
end

