-- ==== Sys2Proof/Machine/Dispatch.lean ====
section
/-! DEFINITION. The dispatch of every constructor of `Instr` to its meaning. -/

namespace Sys2Proof.Machine

/-- The meaning of an instruction. -/
def exec (i : Instr) (s : State) : Host.Outcome State Fault Refusal :=
  match i with
  | .tSend d0 => Sys2Proof.Machine.execTSend d0 s
  | .tRxavail => Sys2Proof.Machine.execTRxavail s
  | .tRxbyte => Sys2Proof.Machine.execTRxbyte s
  | .tReinit d0 d1 d2 d3 => Sys2Proof.Machine.execTReinit d0 d1 d2 d3 s
  | .cWrite id addr n data => Sys2Proof.Machine.execCWrite id addr n data s
  | .cRegwrite id addr n data => Sys2Proof.Machine.execCRegwrite id addr n data s
  | .cRead id addr n => Sys2Proof.Machine.execCRead id addr n s
  | .cAction id => Sys2Proof.Machine.execCAction id s
  | .torqueEn id e => Sys2Proof.Machine.execTorqueEn id e s
  | .setSpeed id d0 d1 => Sys2Proof.Machine.execSetSpeed id d0 d1 s
  | .setCwLimit id d0 d1 => Sys2Proof.Machine.execSetCwLimit id d0 d1 s
  | .setCcwLimit id d0 d1 => Sys2Proof.Machine.execSetCcwLimit id d0 d1 s
  | .setId id newId => Sys2Proof.Machine.execSetId id newId s
  | .setBaudcode id code => Sys2Proof.Machine.execSetBaudcode id code s
  | .setModeCont id => Sys2Proof.Machine.execSetModeCont id s
  | .readLoad id => Sys2Proof.Machine.execReadLoad id s
  | .readTemp id => Sys2Proof.Machine.execReadTemp id s
  | .readVolt id => Sys2Proof.Machine.execReadVolt id s
  | .cmdReserved op => Sys2Proof.Machine.execCmdReserved op s
  | .pktRead id addr n => Sys2Proof.Machine.execPktRead id addr n s
  | .pktWrite id addr data => Sys2Proof.Machine.execPktWrite id addr data s
  | .pktRegwrite id addr data => Sys2Proof.Machine.execPktRegwrite id addr data s
  | .pktAction id => Sys2Proof.Machine.execPktAction id s
  | .pktStatus r => Sys2Proof.Machine.execPktStatus r s
  | .reset => Sys2Proof.Machine.execReset s
  | .tick => Sys2Proof.Machine.execTick s
  | .lineByte b => Sys2Proof.Machine.execLineByte b s
  | .edgeOpenPressed => Sys2Proof.Machine.execEdgeOpenPressed s
  | .edgeOpenReleased => Sys2Proof.Machine.execEdgeOpenReleased s
  | .edgeClosePressed => Sys2Proof.Machine.execEdgeClosePressed s
  | .edgeCloseReleased => Sys2Proof.Machine.execEdgeCloseReleased s
  | .evDeadline => Sys2Proof.Machine.execEvDeadline s
  | .evClose => Sys2Proof.Machine.execEvClose s
  | .evOpen => Sys2Proof.Machine.execEvOpen s
  | .evSample => Sys2Proof.Machine.execEvSample s

end Sys2Proof.Machine
end

