-- ==== Sys2Proof/Machine/Outputs.lean ====
section
/-! DEFINITION. The level outputs and the response port as the host sees them: the numeric codes of R102,
R103, R106 and R107 over the state (R44, R46, R303). -/

namespace Sys2Proof.Machine

/-- The output `busy`, 1 bit (R44). -/
def State.busyOut (s : State) : BitVec 1 := BitVec.ofBool s.busy

/-- The output `motion`, 2 bits (R106). -/
def State.motionOut (s : State) : BitVec 2 := s.act.motion.code

/-- The output `emergency`, 1 bit (R41, R303). -/
def State.emergencyOut (s : State) : BitVec 1 := BitVec.ofBool s.act.emergency

/-- The output `ind`, 3 bits (R107). -/
def State.indOut (s : State) : BitVec 3 := s.sup.ind.code

/-- `rsp_status`, 2 bits (R102). -/
def State.statusOut (s : State) : BitVec 2 := s.rsp.status.code

/-- The controller-event codes held in `evq` (R104). -/
def State.evqCodes (s : State) : List Byte := s.sup.evq.map CtrlEv.code

/-- The receive-interrupt pending level, `hw_rx != []` (R29). -/
def State.rxPending (s : State) : Bool := !s.link.hwRx.isEmpty

end Sys2Proof.Machine
end

