-- ==== Sys2Proof/Machine/Step.lean ====
section
/-! DEFINITION. One step of the block: one external event taken from the environment, decoded, run to its
meaning, and ended by the dispatch that ends every external event (R8, R234). -/

namespace Sys2Proof.Machine

/-- What ends every external event: `dispatch()` (R234). -/
def endOfEvent (o : Host.Outcome State Fault Refusal) : Host.Outcome State Fault Refusal :=
  match o with
  | .next s => .next (dispatch s)
  | .fault r => .fault r
  | .refused r => .refused r

/-- The event `e` taken: the inputs that are left, the outputs of a new step. -/
def State.taking (s : State) (rest : List Stim) : State :=
  { s.beginStep with ports := { s.beginStep.ports with inbox := rest } }

/-- The step at one presented event: it is decoded, checked, and its meaning runs (R8). -/
def runEvent (e : Stim) (s : State) : Host.Outcome State Fault Refusal :=
  match decode (.ext e.port) e.bytes with
  | .error why => .refused (.notAnEvent why)
  | .ok i => if i.wf s.cfg then endOfEvent (exec i s) else .refused .recordTooShort

/-- One step. With no event presented the block waits, and nothing changes but the outputs, which show
nothing driven and no response (R323). -/
def step (s : State) : Host.Outcome State Fault Refusal :=
  match s.ports.inbox with
  | [] => .next s.beginStep
  | e :: rest => runEvent e (s.taking rest)

/-- The command record of a table word presented as the next external event, in the place of the one that
was to come. The block fetches nothing (R24): a program is what the environment presents (log entry 3). -/
def State.withFetchWord (s : State) (nbits w : Nat) : State :=
  { s with ports := { s.ports with
      inbox := ⟨.cmd, recordOfWord nbits w⟩ :: s.ports.inbox.tail } }

end Sys2Proof.Machine
end

