-- ==== Sys2Proof/Machine/Conversions.lean ====
section
/-! DEFINITION. The numeric conversions of `42_codec_derived.md` R205 to R209: pure functions over exact
rationals, applied by whoever prepares a command's operands or reads a response (R211 (f)). No step of
the block calls them. -/

namespace Sys2Proof.Machine

/-- `clamp(v, lo, hi)` of R205. -/
def clampQ (v lo hi : ℚ) : ℚ := if v < lo then lo else if hi < v then hi else v

/-- The direction bit of `enc_speed`: 1 when the clamped value is negative (R206). -/
def speedDir (v : ℚ) : Bool := decide (clampQ v (-1) 1 < 0)

/-- The magnitude of `enc_speed`: `floor(1023 * abs(c))` (R206). -/
def speedMag (v : ℚ) : Nat := ⌊1023 * |clampQ v (-1) 1|⌋.toNat

/-- `enc_speed(v)` of R206: `dir * 1024 + mag`. -/
def encSpeed (v : ℚ) : Word16 := BitVec.ofNat 16 ((if speedDir v then 1024 else 0) + speedMag v)

/-- `dec_word(w)` of R207. -/
def decWord (w : Word16) : ℚ :=
  if dirOf w then -((magOf w).toNat / 1023 : ℚ) else ((magOf w).toNat / 1023 : ℚ)

/-- `deg_to_units(d)` of R208. -/
def degToUnits (d : ℚ) : Nat := ⌊1023 * clampQ d 0 300 / 300 + 1 / 2⌋.toNat

/-- `units_to_deg(u)` of R209: `floor(300 * u / 1023)`. -/
def unitsToDeg (u : Nat) : Nat := 300 * u / 1023

end Sys2Proof.Machine
end

