-- ==== Sys2Proof/Safety.lean ====
section
/-! DEFINITION. The terms in which claims about the block are stated: what the capture queue holds (R32),
a line between two external events (R27 to R29), the premise `ECHO_PRESENT` (R123), the state after a frame
on such a line, and the invariant of every state between external events. -/

namespace Sys2Proof.Machine

/-! ## The Transport Link -/

/-- The capture queue of `depth` slots holds exactly the bytes `bs`, oldest first (the invariant of R32):
"the slots from `rx_rd` up to but not including `rx_wr` (cyclically) hold bytes and every other slot
holds `EMPTY`". -/
structure Link.Holds (depth : Nat) (l : Link) (bs : List Byte) : Prop where
  size : l.rxq.length = depth
  rd : l.rxRd < depth
  wr : l.rxWr = (l.rxRd + bs.length) % depth
  bound : bs.length ≤ depth
  slots : ∀ j, j < depth →
    l.slot ((l.rxRd + j) % depth) = (bs[j]?.map (BitVec.setWidth 9)).getD emptySlot

/-- A line between two external events: interrupts enabled, the pin an input, nothing in the hardware
buffer (R27, R28, R29). -/
structure Link.Quiet (l : Link) : Prop where
  irqEn : l.irqEn = true
  lineDir : l.lineDir = .input
  hwRx : l.hwRx = []

/-- `ECHO_PRESENT` for the next `k` draws (R123): each of them is a byte. -/
def EchoPresent (k : Nat) (s : State) : Prop := none ∉ s.ports.echoes.take k

/-- Whether every byte of `bs` is echoed back unchanged by the draws (R160). -/
def echoesMatch : List Byte → List Echo → Bool
  | [], _ => true
  | _ :: _, [] => true
  | b :: bs, d :: ds => d == some b && echoesMatch bs ds

/-- The state after the bytes of a frame were sent on a quiet line whose echoes are present (R160): the
bytes are on the wire, one draw is taken for each, `txbuf` holds them, `echo_ok` says whether all came
back unchanged, and nothing else has changed. -/
def afterFrame (bytes : List Byte) (s : State) : State :=
  { s with
    codec := { s.codec with txbuf := bytes, echoOk := echoesMatch bytes s.ports.echoes }
    ports := { s.ports with
      wireTx := s.ports.wireTx ++ bytes
      echoes := s.ports.echoes.drop bytes.length } }

/-- The state in which a frame leaves a quiet line when an echo of it never arrives (R123, R160, R342): the
bytes up to the one without an echo are on the wire, each with its draw taken, `txbuf` holds the frame,
`echo_ok` is the verdict on the bytes that came back, interrupts are masked, the line is an output, and
nothing else has changed. -/
def afterMissing (bytes : List Byte) (s : State) : State :=
  let back := (s.ports.echoes.takeWhile Option.isSome).length
  { s with
    link := { s.link with irqEn := false, lineDir := .output }
    codec := { s.codec with
      txbuf := bytes
      echoOk := echoesMatch (bytes.take back) s.ports.echoes }
    ports := { s.ports with
      wireTx := s.ports.wireTx ++ bytes.take (back + 1)
      echoes := s.ports.echoes.drop (back + 1) } }

/-- The host commands among the instructions (R97, R99). -/
def isCommand : Instr → Bool
  | .tSend _ | .tRxavail | .tRxbyte | .tReinit _ _ _ _ | .cWrite _ _ _ _ | .cRegwrite _ _ _ _
  | .cRead _ _ _ | .cAction _ | .torqueEn _ _ | .setSpeed _ _ _ | .setCwLimit _ _ _
  | .setCcwLimit _ _ _ | .setId _ _ | .setBaudcode _ _ | .setModeCont _ | .readLoad _
  | .readTemp _ | .readVolt _ | .cmdReserved _ => true
  | .pktRead _ _ _ | .pktWrite _ _ _ | .pktRegwrite _ _ _ | .pktAction _ | .pktStatus _ | .reset
  | .tick | .lineByte _ | .edgeOpenPressed | .edgeOpenReleased | .edgeClosePressed
  | .edgeCloseReleased | .evDeadline | .evClose | .evOpen | .evSample => false

/-! ## Results -/

/-- A block that takes a host command: no transaction in flight and no motion (R44, R98), on a quiet line. -/
structure State.AtRest (s : State) : Prop where
  quiet : s.link.Quiet
  seq : s.codec.seq = .idle
  motion : s.act.motion = .idle

/-- The state after a response (R101): the latch written as a whole, the data padded with 0x00 up to
`P_MAXP`, `rsp_valid` raised, and nothing else changed. -/
def answered (status : Status) (err : Byte) (data : List Byte) (echoOk chkOk : Bool) (s : State) :
    State :=
  { s with
    rsp := {
      status := status
      err := err
      n := data.length
      data := data ++ List.replicate (s.cfg.maxp - data.length) 0x00
      echoOk := echoOk
      chkOk := chkOk }
    ports := { s.ports with rspValid := true } }

/-- The state after the bytes of a frame were sent on a quiet line whose echoes are present, with the
settle interval of its transaction begun (R159, R160): the sequencer fields written, the bytes on the
wire, one draw taken for each, and nothing else changed. -/
def afterWait (bytes : List Byte) (rn : Nat) (k : Cont) (s : State) : State :=
  { s with
    codec := {
      seq := .settle
      settleCnt := s.cfg.settleTicks
      expN := 6 + rn
      rdN := rn
      cont := k
      txbuf := bytes
      echoOk := echoesMatch bytes s.ports.echoes
      hostId := s.codec.hostId }
    ports := { s.ports with
      wireTx := s.ports.wireTx ++ bytes
      echoes := s.ports.echoes.drop bytes.length } }

/-- The state after an accepted write command (R168, R169): the response at once for broadcast, the settle
interval for any other target. -/
def hostWritten (opcode id : Byte) (ps : List Byte) (s : State) : State :=
  if id = 0xFE then
    answered .noWait 0x00 [] (echoesMatch (frame id opcode ps) s.ports.echoes) false
      (afterFrame (frame id opcode ps) s)
  else afterWait (frame id opcode ps) 0 .host s

/-- The checksum verdict of a reply of `expN` bytes (R164): the sync bytes, a `len` of at least 2 whose
checksum lies within what was read, and the checksum over the bytes from the identifier on. -/
def verdictOf (expN : Nat) (r : List Byte) : Bool :=
  decide (r.getD 0 0 = 0xFF ∧ r.getD 1 0 = 0xFF ∧ 2 ≤ (r.getD 3 0).toNat ∧
    3 + (r.getD 3 0).toNat ≤ expN - 1 ∧
    r.getD (3 + (r.getD 3 0).toNat) 0 = checksum ((r.drop 2).take ((r.getD 3 0).toNat + 1)))

/-- The frame an instruction sends in its own step, when it is not refused and the block is at rest: the
write, read and trigger commands, the derived commands of one primitive (R109), the four packets. -/
def frameOf (p : Params) : Instr → Option (List Byte)
  | .cWrite id addr _ data => some (frame id 0x03 (addr :: data))
  | .cRegwrite id addr _ data => some (frame id 0x04 (addr :: data))
  | .cRead id addr n => some (frame id 0x02 [addr, n])
  | .cAction id => some (frame id 0x04 [])
  | .torqueEn id e => some (frame id 0x03 [p.aTorqueEn, e])
  | .setSpeed id d0 d1 => some (frame id 0x03 [p.aSpeed, d0, d1])
  | .setCwLimit id d0 d1 => some (frame id 0x03 [p.aCwLimit, d0, d1])
  | .setCcwLimit id d0 d1 => some (frame id 0x03 [p.aCcwLimit, d0, d1])
  | .setId id newId => some (frame id 0x03 [p.aId, newId])
  | .setBaudcode id code => some (frame id 0x03 [p.aBaud, code])
  | .readLoad id => some (frame id 0x02 [p.aLoad, 0x02])
  | .readTemp id => some (frame id 0x02 [p.aTemp, p.nTemp])
  | .readVolt id => some (frame id 0x02 [p.aVolt, p.nVolt])
  | .pktRead id addr n => some (frame id 0x02 [addr, n])
  | .pktWrite id addr data => some (frame id 0x03 (addr :: data))
  | .pktRegwrite id addr data => some (frame id 0x04 (addr :: data))
  | .pktAction id => some (frame id 0x04 [])
  | .tSend _ | .tRxavail | .tRxbyte | .tReinit _ _ _ _ | .setModeCont _ | .cmdReserved _ | .pktStatus _
  | .reset | .tick | .lineByte _ | .edgeOpenPressed | .edgeOpenReleased | .edgeClosePressed
  | .edgeCloseReleased | .evDeadline | .evClose | .evOpen | .evSample => none

/-- Which test of R98 an instruction fails first in a block that is not busy, if it fails one: the table of
R98 (2) to (5), row by row. -/
def refusalOf (p : Params) : Instr → Option Reason
  | .cmdReserved _ => some .opcode
  | .cWrite id _ n _ | .cRegwrite id _ n _ =>
    if id = 0xFF then some .ident
    else if n = 0 ∨ p.maxp < n.toNat then some .len else none
  | .cRead id _ n =>
    if id = 0xFF ∨ id = 0xFE then some .ident
    else if n = 0 ∨ p.maxp < n.toNat then some .len else none
  | .readLoad id | .readTemp id | .readVolt id => if id = 0xFF ∨ id = 0xFE then some .ident else none
  | .cAction id | .setId id _ | .setBaudcode id _ | .setModeCont id =>
    if id = 0xFF then some .ident else none
  | .torqueEn id e => if id = 0xFF then some .ident else if 0x01 < e.toNat then some .operand else none
  | .setSpeed id _ d1 =>
    if id = 0xFF then some .ident else if 0x07 < d1.toNat then some .operand else none
  | .setCwLimit id _ d1 | .setCcwLimit id _ d1 =>
    if id = 0xFF then some .ident else if 0x03 < d1.toNat then some .operand else none
  | .tReinit d0 d1 d2 d3 => if d0 = 0 ∧ d1 = 0 ∧ d2 = 0 ∧ d3 = 0 then some .operand else none
  | .tSend _ | .tRxavail | .tRxbyte | .pktRead _ _ _ | .pktWrite _ _ _ | .pktRegwrite _ _ _
  | .pktAction _ | .pktStatus _ | .reset | .tick | .lineByte _ | .edgeOpenPressed
  | .edgeOpenReleased | .edgeClosePressed | .edgeCloseReleased | .evDeadline | .evClose | .evOpen
  | .evSample => none

/-! ## The Controller -/

/-- The parameters of the speed write of a motion (R240): the address and the two bytes of
`P_OPEN_DIR * 1024 + P_SPEED_OPEN_MAG`, or of `(1 - P_OPEN_DIR) * 1024 + P_SPEED_CLOSE_MAG`. -/
def speedParams (p : Params) (target : Motion) : List Byte :=
  let w : Nat :=
    if target = .opening then p.openDir.toNat * 1024 + p.speedOpenMag.toNat
    else (1 - p.openDir.toNat) * 1024 + p.speedCloseMag.toNat
  [p.aSpeed, BitVec.ofNat 8 (w % 256), BitVec.ofNat 8 (w / 256)]

/-- The torque-disable frame of the stop paths (R249, R250). -/
def torqueOffFrame (p : Params) : List Byte := frame p.servoId 0x03 [p.aTorqueEn, 0x00]

/-- The timer pair off and its pending events gone, everything else as it was (R233). -/
def timersCancelled (s : State) : State :=
  { s with
    act := { s.act with timersOn := false, deadlineCnt := 0, sampleCnt := 0 }
    sup := { s.sup with evq := s.sup.evq.filter (fun e => e != .sample && e != .deadline) } }

/-- What the beginning of a motion writes before its frame (R240). -/
def motionSet (target : Motion) (s : State) : State :=
  { timersCancelled s with
    act := { (timersCancelled s).act with motion := target, emergency := false }
    sup := { (timersCancelled s).sup with ind := .movingBlink } }

/-- What the entry of the emergency path writes before its frame (R250, R285). -/
def emergencySet (s : State) : State :=
  { timersCancelled s with
    act := { (timersCancelled s).act with motion := .emergency, emergency := true }
    sup := { (timersCancelled s).sup with ind := .faultBlink } }

/-- What a confirmed stall writes before its frame, the sample that confirms it counted (R248, R249). -/
def stallSet (s : State) : State :=
  { timersCancelled s with
    codec := { s.codec with seq := .idle }
    act := { (timersCancelled s).act with motion := .idle, ovlCnt := s.act.ovlCnt + 1 }
    sup := { (timersCancelled s).sup with
      ind := if s.act.motion = .opening then .openSolid else .closedSolid } }

/-- A load reply of full length that can be used (R248): no error byte, two valid bytes. -/
abbrev usableReply (r : List Byte) : Prop := r.length = 8 ∧ r.getD 4 0 = 0 ∧ 4 ≤ (r.getD 3 0).toNat

/-- The magnitude of a usable load reply is over `P_TORQUE_THRESH` (R248, R262). -/
abbrev overReply (p : Params) (r : List Byte) : Prop :=
  1023 * p.torqueNum / p.torqueDen < ((r.getD 5 0).toNat + 256 * (r.getD 6 0).toNat) % 1024

/-- The instruction of a controller event. -/
def evInstr : CtrlEv → Instr
  | .deadline => .evDeadline
  | .closeEv => .evClose
  | .openEv => .evOpen
  | .sample => .evSample

/-- The queue after `enqueue(e)` (R228). -/
def enqueued (e : CtrlEv) (evs : List CtrlEv) : List CtrlEv := if e ∈ evs then evs else evs ++ [e]

/-- The times the coming tick counts down to their end, and the intents it qualifies, as the events that
become pending in it, in the order of R230. -/
def tickEvents (s : State) : List CtrlEv :=
  (if s.act.timersOn = true ∧ s.act.deadlineCnt = 1 then [.deadline] else [])
    ++ (if s.sup.closeBtn.held = true ∧ s.sup.closeBtn.fired = false ∧
          s.cfg.holdTicks ≤ s.sup.closeBtn.cnt + 1 then [.closeEv] else [])
    ++ (if s.sup.openBtn.held = true ∧ s.sup.openBtn.fired = false ∧
          s.cfg.holdTicks ≤ s.sup.openBtn.cnt + 1 then [.openEv] else [])
    ++ (if s.act.timersOn = true ∧ s.act.sampleCnt ≤ 1 then [.sample] else [])

/-- A button one tick later (R224). -/
def heldOneTick (holdTicks : Nat) (b : Button) : Button :=
  if b.held = true ∧ b.fired = false then ⟨true, b.cnt + 1, decide (holdTicks ≤ b.cnt + 1)⟩ else b

/-- The timer and button counts one tick later, with the events that became pending, and nothing else
changed: parts (a) to (c) of R230. -/
def counted (s : State) : State :=
  { s with
    act := { s.act with
      deadlineCnt := if s.act.timersOn then s.act.deadlineCnt - 1 else s.act.deadlineCnt
      sampleCnt :=
        if s.act.timersOn then
          if s.act.sampleCnt ≤ 1 then s.cfg.sampleTicks else s.act.sampleCnt - 1
        else s.act.sampleCnt }
    sup := { s.sup with
      evq := s.sup.evq ++ (tickEvents s).filter (fun e => decide (e ∉ s.sup.evq))
      openBtn := heldOneTick s.cfg.holdTicks s.sup.openBtn
      closeBtn := heldOneTick s.cfg.holdTicks s.sup.closeBtn } }

/-- The magnitude of a load result is over `floor(1023 * P_TORQUE_FRAC)` (R248, R262). -/
def overSample (p : Params) (r : Result) : Bool :=
  decide (1023 * p.torqueNum / p.torqueDen <
    ((r.data.getD 0 0).toNat + 256 * (r.data.getD 1 0).toNat) % 1024)

/-- How many of the last usable samples were over the threshold without a break (R264): unusable samples
between them do not count. -/
def overRun (p : Params) (rs : List Result) : Nat :=
  ((rs.filter Result.usable).reverse.takeWhile (overSample p)).length

/-! ## Sequences of events -/

/-- The state after a sequence of events, each followed by the `dispatch()` that ends it (R8, R234). -/
def afterEvents : List Instr → State → State
  | [], s => s
  | i :: is, s =>
    match exec i s with
    | .next t => afterEvents is (dispatch t)
    | .fault _ => s
    | .refused _ => s

/-- The events under which R268 bounds a motion: any external event but a pressed close edge and `RESET`. -/
def NoClose (i : Instr) : Prop :=
  isCommand i = true ∨ i ∈ [.tick, .edgeOpenPressed, .edgeOpenReleased, .edgeCloseReleased] ∨
    ∃ b, i = .lineByte b

/-! ## The invariant -/

/-- The qualifier of a button (R45, R224): a button that is not held has nothing counted; the count stays
within `P_HOLD_TICKS`, and below it while the intent is still to come. -/
structure Button.Ok (holdTicks : Nat) (b : Button) : Prop where
  idle : b.held = false → b.cnt = 0 ∧ b.fired = false
  bound : b.cnt ≤ holdTicks
  pending : b.held = true → b.fired = false → b.cnt < holdTicks

/-- A motion is active. -/
def State.moving (s : State) : Prop := s.act.motion = .opening ∨ s.act.motion = .closing

/-- The transaction in flight, if any, is one the Controller's state allows, with its counters in range
(R33, R34, R44, R267, R286). -/
structure State.TxnOk (s : State) : Prop where
  settle : s.codec.seq = .settle → 1 ≤ s.codec.settleCnt
  count : s.codec.seq = .settle → s.codec.expN = 6 + s.codec.rdN
  start : s.codec.seq = .settle → s.codec.cont = .start → s.moving ∧ s.act.timersOn = false
  sample : s.codec.seq = .settle → s.codec.cont = .sample →
    s.moving ∧ s.act.timersOn = true ∧ s.codec.rdN = 2
  emerg : s.codec.seq = .settle → s.codec.cont = .emerg → s.act.motion = .emergency
  other : s.codec.seq = .settle → s.codec.cont = .host ∨ s.codec.cont = .hostMode2 ∨
    s.codec.cont = .stop → s.act.motion = .idle
  inEmergency : s.act.motion = .emergency → s.codec.seq = .settle ∧ s.codec.cont = .emerg

/-- The timer-pair invariant of R267, with the ranges of R39 and R40. -/
structure State.TimersOk (s : State) : Prop where
  on_moving : s.act.timersOn = true → s.moving
  moving_on : s.moving → s.act.timersOn = true ∨ (s.codec.seq = .settle ∧ s.codec.cont = .start)
  events : CtrlEv.sample ∈ s.sup.evq ∨ CtrlEv.deadline ∈ s.sup.evq → s.act.timersOn = true
  counts : 0 < s.act.deadlineCnt ∨ 0 < s.act.sampleCnt → s.act.timersOn = true
  running : s.act.timersOn = true → 1 ≤ s.act.sampleCnt
  deadline : s.act.timersOn = true → s.act.deadlineCnt = 0 → CtrlEv.deadline ∈ s.sup.evq
  expired : CtrlEv.deadline ∈ s.sup.evq → s.act.deadlineCnt = 0
  hits : s.act.timersOn = true → s.act.ovlCnt < s.cfg.validCount

/-- The ranges of the counts the spec states (R34, R37, R39, R40). -/
structure State.RangesOk (s : State) : Prop where
  settleCnt : s.codec.settleCnt ≤ s.cfg.settleTicks
  rdN : s.codec.rdN ≤ s.cfg.maxp
  rspN : s.rsp.n ≤ s.cfg.maxp
  rspData : s.rsp.data.length = s.cfg.maxp
  ovlCnt : s.act.ovlCnt ≤ s.cfg.validCount
  deadlineCnt : s.act.deadlineCnt ≤ s.cfg.timeoutTicks
  sampleCnt : s.act.sampleCnt ≤ s.cfg.sampleTicks
  evq : s.sup.evq.Nodup
  openBtn : s.sup.openBtn.Ok s.cfg.holdTicks
  closeBtn : s.sup.closeBtn.Ok s.cfg.holdTicks

/-- What holds of the Controller and the Codec between the parts of a step, while the block is not stuck. -/
structure State.LiveOk (s : State) : Prop where
  quiet : s.link.Quiet
  txn : s.TxnOk
  timers : s.TimersOk

/-- What holds whether or not the block is stuck. -/
structure State.AlwaysOk (s : State) : Prop where
  params : s.cfg.Valid
  queue : ∃ bs, s.link.Holds s.cfg.rxqDepth bs
  ranges : s.RangesOk

/-- The invariant of every state between two external events. In the stuck state of R123, which is inside
`send`, interrupts are masked; otherwise the line is quiet, the timers are a pair (R267), the transaction
in flight fits the Controller's state, and an event is pending only while a transaction is in flight
(R234). -/
structure State.Inv (s : State) : Prop where
  always : s.AlwaysOk
  masked : s.stuck = true → s.link.irqEn = false
  live : s.stuck = false → s.LiveOk
  waits : s.stuck = false → s.sup.evq ≠ [] → s.codec.seq = .settle

end Sys2Proof.Machine
end

