-- ==== Sys2Proof/Certificates/Slice0/Obligations.lean ====
section
/-! DEFINITION. The statements for the provers, in the order of the machine: the step and the encodings, the
frame, the Transport, the commands, the end of a transaction, the tick and the buttons, the Controller, the
reset and the invariants, the conversions. -/

open Sys2Proof Sys2Proof.Machine

/-! ## The step and the encodings -/

/-- A STEP RUNS THE DECODED EVENT (R8, R234). When the next presented event decodes to a well-formed
instruction `i`, the step is `exec i` on the state whose inbox lacks that event and whose outputs are cleared,
followed by the `dispatch()` that ends every event. A presentation that is no event of R8 is refused by name;
so is a record shorter than its `n` promises (both the model's choice, log entry 3). With nothing presented
the block waits. -/
def Obligations.StepRunsDecodedEvent : Prop :=
  ∀ s : State,
    (∀ (e : Stim) (rest : List Stim) (i : Instr), s.ports.inbox = e :: rest →
      decode (.ext e.port) e.bytes = .ok i → i.wf s.cfg = true →
      step s = endOfEvent (exec i
          { s with ports := ⟨rest, s.ports.echoes, [], false⟩ }) ∧
        ∀ t, exec i { s with ports := ⟨rest, s.ports.echoes, [], false⟩ } = .next t →
          step s = .next (dispatch t)) ∧
    (∀ (e : Stim) (rest : List Stim) (why : Reject), s.ports.inbox = e :: rest →
      decode (.ext e.port) e.bytes = .error why → step s = .refused (.notAnEvent why)) ∧
    (∀ (e : Stim) (rest : List Stim) (i : Instr), s.ports.inbox = e :: rest →
      decode (.ext e.port) e.bytes = .ok i → i.wf s.cfg = false →
      step s = .refused .recordTooShort) ∧
    (s.ports.inbox = [] →
      step s = .next { s with ports := ⟨[], s.ports.echoes, [], false⟩ })

/-- The command record that `withFetchWord` presents is the one the next step runs: the instruction
`decodeTableWord` reads from the same word, whatever was presented before (log entry 3). -/
def Obligations.FetchWordRuns : Prop :=
  ∀ (s : State) (nbits w : Nat) (i : Instr), decodeTableWord nbits w = some i → i.wf s.cfg = true →
    step (s.withFetchWord nbits w) =
      endOfEvent (exec i { s with ports := ⟨s.ports.inbox.tail, s.ports.echoes, [], false⟩ })

/-- DECODING IS RIGHT on words written out from the encoding tables: two command records and a reserved one
(R97, R99), the four packets of R84, a status packet (R89), a button edge (R105), a controller event
(R104). -/
def Obligations.WordsDecode : Prop :=
  decode (.ext .cmd) [0x10, 0x01, 0x18, 0x01, 0x01] = .ok (.cWrite 0x01 0x18 0x01 [0x01]) ∧
  decode (.ext .cmd) [0x21, 0x01, 0x00, 0x00, 0xFF, 0x05] = .ok (.setSpeed 0x01 0xFF 0x05) ∧
  decode (.ext .cmd) [0x2A, 0x00, 0x00, 0x00] = .ok (.cmdReserved 0x2A) ∧
  decode .txPacket [0xFF, 0xFF, 0x01, 0x04, 0x02, 0x28, 0x02, 0xCE] =
    .ok (.pktRead 0x01 0x28 0x02) ∧
  decode .txPacket [0xFF, 0xFF, 0x01, 0x04, 0x03, 0x18, 0x01, 0xDE] =
    .ok (.pktWrite 0x01 0x18 [0x01]) ∧
  decode .txPacket [0xFF, 0xFF, 0x01, 0x05, 0x04, 0x20, 0x00, 0x02, 0xD3] =
    .ok (.pktRegwrite 0x01 0x20 [0x00, 0x02]) ∧
  decode .txPacket [0xFF, 0xFF, 0xFE, 0x02, 0x04, 0xFB] = .ok (.pktAction 0xFE) ∧
  decode .rxPacket [0xFF, 0xFF, 0x01, 0x02, 0x00, 0xFC] =
    .ok (.pktStatus [0xFF, 0xFF, 0x01, 0x02, 0x00, 0xFC]) ∧
  decode (.ext .edge) [0x02] = .ok .edgeClosePressed ∧
  decode .evq [0x00] = .ok .evDeadline

/-- DECODE AND ENCODE AGREE, for every well-formed instruction with every operand (R81 to R89, R97, R104,
R105): no bit of an encoding is dropped. -/
def Obligations.DecodeEncodeAgree : Prop :=
  ∀ (p : Params) (i : Instr), p.Valid → i.wf p = true → decode (encode i).1 (encode i).2 = .ok i

/-- A byte sequence that decodes as an instruction packet is exactly the frame of that packet (R81 to R84):
sync bytes, target, length and checksum leave no other spelling. -/
def Obligations.PacketsAreFrames : Prop :=
  ∀ (bytes : List Byte) (i : Instr), decode .txPacket bytes = .ok i → encode i = (.txPacket, bytes)

/-- The reserved command codes (R99) are the codes 0x00, 0x05 to 0x0F, 0x14 to 0x1F, 0x2A to 0xFF: exactly
these records decode to the reserved command, whatever their other bytes; in a block at rest that command
is refused with `RF_OPCODE` and changes nothing but the response latch. -/
def Obligations.ReservedCodes : Prop :=
  (∀ (op id addr n : Byte) (data : List Byte),
    decode (.ext .cmd) (op :: id :: addr :: n :: data) = .ok (.cmdReserved op) ↔
      op.toNat = 0x00 ∨ (0x05 ≤ op.toNat ∧ op.toNat ≤ 0x0F) ∨ (0x14 ≤ op.toNat ∧ op.toNat ≤ 0x1F) ∨
        0x2A ≤ op.toNat) ∧
  ∀ (op : Byte) (s : State), s.AtRest →
    exec (.cmdReserved op) s = .next (answered .refused 0x02 [] true false s)

/-! ## The frame -/

/-- R153, the checksum law: for every list of bytes, the sum of the list and its checksum is 0xFF modulo
256; with the two sync bytes added it is 0xFD. -/
def Obligations.ChecksumLaw : Prop :=
  ∀ bs : List Byte,
    sum8 (bs ++ [checksum bs]) = 0xFF ∧
      sum8 (syncByte :: syncByte :: (bs ++ [checksum bs])) = 0xFD

/-- The frame of `k` parameters (R81 to R83, R154): its bytes, its `k + 6` bytes of length, and a `len` byte
that never wraps. -/
def Obligations.FrameLayout : Prop :=
  ∀ (id op : Byte) (ps : List Byte), ps.length ≤ 253 →
    ∃ len chk : Byte, len.toNat = ps.length + 2 ∧
      chk.toNat = 0xFF -
        (id.toNat + (ps.length + 2) + op.toNat + (ps.map BitVec.toNat).sum) % 256 ∧
      frame id op ps = [0xFF, 0xFF, id, len, op] ++ ps ++ [chk] ∧
      (frame id op ps).length = ps.length + 6

/-- `echo_ok` after a frame says that every byte of the frame was echoed back unchanged (R36, R160), on a quiet
line whose echoes are present; draws past the end of the given ones are healthy (log entry 2). -/
def Obligations.EchoOkMeansUnchanged : Prop :=
  ∀ (s : State) (id op : Byte) (ps : List Byte), s.link.Quiet → EchoPresent (ps.length + 6) s →
    ((sendFrame id op ps s).codec.echoOk = true ↔
      ∀ j, j < ps.length + 6 → j < s.ports.echoes.length →
        s.ports.echoes[j]? = some (frame id op ps)[j]?)

/-- The four packets on the wire (R85 to R88), byte by byte, when the block sends one: the bytes are driven
in order, one draw each, `txbuf` holds them, `echo_ok` says whether they came back, and nothing else
changes. While a transaction is in flight no packet is begun (R158). -/
def Obligations.PacketsSent : Prop :=
  ∀ s : State, s.link.Quiet →
    (s.codec.seq = .idle →
      (∀ id addr n : Byte, EchoPresent 8 s →
        exec (.pktRead id addr n) s = .next (afterFrame
          [0xFF, 0xFF, id, 0x04, 0x02, addr, n,
            BitVec.ofNat 8 (0xFF - (id.toNat + 4 + 2 + addr.toNat + n.toNat) % 256)] s)) ∧
      (∀ (id addr : Byte) (data : List Byte), 1 ≤ data.length → data.length ≤ 252 →
        EchoPresent (data.length + 7) s →
        exec (.pktWrite id addr data) s = .next (afterFrame
          ([0xFF, 0xFF, id, BitVec.ofNat 8 (data.length + 3), 0x03, addr] ++ data ++
            [BitVec.ofNat 8 (0xFF - (id.toNat + (data.length + 3) + 3 + addr.toNat +
              (data.map BitVec.toNat).sum) % 256)]) s)) ∧
      (∀ (id addr : Byte) (data : List Byte), 1 ≤ data.length → data.length ≤ 252 →
        EchoPresent (data.length + 7) s →
        exec (.pktRegwrite id addr data) s = .next (afterFrame
          ([0xFF, 0xFF, id, BitVec.ofNat 8 (data.length + 3), 0x04, addr] ++ data ++
            [BitVec.ofNat 8 (0xFF - (id.toNat + (data.length + 3) + 4 + addr.toNat +
              (data.map BitVec.toNat).sum) % 256)]) s)) ∧
      (∀ id : Byte, EchoPresent 6 s →
        exec (.pktAction id) s = .next (afterFrame
          [0xFF, 0xFF, id, 0x02, 0x04, BitVec.ofNat 8 (0xFF - (id.toNat + 2 + 4) % 256)] s))) ∧
    (s.codec.seq = .settle → ∀ (id addr n : Byte) (data : List Byte),
      exec (.pktRead id addr n) s = .next s ∧ exec (.pktWrite id addr data) s = .next s ∧
      exec (.pktRegwrite id addr data) s = .next s ∧ exec (.pktAction id) s = .next s)

/-! ## The Transport -/

/-- `T_SEND` (R124, R125): the byte on the wire, one draw, the echo as the one data byte of the response,
`rsp_echo_ok` its verdict; the link, the queue and all else as before. With no draw given the line is
healthy and the echo is the byte itself (log entry 2). -/
def Obligations.SendCommand : Prop :=
  ∀ (s : State) (d0 e : Byte), s.AtRest →
    s.ports.echoes.head? = some (some e) ∨ (s.ports.echoes = [] ∧ e = d0) →
    exec (.tSend d0) s = .next (answered .noWait 0x00 [e] (decide (e = d0)) false
      { s with ports := { s.ports with
          wireTx := s.ports.wireTx ++ [d0]
          echoes := s.ports.echoes.tail } })

/-- A missing echo (R123, R160, R342) of a command or a packet in a block at rest: `T_SEND` whose draw is `NONE`
leaves the block inside `send`, interrupts masked, the line an output, the byte on the wire, no response; and
so does every instruction that sends a frame one of whose draws is `NONE`, with the frame cut short at that
byte and no settle interval begun. `SET_MODE_CONT` sends two frames to broadcast and can stick in either. -/
def Obligations.MissingEchoSticks : Prop :=
  ∀ s : State, s.AtRest →
    (∀ (d0 : Byte) (rest : List Echo), s.ports.echoes = none :: rest →
      exec (.tSend d0) s = .next
        { s with
          link := { s.link with irqEn := false, lineDir := .output }
          ports := { s.ports with wireTx := s.ports.wireTx ++ [d0], echoes := rest } }) ∧
    (∀ (i : Instr) (bytes : List Byte), frameOf s.cfg i = some bytes → refusalOf s.cfg i = none →
      ¬ EchoPresent bytes.length s → exec i s = .next (afterMissing bytes s)) ∧
    (∀ id : Byte, id ≠ 0xFF →
      let named := { s with codec := { s.codec with hostId := id } }
      let first := frame id 0x03 [s.cfg.aCwLimit, 0x00, 0x00]
      let second := frame id 0x03 [s.cfg.aCcwLimit, 0x00, 0x00]
      (¬ EchoPresent 9 s → exec (.setModeCont id) s = .next (afterMissing first named)) ∧
      (id = 0xFE → EchoPresent 9 s → ¬ EchoPresent 18 s →
        exec (.setModeCont id) s = .next (afterMissing second (afterFrame first named))))

/-- A missing echo (R123, R160, R342) of a frame the block sends on its own: the speed frame of a motion, the
load read, the torque-disable frame of both stop paths, and the second frame of `SET_MODE_CONT`. What the
transition writes before its frame is written (R240, R249, R250), the frame is cut short, no settle interval
is begun, and the block is stuck. -/
def Obligations.MissingEchoInController : Prop :=
  ∀ s : State, s.link.Quiet →
    (s.codec.seq = .idle →
      (s.act.motion = .idle → ¬ EchoPresent 9 s → exec .evOpen s =
        .next (afterMissing (frame s.cfg.servoId 0x03 (speedParams s.cfg .opening))
          (motionSet .opening s))) ∧
      (¬ EchoPresent 9 s → exec .evClose s =
        .next (afterMissing (frame s.cfg.servoId 0x03 (speedParams s.cfg .closing))
          (motionSet .closing s))) ∧
      (s.moving → ¬ EchoPresent 8 s →
        exec .evSample s =
          .next (afterMissing (frame s.cfg.servoId 0x02 [s.cfg.aLoad, 0x02]) s) ∧
        exec .evDeadline s = .next (afterMissing (torqueOffFrame s.cfg) (emergencySet s)))) ∧
    (s.codec.seq = .settle → s.codec.settleCnt = 0 → ∀ r : List Byte,
      (s.codec.cont = .sample → s.codec.expN = 8 → s.codec.rdN = 2 → s.moving → usableReply r →
        overReply s.cfg r → s.act.ovlCnt + 1 = s.cfg.validCount → ¬ EchoPresent 8 s →
        exec (.pktStatus r) s = .next (afterMissing (torqueOffFrame s.cfg) (stallSet s))) ∧
      (s.codec.cont = .hostMode2 → s.codec.expN = 6 → s.codec.rdN = 0 → r.length = 6 →
        r.getD 4 0 = 0 → ¬ EchoPresent 9 s →
        exec (.pktStatus r) s = .next (afterMissing
          (frame s.codec.hostId 0x03 [s.cfg.aCcwLimit, 0x00, 0x00])
          { s with codec := { s.codec with seq := .idle } })))

/-- The stuck state (R123, R320): from it only `RESET` leaves. Every other instruction leaves the whole
state as it is, and `RESET` leaves a state that is not stuck. That the whole state stays, the capture queue
and the counters included, and that the state is read off the line being an output, is the model's reading
(log entry 5). -/
def Obligations.StuckUntilReset : Prop :=
  ∀ s : State, s.stuck = true →
    (∀ i : Instr, i ≠ .reset → exec i s = .next s) ∧
    ∃ t, exec .reset s = .next t ∧ t.stuck = false ∧ t.link.Quiet

/-- `T_RXAVAIL` (R130): 0x01 exactly when the capture queue holds a byte; nothing but the response
changes. -/
def Obligations.RxAvailable : Prop :=
  ∀ (s : State) (bs : List Byte), s.AtRest → s.link.Holds s.cfg.rxqDepth bs →
    exec .tRxavail s =
      .next (answered .noWait 0x00 [if bs = [] then 0x00 else 0x01] true false s)

/-- `T_RXBYTE` (R131, R132): the oldest byte of the capture queue, which then holds the others, the read
index one further; from an empty queue no byte and no change but the response. -/
def Obligations.RxByteTakesOldest : Prop :=
  ∀ s : State, s.AtRest →
    (s.link.Holds s.cfg.rxqDepth [] →
      exec .tRxbyte s = .next (answered .noWait 0x00 [] true false s)) ∧
    ∀ (b : Byte) (bs : List Byte), s.link.Holds s.cfg.rxqDepth (b :: bs) →
      ∃ l : Link, l.Holds s.cfg.rxqDepth bs ∧ l.Quiet ∧ l.baud = s.link.baud ∧
        l.rxWr = s.link.rxWr ∧ l.rxRd = (s.link.rxRd + 1) % s.cfg.rxqDepth ∧
        exec .tRxbyte s = .next (answered .noWait 0x00 [b] true false { s with link := l })

/-- `T_REINIT` (R134): a new link at the given rate, its queue empty; the Codec and the Controller are not
touched, nothing is sent. A rate of zero is refused (R98). -/
def Obligations.ReinitRebuilds : Prop :=
  ∀ (s : State) (d0 d1 d2 d3 : Byte), s.AtRest →
    (¬ (d0 = 0 ∧ d1 = 0 ∧ d2 = 0 ∧ d3 = 0) →
      exec (.tReinit d0 d1 d2 d3) s = .next (answered .noWait 0x00 [] true false
        { s with link := {
            baud := d0.toNat + 256 * d1.toNat + 65536 * d2.toNat + 16777216 * d3.toNat
            irqEn := true
            lineDir := .input
            hwRx := []
            rxq := List.replicate s.cfg.rxqDepth 0x100
            rxWr := 0
            rxRd := 0 } })) ∧
    (d0 = 0 → d1 = 0 → d2 = 0 → d3 = 0 →
      exec (.tReinit d0 d1 d2 d3) s = .next (answered .refused 0x05 [] true false s))

/-- `LINE_BYTE` (R121, R127 to R129): the byte goes through the hardware buffer into the next free slot, and
is dropped when none is free; nothing else changes, the read index included. -/
def Obligations.LineByteCaptured : Prop :=
  ∀ (s : State) (bs : List Byte) (b : Byte), s.link.Quiet → s.link.Holds s.cfg.rxqDepth bs →
    ∃ l : Link, l.Quiet ∧ l.baud = s.link.baud ∧ l.rxRd = s.link.rxRd ∧
      l.Holds s.cfg.rxqDepth (if bs.length < s.cfg.rxqDepth then bs ++ [b] else bs) ∧
      (bs.length = s.cfg.rxqDepth → l = s.link) ∧
      exec (.lineByte b) s = .next { s with link := l }

/-- The capture queue is a bounded queue of bytes (R22, R32, R128, R129, R131): whatever arrives on a fresh
link, the collection of `count` bytes gets the first of the bytes that fitted, in their order. -/
def Obligations.CaptureQueueIsFifo : Prop :=
  ∀ (p : Params) (baud count : Nat) (bs : List Byte), p.Valid →
    (((bs.foldl (fun l b => l.arrive p.rxqDepth b) (Link.fresh p baud)).takeBytes
      p.rxqDepth count).1 = (bs.take p.rxqDepth).take count) ∧
    (bs.foldl (fun l b => l.arrive p.rxqDepth b) (Link.fresh p baud)).waiting p.rxqDepth =
      bs.take p.rxqDepth

/-! ## The commands of the Codec -/

/-- `C_WRITE` and `C_REGWRITE` (R159, R160, R168, R169) with operands in range: the frame is sent; a unicast
target begins the settle interval, broadcast responds at once; nothing else changes. -/
def Obligations.WriteCommands : Prop :=
  ∀ (s : State) (id addr n : Byte) (data : List Byte), s.AtRest → s.sup.evq = [] → id ≠ 0xFF →
    1 ≤ n.toNat → n.toNat ≤ s.cfg.maxp → data.length = n.toNat → EchoPresent (data.length + 7) s →
    exec (.cWrite id addr n data) s = .next (hostWritten 0x03 id (addr :: data) s) ∧
    exec (.cRegwrite id addr n data) s = .next (hostWritten 0x04 id (addr :: data) s)

/-- `C_READ` (R159, R170) with operands in range: the read packet is sent and the settle interval begins,
with `6 + n` reply bytes expected. -/
def Obligations.ReadCommand : Prop :=
  ∀ (s : State) (id addr n : Byte), s.AtRest → id ≠ 0xFF → id ≠ 0xFE → 1 ≤ n.toNat →
    n.toNat ≤ s.cfg.maxp → EchoPresent 8 s →
    exec (.cRead id addr n) s = .next (afterWait (frame id 0x02 [addr, n]) n.toNat .host s)

/-- `C_ACTION` (R171): the trigger is sent and the response is at once, whatever the target. -/
def Obligations.ActionCommand : Prop :=
  ∀ (s : State) (id : Byte), s.AtRest → s.sup.evq = [] → id ≠ 0xFF → EchoPresent 6 s →
    exec (.cAction id) s = .next (answered .noWait 0x00 []
      (echoesMatch (frame id 0x04 []) s.ports.echoes) false (afterFrame (frame id 0x04 []) s))

/-- The derived writes (R190 to R195) with operands in range: each is the write of its address and bytes,
to a unicast target or to broadcast. -/
def Obligations.DerivedWrites : Prop :=
  ∀ (s : State) (id : Byte), s.AtRest → s.sup.evq = [] → id ≠ 0xFF →
    (∀ e : Byte, e.toNat ≤ 1 → EchoPresent 8 s →
      exec (.torqueEn id e) s = .next (hostWritten 0x03 id [s.cfg.aTorqueEn, e] s)) ∧
    (∀ d0 d1 : Byte, d1.toNat ≤ 0x07 → EchoPresent 9 s →
      exec (.setSpeed id d0 d1) s = .next (hostWritten 0x03 id [s.cfg.aSpeed, d0, d1] s)) ∧
    (∀ d0 d1 : Byte, d1.toNat ≤ 0x03 → EchoPresent 9 s →
      exec (.setCwLimit id d0 d1) s = .next (hostWritten 0x03 id [s.cfg.aCwLimit, d0, d1] s)) ∧
    (∀ d0 d1 : Byte, d1.toNat ≤ 0x03 → EchoPresent 9 s →
      exec (.setCcwLimit id d0 d1) s = .next (hostWritten 0x03 id [s.cfg.aCcwLimit, d0, d1] s)) ∧
    (∀ newId : Byte, EchoPresent 8 s →
      exec (.setId id newId) s = .next (hostWritten 0x03 id [s.cfg.aId, newId] s)) ∧
    (∀ code : Byte, EchoPresent 8 s →
      exec (.setBaudcode id code) s = .next (hostWritten 0x03 id [s.cfg.aBaud, code] s))

/-- The derived reads (R197 to R199) of a unicast target: each sends the read packet of its address and
count and begins the settle interval. -/
def Obligations.DerivedReads : Prop :=
  ∀ (s : State) (id : Byte), s.AtRest → id ≠ 0xFF → id ≠ 0xFE → EchoPresent 8 s →
    exec (.readLoad id) s =
      .next (afterWait (frame id 0x02 [s.cfg.aLoad, 0x02]) 2 .host s) ∧
    exec (.readTemp id) s =
      .next (afterWait (frame id 0x02 [s.cfg.aTemp, s.cfg.nTemp]) s.cfg.nTemp.toNat .host s) ∧
    exec (.readVolt id) s =
      .next (afterWait (frame id 0x02 [s.cfg.aVolt, s.cfg.nVolt]) s.cfg.nVolt.toNat .host s)

/-- The pseudo-instructions are their expansions (R109). On every state, busy, stuck or refusing included, a
derived command of one primitive with an operand in range does exactly what its primitive does.
`SET_MODE_CONT` is two: when it is refused, or the block is stuck, it does what the first does; accepted for a
unicast target it does what the first does and notes what is to follow, and a reply without error to that
first does what the second does; to broadcast it does what both do, one after the other, without the response
of the first. -/
def Obligations.DerivedAreExpansions : Prop :=
  ∀ (s : State) (id : Byte), s.cfg.Valid →
    (∀ e : Byte, e.toNat ≤ 1 →
      exec (.torqueEn id e) s = exec (.cWrite id s.cfg.aTorqueEn 1 [e]) s) ∧
    (∀ d0 d1 : Byte, d1.toNat ≤ 0x07 →
      exec (.setSpeed id d0 d1) s = exec (.cWrite id s.cfg.aSpeed 2 [d0, d1]) s) ∧
    (∀ d0 d1 : Byte, d1.toNat ≤ 0x03 →
      exec (.setCwLimit id d0 d1) s = exec (.cWrite id s.cfg.aCwLimit 2 [d0, d1]) s) ∧
    (∀ d0 d1 : Byte, d1.toNat ≤ 0x03 →
      exec (.setCcwLimit id d0 d1) s = exec (.cWrite id s.cfg.aCcwLimit 2 [d0, d1]) s) ∧
    (∀ newId : Byte, exec (.setId id newId) s = exec (.cWrite id s.cfg.aId 1 [newId]) s) ∧
    (∀ code : Byte, exec (.setBaudcode id code) s = exec (.cWrite id s.cfg.aBaud 1 [code]) s) ∧
    exec (.readLoad id) s = exec (.cRead id s.cfg.aLoad 2) s ∧
    exec (.readTemp id) s = exec (.cRead id s.cfg.aTemp s.cfg.nTemp) s ∧
    exec (.readVolt id) s = exec (.cRead id s.cfg.aVolt s.cfg.nVolt) s ∧
    (s.stuck = true ∨ s.busy = true ∨ id = 0xFF →
      exec (.setModeCont id) s = exec (.cWrite id s.cfg.aCwLimit 2 [0x00, 0x00]) s) ∧
    (s.stuck = false → s.busy = false → id ≠ 0xFF → id ≠ 0xFE →
      ∃ t, exec (.cWrite id s.cfg.aCwLimit 2 [0x00, 0x00]) s = .next t ∧
        exec (.setModeCont id) s = .next { t with codec := { t.codec with
          hostId := id
          cont := if t.stuck then s.codec.cont else .hostMode2 } }) ∧
    (s.stuck = false → s.codec.seq = .settle → s.codec.settleCnt = 0 → s.codec.cont = .hostMode2 →
      s.codec.expN = 6 → s.act.motion = .idle → s.codec.hostId ≠ 0xFF → s.codec.hostId ≠ 0xFE →
      ∀ r : List Byte, r.length = 6 → r.getD 4 0 = 0 →
        exec (.pktStatus r) s = exec (.cWrite s.codec.hostId s.cfg.aCcwLimit 2 [0x00, 0x00])
          { s with codec := { s.codec with seq := .idle } }) ∧
    (s.stuck = false → s.busy = false → s.sup.evq = [] → id = 0xFE →
      ∃ t, exec (.cWrite id s.cfg.aCwLimit 2 [0x00, 0x00]) s = .next t ∧
        exec (.setModeCont id) s = exec (.cWrite id s.cfg.aCcwLimit 2 [0x00, 0x00])
          { t with
            codec := { t.codec with hostId := id }
            rsp := s.rsp
            ports := { t.ports with rspValid := s.ports.rspValid } })

/-- `SET_MODE_CONT` (R196), its first step: to a unicast target the clockwise limit is written and the
settle interval begins; to broadcast both frames go out in the one step and the one response is at once.
`host_id` is the target. That the response to broadcast carries the echo verdict of the second frame alone is
the model's reading of R159, R160 and R196 (log entry 16). -/
def Obligations.ModeContBegins : Prop :=
  ∀ (s : State) (id : Byte), s.AtRest → s.sup.evq = [] →
    (id ≠ 0xFF → id ≠ 0xFE → EchoPresent 9 s →
      exec (.setModeCont id) s =
        .next (afterWait (frame id 0x03 [s.cfg.aCwLimit, 0x00, 0x00]) 0 .hostMode2
          { s with codec := { s.codec with hostId := id } })) ∧
    (id = 0xFE → EchoPresent 18 s →
      exec (.setModeCont id) s = .next (answered .noWait 0x00 []
        (echoesMatch (frame 0xFE 0x03 [s.cfg.aCcwLimit, 0x00, 0x00]) (s.ports.echoes.drop 9)) false
        (afterFrame (frame 0xFE 0x03 [s.cfg.aCcwLimit, 0x00, 0x00])
          (afterFrame (frame 0xFE 0x03 [s.cfg.aCwLimit, 0x00, 0x00])
            { s with codec := { s.codec with hostId := 0xFE } }))))

/-- The acceptance of a command (R98, R103, R283): in a block at rest, a command that fails a test of R98 is
refused with the reason of the first test it fails, and changes nothing but the response latch. -/
def Obligations.AcceptanceOrder : Prop :=
  ∀ (s : State) (i : Instr) (why : Reason), s.AtRest → refusalOf s.cfg i = some why →
    exec i s = .next (answered .refused why.code [] true false s)

/-- A busy block refuses every host command with `RF_BUSY`, first of all tests (R98 (1), R340), and nothing
but the response latch changes: no motion and no transaction is disturbed. -/
def Obligations.BusyRefusesEveryCommand : Prop :=
  ∀ (s : State) (i : Instr), s.stuck = false → s.codec.seq = .settle ∨ s.act.motion ≠ .idle →
    isCommand i = true → exec i s = .next (answered .refused 0x01 [] true false s)

/-! ## The end of a transaction -/

/-- The reply of a host transaction (R101, R162 to R164, R166), taken at the end of its settle interval: of
full length it is decoded, short it is "no reply"; the sequencer is idle again, the response is written and
nothing else changes; then what is pending is dispatched (with nothing pending `dispatch` changes nothing,
`DispatchTakesEvents`). A longer sequence is cut to the bytes expected. At any other moment no reply is taken
(R161). -/
def Obligations.HostReply : Prop :=
  ∀ (s : State) (r : List Byte), s.link.Quiet →
    (s.codec.seq = .settle → s.codec.settleCnt = 0 →
      (s.codec.cont = .host → s.codec.expN = 6 + s.codec.rdN →
        (r.length = s.codec.expN →
          exec (.pktStatus r) s = .next (dispatch (answered .reply (r.getD 4 0)
            ((r.drop 5).take (min ((r.getD 3 0).toNat - 2) s.codec.rdN)) s.codec.echoOk
            (verdictOf s.codec.expN r)
            { s with codec := { s.codec with seq := .idle } }))) ∧
        (r.length < s.codec.expN →
          exec (.pktStatus r) s = .next (dispatch (answered .noReply 0x00 [] s.codec.echoOk false
            { s with codec := { s.codec with seq := .idle } })))) ∧
      (s.codec.expN ≤ r.length →
        exec (.pktStatus r) s = exec (.pktStatus (r.take s.codec.expN)) s)) ∧
    (s.codec.seq = .idle ∨ 1 ≤ s.codec.settleCnt → exec (.pktStatus r) s = .next s)

/-- `SET_MODE_CONT` (R196), its second step, at the end of the first settle interval: after a reply without
error the counter-clockwise limit is written to the same target, whose result will be the response; an
error byte, with the checksum verdict of R164, or a missing reply is the response, nothing more is sent, and
what is pending is dispatched. -/
def Obligations.ModeContContinues : Prop :=
  ∀ (s : State) (r : List Byte), s.link.Quiet → s.codec.seq = .settle → s.codec.settleCnt = 0 →
    s.codec.cont = .hostMode2 → s.codec.expN = 6 → s.codec.rdN = 0 →
    (r.length = 6 → r.getD 4 0 = 0 → s.codec.hostId ≠ 0xFE → EchoPresent 9 s →
      exec (.pktStatus r) s =
        .next (afterWait (frame s.codec.hostId 0x03 [s.cfg.aCcwLimit, 0x00, 0x00]) 0 .host s)) ∧
    (r.length = 6 → r.getD 4 0 ≠ 0 →
      exec (.pktStatus r) s =
        .next (dispatch (answered .reply (r.getD 4 0) [] s.codec.echoOk (verdictOf 6 r)
          { s with codec := { s.codec with seq := .idle } }))) ∧
    (r.length < 6 →
      exec (.pktStatus r) s = .next (dispatch (answered .noReply 0x00 [] s.codec.echoOk false
        { s with codec := { s.codec with seq := .idle } })))

/-- The continuations of the Controller that examine no result (R242, R246, R252, R286): whatever the reply,
`K_START` starts both timers and clears the overload counter, `K_STOP` does nothing, `K_EMERG` returns to
`Idle` with `emergency` and `ind` as they are; the sequencer is idle again and nothing else changes. Then what
is pending is dispatched (R166, R234), an intent that qualified in the settle interval for one. -/
def Obligations.BlindContinuations : Prop :=
  ∀ (s : State) (r : List Byte), s.link.Quiet → s.codec.seq = .settle → s.codec.settleCnt = 0 →
    (s.codec.cont = .start → exec (.pktStatus r) s = .next (dispatch
      { s with
        codec := { s.codec with seq := .idle }
        act := { s.act with
          ovlCnt := 0
          timersOn := true
          deadlineCnt := s.cfg.timeoutTicks
          sampleCnt := s.cfg.sampleTicks } })) ∧
    (s.codec.cont = .stop →
      exec (.pktStatus r) s =
        .next (dispatch { s with codec := { s.codec with seq := .idle } })) ∧
    (s.codec.cont = .emerg → exec (.pktStatus r) s = .next (dispatch
      { s with
        codec := { s.codec with seq := .idle }
        act := { s.act with motion := .idle } }))

/-- The load sample (R248, R249): a reply that is short, carries an error or has fewer than two valid bytes
changes nothing; a magnitude within the threshold clears the overload counter, one over it counts, and then
what is pending is dispatched; the count that reaches `P_VALID_COUNT` ends the motion: both timers cancelled
with their pending events, the display solid, the torque-disable frame sent. -/
def Obligations.SampleContinues : Prop :=
  ∀ (s : State) (r : List Byte), s.link.Quiet → s.codec.seq = .settle → s.codec.settleCnt = 0 →
    s.codec.cont = .sample → s.codec.expN = 8 → s.codec.rdN = 2 → s.moving →
    1 ≤ s.cfg.validCount →
    let idled := { s with codec := { s.codec with seq := .idle } }
    (r.length ≤ 8 → ¬ usableReply r → exec (.pktStatus r) s = .next (dispatch idled)) ∧
    (usableReply r → ¬ overReply s.cfg r →
      exec (.pktStatus r) s =
        .next (dispatch { idled with act := { s.act with ovlCnt := 0 } })) ∧
    (usableReply r → overReply s.cfg r → s.act.ovlCnt + 1 ≠ s.cfg.validCount →
      exec (.pktStatus r) s =
        .next (dispatch { idled with act := { s.act with ovlCnt := s.act.ovlCnt + 1 } })) ∧
    (usableReply r → overReply s.cfg r → s.act.ovlCnt + 1 = s.cfg.validCount → EchoPresent 8 s →
      exec (.pktStatus r) s =
        .next (afterWait (torqueOffFrame s.cfg) 0 .stop (stallSet s)))

/-- The tie of R283 (3), with the deadline pending when a load read completes: a stall confirmed removes the
deadline and ends the motion without an emergency; every read that confirms none (too short, with an error
byte or too few valid bytes, within the threshold, or over it with the count not reached) is followed by the
emergency in the same step, also when a load read became pending before the deadline (`90_conflicts.md` C8,
log entry 12). A pending close intent is left out here: where it comes before the deadline it begins closing
(R238, log entry 18), and behind it it waits. An open intent between an older load read and the deadline is
taken before both and ignored, which is the model's choice (log entry 18). -/
def Obligations.StallBeatsDeadline : Prop :=
  ∀ (s : State) (r : List Byte), s.link.Quiet → s.codec.seq = .settle → s.codec.settleCnt = 0 →
    s.codec.cont = .sample → s.codec.expN = 8 → s.codec.rdN = 2 → s.moving → 1 ≤ s.cfg.validCount →
    .deadline ∈ s.sup.evq → EchoPresent 8 s → r.length ≤ 8 →
    (usableReply r ∧ overReply s.cfg r ∧ s.act.ovlCnt + 1 = s.cfg.validCount →
      ∃ t, exec (.pktStatus r) s = .next t ∧ t.act.motion = .idle ∧
        t.act.emergency = s.act.emergency ∧ t.act.timersOn = false ∧
        t.sup.evq = s.sup.evq.filter (fun e => e != .sample && e != .deadline) ∧
        t.codec.seq = .settle ∧ t.codec.cont = .stop ∧
        t.ports.wireTx = s.ports.wireTx ++ torqueOffFrame s.cfg) ∧
    (¬ (usableReply r ∧ overReply s.cfg r ∧ s.act.ovlCnt + 1 = s.cfg.validCount) →
      .closeEv ∉ s.sup.evq →
      ∃ t, exec (.pktStatus r) s = .next t ∧ t.act.motion = .emergency ∧
        t.act.emergency = true ∧ t.sup.ind = .faultBlink ∧ t.act.timersOn = false ∧
        .sample ∉ t.sup.evq ∧ .deadline ∉ t.sup.evq ∧
        (usableReply r → overReply s.cfg r → t.act.ovlCnt = s.act.ovlCnt + 1) ∧
        (usableReply r → ¬ overReply s.cfg r → t.act.ovlCnt = 0) ∧
        (¬ usableReply r → t.act.ovlCnt = s.act.ovlCnt) ∧
        t.codec.seq = .settle ∧ t.codec.cont = .emerg ∧
        t.ports.wireTx = s.ports.wireTx ++ torqueOffFrame s.cfg)

/-- The stall law (R248, R264): over any sequence of load results none of which confirms, the overload counter
is the number of over-threshold results that end the usable ones without a break; the motion leaves
`Opening`/`Closing` exactly at a usable result that makes this number `P_VALID_COUNT`, and then both
timers are off. -/
def Obligations.StallCountsConsecutive : Prop :=
  ∀ (s : State) (rs : List Result) (r : Result), s.moving → s.act.ovlCnt = 0 →
    (∀ pre, pre <+: rs → overRun s.cfg pre < s.cfg.validCount) →
    rs.foldl (fun t x => contSample x t) s =
      { s with act := { s.act with ovlCnt := overRun s.cfg rs } } ∧
    ((rs ++ [r]).foldl (fun t x => contSample x t) s).act.motion =
      (if r.usable = true ∧ overRun s.cfg (rs ++ [r]) = s.cfg.validCount then .idle
        else s.act.motion) ∧
    (r.usable = true → overRun s.cfg (rs ++ [r]) = s.cfg.validCount →
      ((rs ++ [r]).foldl (fun t x => contSample x t) s).act.timersOn = false)

/-! ## The tick and the buttons -/

/-- A tick that does not end a settle interval (R161, R224, R230): the timer and button counts move, the
events that became pending are queued in the order deadline, close, open, sample, and then, in an interval,
one tick of it is counted and nothing is dispatched; with no transaction in flight the pending events are
dispatched. -/
def Obligations.TickCounts : Prop :=
  ∀ s : State, s.stuck = false →
    (s.codec.seq = .settle → 2 ≤ s.codec.settleCnt →
      exec .tick s = .next { counted s with
        codec := { s.codec with settleCnt := s.codec.settleCnt - 1 } }) ∧
    (s.codec.seq = .idle → exec .tick s = .next (dispatch (counted s))) ∧
    (s.codec.seq = .idle → s.sup.evq = [] → tickEvents s = [] → exec .tick s = .next (counted s))

/-- The tick that ends a settle interval (R161 to R163, R230 (d)): after the counts, the bytes expected are
taken from the capture queue, as many as it holds, the others stay in it, and the status packet they make
is taken as the reply; then pending events are dispatched. -/
def Obligations.TickTakesReply : Prop :=
  ∀ (s : State) (bs : List Byte), s.stuck = false → s.codec.seq = .settle → s.codec.settleCnt = 1 →
    s.link.Holds s.cfg.rxqDepth bs →
    ∃ (l : Link) (t : State), l.Holds s.cfg.rxqDepth (bs.drop s.codec.expN) ∧
      l.baud = s.link.baud ∧ l.irqEn = s.link.irqEn ∧ l.lineDir = s.link.lineDir ∧
      l.hwRx = s.link.hwRx ∧ l.rxWr = s.link.rxWr ∧
      exec (.pktStatus (bs.take s.codec.expN))
        { counted s with link := l, codec := { s.codec with settleCnt := 0 } } = .next t ∧
      exec .tick s = .next (dispatch t)

/-- The settle interval is exactly its count of ticks (R161): through every tick before the last the
transaction stays in flight with the queue, the response and the wire untouched; in the last the response
of a host transaction is there, a reply when the queue held enough bytes and "no reply" otherwise. -/
def Obligations.SettleIntervalExact : Prop :=
  ∀ (s : State) (bs : List Byte), s.link.Quiet → s.link.Holds s.cfg.rxqDepth bs →
    s.codec.seq = .settle → 1 ≤ s.codec.settleCnt →
    (∀ k, k < s.codec.settleCnt →
      let t := afterEvents (List.replicate k .tick) s
      t.codec.seq = .settle ∧ t.codec.settleCnt = s.codec.settleCnt - k ∧ t.link = s.link ∧
        t.rsp = s.rsp ∧ t.ports = s.ports ∧ t.act.motion = s.act.motion) ∧
    (s.codec.cont = .host →
      let t := afterEvents (List.replicate s.codec.settleCnt .tick) s
      t.ports.rspValid = true ∧
        t.rsp.status = if bs.length < s.codec.expN then .noReply else .reply)

/-- A pressed edge (R222): ignored while the button is held; otherwise the press is noted, and with no hold
threshold its intent is pending at once. Then pending events are dispatched. -/
def Obligations.EdgePressed : Prop :=
  ∀ s : State, s.stuck = false →
    (s.sup.openBtn.held = true → exec .edgeOpenPressed s = .next (dispatch s)) ∧
    (s.sup.closeBtn.held = true → exec .edgeClosePressed s = .next (dispatch s)) ∧
    (s.sup.openBtn.held = false → 1 ≤ s.cfg.holdTicks → exec .edgeOpenPressed s =
      .next (dispatch { s with sup := { s.sup with openBtn := ⟨true, 0, false⟩ } })) ∧
    (s.sup.closeBtn.held = false → 1 ≤ s.cfg.holdTicks → exec .edgeClosePressed s =
      .next (dispatch { s with sup := { s.sup with closeBtn := ⟨true, 0, false⟩ } })) ∧
    (s.sup.openBtn.held = false → s.cfg.holdTicks = 0 → exec .edgeOpenPressed s =
      .next (dispatch { s with sup := { s.sup with
        openBtn := ⟨true, 0, true⟩, evq := enqueued .openEv s.sup.evq } })) ∧
    (s.sup.closeBtn.held = false → s.cfg.holdTicks = 0 → exec .edgeClosePressed s =
      .next (dispatch { s with sup := { s.sup with
        closeBtn := ⟨true, 0, true⟩, evq := enqueued .closeEv s.sup.evq } }))

/-- A released edge (R223): the press is forgotten, and nothing else changes; ignored when the button is not
held. It produces no event and withdraws none. -/
def Obligations.EdgeReleased : Prop :=
  ∀ s : State, s.stuck = false →
    exec .edgeOpenReleased s = .next (if s.sup.openBtn.held then
      { s with sup := { s.sup with openBtn := ⟨false, 0, false⟩ } } else s) ∧
    exec .edgeCloseReleased s = .next (if s.sup.closeBtn.held then
      { s with sup := { s.sup with closeBtn := ⟨false, 0, false⟩ } } else s)

/-- One press produces its intent at the `P_HOLD_TICKS`-th tick and no other (R224, R226): through a run of
`k` ticks from the press the button has counted `min k P_HOLD_TICKS` and has fired exactly when `k` is
at least `P_HOLD_TICKS`; the tick after `k` qualifies the intent exactly when it is the
`P_HOLD_TICKS`-th. -/
def Obligations.HoldQualifiesOnce : Prop :=
  ∀ hold k : Nat, 1 ≤ hold →
    (Button.tick hold)^[k] ⟨true, 0, false⟩ = ⟨true, min k hold, decide (hold ≤ k)⟩ ∧
    (((Button.tick hold)^[k] ⟨true, 0, false⟩).qualifies hold = true ↔ k + 1 = hold)

/-- Both buttons together (R343): intents that qualify in the same tick of a block at rest are queued close
first; closing begins, its frame is sent, and the open intent waits for that transaction. -/
def Obligations.CloseWinsTie : Prop :=
  ∀ s : State, s.AtRest → s.sup.evq = [] → s.act.timersOn = false → EchoPresent 9 s →
    s.sup.closeBtn.held = true → s.sup.closeBtn.fired = false →
    s.cfg.holdTicks ≤ s.sup.closeBtn.cnt + 1 →
    s.sup.openBtn.held = true → s.sup.openBtn.fired = false →
    s.cfg.holdTicks ≤ s.sup.openBtn.cnt + 1 →
    ∃ t, exec .tick s = .next t ∧ t.act.motion = .closing ∧ t.sup.evq = [.openEv] ∧
      t.codec.seq = .settle ∧ t.codec.cont = .start ∧
      t.ports.wireTx = s.ports.wireTx ++ frame s.cfg.servoId 0x03 (speedParams s.cfg .closing)

/-! ## The Controller -/

/-- A motion begins (R235 to R240): `EV_OPEN` in `Idle` begins opening, `EV_CLOSE` in every state begins
closing; both timers are cancelled with their pending events, `emergency` is cleared, the display blinks,
the speed frame is sent and the settle interval begins with `K_START`. `EV_OPEN` in any other state is
ignored. Nothing else changes. -/
def Obligations.MotionBegins : Prop :=
  ∀ s : State, s.link.Quiet → s.codec.seq = .idle →
    (s.act.motion = .idle → EchoPresent 9 s →
      exec .evOpen s = .next (afterWait (frame s.cfg.servoId 0x03 (speedParams s.cfg .opening)) 0 .start
        { timersCancelled s with
          act := { (timersCancelled s).act with motion := .opening, emergency := false }
          sup := { (timersCancelled s).sup with ind := .movingBlink } })) ∧
    (s.act.motion ≠ .idle → exec .evOpen s = .next s) ∧
    (EchoPresent 9 s →
      exec .evClose s = .next (afterWait (frame s.cfg.servoId 0x03 (speedParams s.cfg .closing)) 0 .start
        { timersCancelled s with
          act := { (timersCancelled s).act with motion := .closing, emergency := false }
          sup := { (timersCancelled s).sup with ind := .movingBlink } }))

/-- `EV_SAMPLE` (R244, R254): during a motion the load read is sent and the settle interval begins with
`K_SAMPLE`, and nothing else changes; otherwise the event is ignored. -/
def Obligations.SampleReads : Prop :=
  ∀ s : State, s.link.Quiet → s.codec.seq = .idle →
    (s.moving → EchoPresent 8 s →
      exec .evSample s =
        .next (afterWait (frame s.cfg.servoId 0x02 [s.cfg.aLoad, 0x02]) 2 .sample s)) ∧
    (¬ s.moving → exec .evSample s = .next s)

/-- `EV_DEADLINE` (R250, R254, R285), the entry of the emergency path: during a motion both timers are
cancelled with their pending events, `motion` is `Emergency`, `emergency` is set, the display shows the
fault, the torque-disable frame is sent and the settle interval begins with `K_EMERG`; the overload counter
and all else keep their value. Otherwise the event is ignored. -/
def Obligations.DeadlineEmergency : Prop :=
  ∀ s : State, s.link.Quiet → s.codec.seq = .idle →
    (s.moving → EchoPresent 8 s →
      exec .evDeadline s = .next (afterWait (torqueOffFrame s.cfg) 0 .emerg
        { timersCancelled s with
          act := { (timersCancelled s).act with motion := .emergency, emergency := true }
          sup := { (timersCancelled s).sup with ind := .faultBlink } })) ∧
    (¬ s.moving → exec .evDeadline s = .next s)

/-- While a transaction is in flight a controller event waits in `evq`, once (R228, R234); that the event, as
an instruction of its own, is then queued is the model's reading (log entry 7). -/
def Obligations.EventsWait : Prop :=
  ∀ (s : State) (e : CtrlEv), s.stuck = false → s.codec.seq = .settle →
    exec (evInstr e) s =
      .next { s with sup := { s.sup with evq := enqueued e s.sup.evq } }

/-- `dispatch()` (R234, R235): with no transaction in flight it takes the oldest pending event off the queue,
does what that controller event does, and goes on; with nothing pending, in a settle interval, or stuck,
it does nothing. A load read with the deadline behind it is passed over, so that the deadline is dispatched at
the completion of the transaction in flight, as `90_conflicts.md` C8 has it (the model's reading of R234 and
C8 together, log entry 12). That an intent standing between the two is then taken before both is the model's
choice (log entry 18). -/
def Obligations.DispatchTakesEvents : Prop :=
  ∀ s : State,
    (s.sup.evq = [] ∨ s.codec.seq = .settle ∨ s.stuck = true → dispatch s = s) ∧
    (∀ (e : CtrlEv) (rest : List CtrlEv), s.sup.evq = e :: rest →
      e ≠ .sample ∨ .deadline ∉ rest → s.codec.seq = .idle → s.stuck = false →
      ∃ t, exec (evInstr e) { s with sup := { s.sup with evq := rest } } = .next t ∧
        dispatch s = dispatch t) ∧
    (∀ (e : CtrlEv) (rest : List CtrlEv), s.sup.evq = .sample :: e :: rest → e ≠ .sample →
      .deadline ∈ e :: rest → s.codec.seq = .idle → s.stuck = false →
      ∃ t, exec (evInstr e) { s with sup := { s.sup with evq := .sample :: rest } } = .next t ∧
        dispatch s = dispatch t)

/-- The emergency path is entered by the deadline and by nothing else (R285): an external event that turns
`motion` to `Emergency` is a `TICK`, in a motion whose timers run and whose deadline is reached. -/
def Obligations.EmergencyOnlyByDeadline : Prop :=
  ∀ (s t : State) (i : Instr), s.Inv → (∃ p bs, decode (.ext p) bs = .ok i) → exec i s = .next t →
    s.act.motion ≠ .emergency → t.act.motion = .emergency →
    i = .tick ∧ s.moving ∧ s.act.timersOn = true ∧ s.act.deadlineCnt ≤ 1

/-- A motion ends (R265, R268). From a state that `K_START` leaves, under any sequence of external events but
a pressed close edge and `RESET` whose echoes are all bytes, the motion has ended, with its
torque-disable frame the last bytes sent, by the time `P_TIMEOUT_TICKS + P_SETTLE_TICKS - 1` ticks have
passed. For `P_SETTLE_TICKS > P_SAMPLE_TICKS` this rests on the deadline passing over an older load read
(`90_conflicts.md` C8, log entry 12). -/
def Obligations.MotionBounded : Prop :=
  ∀ (s : State) (es : List Instr), s.Inv → s.stuck = false → s.moving → s.codec.seq = .idle →
    s.act.timersOn = true → s.act.deadlineCnt = s.cfg.timeoutTicks →
    s.act.sampleCnt = s.cfg.sampleTicks → none ∉ s.ports.echoes →
    s.sup.closeBtn.held = false ∨ s.sup.closeBtn.fired = true → (∀ i ∈ es, NoClose i) →
    s.cfg.timeoutTicks + s.cfg.settleTicks - 1 ≤ es.count .tick →
    ∃ pre, pre <+: es ∧ pre.count .tick ≤ s.cfg.timeoutTicks + s.cfg.settleTicks - 1 ∧
      ¬ (afterEvents pre s).moving ∧
      torqueOffFrame s.cfg <:+ (afterEvents pre s).ports.wireTx

/-- The timeout law (R265, `90_conflicts.md` C8), with no close intent and no echo missing: the deadline of a
running motion becomes pending exactly in the tick that counts it to 0; with no transaction in flight the
emergency is entered in that same tick; otherwise it waits through the ticks before the last of the settle
interval, and is entered in the tick that completes the transaction, unless that read confirms a stall. -/
def Obligations.DeadlineDispatched : Prop :=
  ∀ s : State, s.Inv → s.stuck = false → s.moving → s.act.timersOn = true →
    s.sup.closeBtn.held = false ∨ s.sup.closeBtn.fired = true → .closeEv ∉ s.sup.evq →
    none ∉ s.ports.echoes →
    (s.codec.seq = .idle → s.act.deadlineCnt = 1 →
      ∃ t, exec .tick s = .next t ∧ t.act.motion = .emergency ∧ t.act.emergency = true ∧
        t.ports.wireTx = s.ports.wireTx ++ torqueOffFrame s.cfg) ∧
    (s.codec.seq = .settle → 2 ≤ s.codec.settleCnt → s.act.deadlineCnt ≤ 1 →
      ∃ t, exec .tick s = .next t ∧ .deadline ∈ t.sup.evq ∧ t.act.motion = s.act.motion ∧
        t.codec.settleCnt = s.codec.settleCnt - 1 ∧ t.ports.wireTx = s.ports.wireTx) ∧
    (s.codec.seq = .settle → s.codec.settleCnt = 1 → s.act.deadlineCnt ≤ 1 →
      ∃ t, exec .tick s = .next t ∧
        (t.act.motion = .emergency ∧ t.act.emergency = true ∨
          t.act.motion = .idle ∧ t.act.emergency = s.act.emergency ∧
            t.act.ovlCnt = s.cfg.validCount) ∧
        t.codec.seq = .settle ∧
        t.ports.wireTx = s.ports.wireTx ++ torqueOffFrame s.cfg) ∧
    (2 ≤ s.act.deadlineCnt → ∀ t, exec .tick s = .next t →
      t.act.motion ≠ .emergency ∧ .deadline ∉ t.sup.evq)

/-- The codes of the outputs: `motion` and `ind` (R106, R107), `busy` and `emergency` with what they show
(R44), the response status with what each is answered with (R102), the reasons of a refusal with the one
effect of a refusal (R103). -/
def Obligations.OutputCodes : Prop :=
  ∀ s : State,
    (s.motionOut.toNat = (match s.act.motion with
      | .idle => 0 | .opening => 1 | .closing => 2 | .emergency => 3) ∧
    s.indOut.toNat = (match s.sup.ind with
      | .off => 0 | .openSolid => 1 | .closedSolid => 2 | .movingBlink => 3 | .faultBlink => 4) ∧
    s.statusOut.toNat = (match s.rsp.status with
      | .reply => 0 | .noReply => 1 | .noWait => 2 | .refused => 3) ∧
    (s.busyOut = 1 ↔ s.codec.seq ≠ .idle ∨ s.act.motion ≠ .idle) ∧
    (s.emergencyOut = 1 ↔ s.act.emergency = true)) ∧
    (∀ why : Reason, why.code.toNat = (match why with
        | .busy => 0x01 | .opcode => 0x02 | .ident => 0x03 | .len => 0x04 | .operand => 0x05) ∧
      refuse why s = answered .refused why.code [] true false s) ∧
    ∀ r : List Byte, 6 ≤ s.codec.expN →
      (replyResult s.codec r).status = (if s.codec.expN ≤ r.length then .reply else .noReply) ∧
      (replyResult s.codec r).err = (if s.codec.expN ≤ r.length then r.getD 4 0 else 0x00) ∧
      (∀ ok : Bool, (noWaitResult ok).status = .noWait ∧ (noWaitResult ok).err = 0x00 ∧
        (transportResult r ok).status = .noWait ∧ (transportResult r ok).err = 0x00)

/-! ## Reset and the invariants -/

/-- R320: `RESET`, in every state, sets every field of the block to the value of its table; it emits no wire
byte, draws no echo and raises no response. The instance's parameters stay (R322). -/
def Obligations.ResetRestores : Prop :=
  ∀ s : State, exec .reset s = .next
    { cfg := s.cfg
      link := {
        baud := s.cfg.baud
        irqEn := true
        lineDir := .input
        hwRx := []
        rxq := List.replicate s.cfg.rxqDepth 0x100
        rxWr := 0
        rxRd := 0 }
      codec := {
        seq := .idle
        settleCnt := 0
        expN := 0
        rdN := 0
        cont := .host
        txbuf := []
        echoOk := true
        hostId := 0x00 }
      rsp := {
        status := .noWait
        err := 0x00
        n := 0
        data := List.replicate s.cfg.maxp 0x00
        echoOk := true
        chkOk := false }
      act := {
        motion := .idle
        ovlCnt := 0
        timersOn := false
        deadlineCnt := 0
        sampleCnt := 0
        emergency := false }
      sup := {
        evq := []
        ind := .off
        openBtn := ⟨false, 0, false⟩
        closeBtn := ⟨false, 0, false⟩ }
      ports := s.ports }

/-- The invariant holds after reset: on every instance whose parameters meet R9, and of `State.reset`, whose
parameter values are the model's choice (log entry 1). -/
def Obligations.InvAtReset : Prop :=
  (∀ (p : Params) (io : Ports), p.Valid → (State.resetWith p io).Inv) ∧ State.reset.Inv

/-- AN INVARIANT THAT EVERY STEP KEEPS, whatever event is presented and whatever the echoes: the capture
queue is a contiguous run of bytes (R32), every count is in its range (R34, R37, R39, R40, R45), `evq`
holds each kind at most once (R42), the line is quiet between events (R27 to R29), the timers are a pair
(R267), a transaction in flight fits the Controller's state (R33, R34, R286), and an event is pending only
while one is (R234). -/
def Obligations.InvKept : Prop :=
  ∀ s t : State, s.Inv → step s = .next t → t.Inv

/-- R267 over every run: on every instance, from reset, whatever events are presented and whatever the
echoes, every state reached that is not inside a `send` has the timers as a pair. -/
def Obligations.TimerPair : Prop :=
  ∀ (p : Params) (io : Ports) (k : Nat) (t : State), p.Valid →
    Host.Core.run Sys2Proof.core k (State.resetWith p io) = .next t → t.stuck = false →
    (t.act.timersOn = true → t.act.motion = .opening ∨ t.act.motion = .closing) ∧
    (t.act.motion = .opening ∨ t.act.motion = .closing →
      t.act.timersOn = true ∨ (t.codec.seq = .settle ∧ t.codec.cont = .start)) ∧
    (.sample ∈ t.sup.evq ∨ .deadline ∈ t.sup.evq → t.act.timersOn = true) ∧
    (0 < t.act.deadlineCnt ∨ 0 < t.act.sampleCnt → t.act.timersOn = true)

/-- Between events a block that is neither busy nor stuck is at rest with nothing pending (R33, R44, R234): the
premises of the statements about commands are those of every state a run reaches. -/
def Obligations.NotBusyIsAtRest : Prop :=
  ∀ s : State, s.Inv → s.stuck = false → s.busy = false → s.AtRest ∧ s.sup.evq = []

/-- What no instruction changes: the instance's parameters (R9, R20, R46) and the events still to come; and
the baud rate, but for `RESET` and `T_REINIT` (R26). -/
def Obligations.ConfigurationKept : Prop :=
  ∀ (i : Instr) (s t : State), exec i s = .next t →
    t.cfg = s.cfg ∧ t.ports.inbox = s.ports.inbox ∧
    (i ≠ .reset → (∀ d0 d1 d2 d3, i ≠ .tReinit d0 d1 d2 d3) → t.link.baud = s.link.baud)

/-! ## The conversions -/

/-- R210, the round-trip law of the speed word. -/
def Obligations.SpeedRoundTrip : Prop :=
  ∀ v : ℚ, -1 ≤ v → v ≤ 1 →
    |decWord (encSpeed v) - v| < 1 / 1023 ∧ ((encSpeed v).getLsbD 10 = true ↔ v < 0)

/-- The threshold held as an integer (R262): the magnitude of a load word is over `P_TORQUE_THRESH` exactly
when its normalised absolute value is over `P_TORQUE_FRAC`. -/
def Obligations.ThresholdExact : Prop :=
  ∀ (p : Params) (w : Word16), p.Valid →
    (overThreshold p w = true ↔ (p.torqueNum : ℚ) / p.torqueDen < |decWord w|)

/-- Clamping and the angle conversions (R205 to R209): a speed outside [-1, 1] is encoded as the nearer end and
no encoded speed has a bit above the direction bit; an angle is rounded to the nearest of 1023 units,
outside 0 to 300 degrees to the nearer end; a unit is truncated to a whole degree. -/
def Obligations.ConversionsSaturate : Prop :=
  (∀ v : ℚ, 1 ≤ v → encSpeed v = 0x03FF) ∧ (∀ v : ℚ, v ≤ -1 → encSpeed v = 0x07FF) ∧
  (∀ v : ℚ, (encSpeed v).toNat ≤ 0x07FF) ∧
  (∀ d : ℚ, 0 ≤ d → d ≤ 300 → |(degToUnits d : ℚ) - 1023 * d / 300| ≤ 1 / 2) ∧
  (∀ d : ℚ, d ≤ 0 → degToUnits d = 0) ∧ (∀ d : ℚ, 300 ≤ d → degToUnits d = 1023) ∧
  (∀ u : Nat, u ≤ 1023 → (unitsToDeg u : ℚ) ≤ 300 * u / 1023 ∧
    (300 * u / 1023 : ℚ) < unitsToDeg u + 1 ∧ unitsToDeg u ≤ 300)
end

