-- ==== Sys2Proof/Laws/Link.lean ====
section
/-! SUPPORT. The capture queue as a bounded first-in first-out queue: what `capture`, the handler,
`receiveByte`, `takeBytes` and `rebuild` do to the bytes it holds (R128 to R134, R162). -/

namespace Sys2Proof.Machine

/-! ### Slot values -/

/-- A captured byte is never the sentinel (R30). -/
theorem setWidth_ne_empty (b : Byte) : b.setWidth 9 ≠ emptySlot := by
  intro h
  have := congrArg BitVec.toNat h
  have hb := b.isLt
  simp [emptySlot, BitVec.toNat_setWidth] at this
  omega

/-- A captured byte is read back as it was (R131, R132). -/
@[simp] theorem slotByte_setWidth (b : Byte) : slotByte (b.setWidth 9) = b := by
  apply BitVec.eq_of_toNat_eq
  have hb := b.isLt
  simp [slotByte]

/-! ### Positions in the ring -/

theorem ring_eq {depth rd i j : Nat} (hi : i < depth) (hj : j < depth) (hrd : rd < depth)
    (h : (rd + i) % depth = (rd + j) % depth) : i = j := by
  have h1 : (rd + i) % depth = if rd + i < depth then rd + i else rd + i - depth := by
    split
    · exact Nat.mod_eq_of_lt ‹_›
    · rw [Nat.mod_eq_sub_mod (by omega), Nat.mod_eq_of_lt (by omega)]
  have h2 : (rd + j) % depth = if rd + j < depth then rd + j else rd + j - depth := by
    split
    · exact Nat.mod_eq_of_lt ‹_›
    · rw [Nat.mod_eq_sub_mod (by omega), Nat.mod_eq_of_lt (by omega)]
  rw [h1, h2] at h
  split at h <;> split at h <;> omega

theorem nextIndex_ring (depth rd k : Nat) :
    nextIndex depth ((rd + k) % depth) = (rd + (k + 1)) % depth := by
  simp [nextIndex, Nat.add_assoc]

/-! ### What `Holds` says of a slot -/

theorem Link.Holds.pos {depth : Nat} {l : Link} {bs : List Byte} (h : l.Holds depth bs) :
    0 < depth := by
  have := h.rd
  omega

theorem Link.Holds.slot_byte {depth : Nat} {l : Link} {bs : List Byte} (h : l.Holds depth bs)
    {j : Nat} (hj : j < bs.length) :
    l.slot ((l.rxRd + j) % depth) = (bs[j]).setWidth 9 := by
  have hb := h.bound
  simpa [hj] using h.slots j (by omega)

theorem Link.Holds.slot_empty {depth : Nat} {l : Link} {bs : List Byte} (h : l.Holds depth bs)
    {j : Nat} (hj : bs.length ≤ j) (hd : j < depth) :
    l.slot ((l.rxRd + j) % depth) = emptySlot := by
  simpa [hj] using h.slots j hd

/-- The slot `rx_rd` holds the oldest byte, or the sentinel when there is none. -/
theorem Link.Holds.slot_rd {depth : Nat} {l : Link} {bs : List Byte} (h : l.Holds depth bs) :
    l.slot l.rxRd = (bs.head?.map (BitVec.setWidth 9)).getD emptySlot := by
  have := h.slots 0 h.pos
  simpa [Nat.mod_eq_of_lt h.rd, List.head?_eq_getElem?] using this

/-- The slot `rx_wr` is empty unless the queue is full (R129). -/
theorem Link.Holds.slot_wr {depth : Nat} {l : Link} {bs : List Byte} (h : l.Holds depth bs) :
    l.slot l.rxWr = emptySlot ↔ bs.length < depth := by
  constructor
  · intro he
    by_contra hn
    have hb := h.bound
    have hlen : bs.length = depth := by omega
    have hw : l.rxWr = (l.rxRd + 0) % depth := by rw [h.wr, hlen]; simp
    rw [hw, h.slot_byte (by have := h.pos; omega)] at he
    exact setWidth_ne_empty _ he
  · intro hlt
    rw [h.wr]
    exact h.slot_empty (le_refl _) hlt

theorem Link.slot_set_rxq (l : Link) (i j : Nat) (v : Slot) (hi : i < l.rxq.length) (w r : Nat) :
    Link.slot { l with rxq := l.rxq.set i v, rxWr := w, rxRd := r } j =
      if j = i then v else l.slot j := by
  simp only [Link.slot, List.getD_eq_getElem?_getD, List.getElem?_set]
  by_cases h : i = j
  · subst h
    simp [hi]
  · simp [h, Ne.symm h]

/-! ### `capture` -/

/-- The handler stores a byte behind the bytes the queue holds, and drops it when the queue is full
(R128, R129). -/
theorem Link.Holds.capture {depth : Nat} {l : Link} {bs : List Byte} (h : l.Holds depth bs)
    (b : Byte) : (l.capture depth b).Holds depth (if bs.length < depth then bs ++ [b] else bs) := by
  unfold Link.capture
  by_cases hlt : bs.length < depth
  · have hwr := h.slot_wr.2 hlt
    have hwlt : l.rxWr < depth := by rw [h.wr]; exact Nat.mod_lt _ h.pos
    rw [if_pos hwr, if_pos hlt]
    refine ⟨by simpa using h.size, h.rd, ?_, by simpa using hlt, ?_⟩
    · simp only [List.length_append, List.length_singleton]
      rw [h.wr, nextIndex_ring]
    · intro j hj
      have hs := Link.slot_set_rxq l l.rxWr ((l.rxRd + j) % depth) (b.setWidth 9)
        (by rw [h.size]; exact hwlt) (nextIndex depth l.rxWr) l.rxRd
      refine Eq.trans hs ?_
      by_cases hjk : j = bs.length
      · subst hjk
        simp [h.wr]
      · have hne : (l.rxRd + j) % depth ≠ l.rxWr := by
          rw [h.wr]
          intro he
          exact hjk (ring_eq hj hlt h.rd he)
        rw [if_neg hne, h.slots j hj]
        rcases Nat.lt_or_ge j bs.length with hl | hg
        · simp [List.getElem?_append_left hl]
        · have h1 : bs[j]? = none := by simp [hg]
          have h2 : (bs ++ [b])[j]? = none := by simp; omega
          simp [h1, h2]
  · have hwr : ¬ l.slot l.rxWr = emptySlot := fun he => hlt (h.slot_wr.1 he)
    rw [if_neg hwr, if_neg hlt]
    exact h

/-- Capture writes the slots and `rx_wr` alone (R128). -/
theorem Link.capture_frame (depth : Nat) (l : Link) (b : Byte) :
    (l.capture depth b).baud = l.baud ∧ (l.capture depth b).irqEn = l.irqEn ∧
      (l.capture depth b).lineDir = l.lineDir ∧ (l.capture depth b).hwRx = l.hwRx ∧
      (l.capture depth b).rxRd = l.rxRd := by
  unfold Link.capture
  split <;> simp

/-- Draining a buffer writes the slots and `rx_wr` alone (R128). -/
theorem Link.foldl_capture_frame (depth : Nat) (ds : List Byte) (l : Link) :
    (ds.foldl (Link.capture depth) l).baud = l.baud ∧
      (ds.foldl (Link.capture depth) l).irqEn = l.irqEn ∧
      (ds.foldl (Link.capture depth) l).lineDir = l.lineDir ∧
      (ds.foldl (Link.capture depth) l).hwRx = l.hwRx ∧
      (ds.foldl (Link.capture depth) l).rxRd = l.rxRd := by
  induction ds generalizing l with
  | nil => simp
  | cons d ds ih =>
    obtain ⟨h1, h2, h3, h4, h5⟩ := Link.capture_frame depth l d
    simpa [h1, h2, h3, h4, h5] using ih (l.capture depth d)

/-- `Holds` looks at the slots and the two indices alone. -/
theorem Link.Holds.congr {depth : Nat} {l l' : Link} {bs : List Byte} (h : l.Holds depth bs)
    (hq : l'.rxq = l.rxq) (hr : l'.rxRd = l.rxRd) (hw : l'.rxWr = l.rxWr) : l'.Holds depth bs := by
  refine ⟨hq ▸ h.size, hr ▸ h.rd, ?_, h.bound, ?_⟩
  · rw [hr, hw]; exact h.wr
  · intro j hj
    rw [hr]
    simpa [Link.slot, hq] using h.slots j hj

/-- A byte that arrives on a quiet line goes through the hardware buffer into the queue (R121). -/
theorem Link.arrive_eq {l : Link} (hq : l.Quiet) (depth : Nat) (b : Byte) :
    l.arrive depth b = l.capture depth b := by
  obtain ⟨hi, hd, hr⟩ := hq
  cases l
  simp only at hi hd hr
  subst hi hd hr
  simp [Link.arrive, Link.handler]

/-! ### `receiveByte` -/

/-- Reading an empty queue returns the sentinel and changes nothing (R131). -/
theorem Link.Holds.receive_nil {depth : Nat} {l : Link} (h : l.Holds depth []) :
    l.receiveByte depth = (emptySlot, l) := by
  have := h.slot_rd
  simp at this
  simp [Link.receiveByte, this]

/-- Reading a queue returns the oldest byte and leaves the others (R131). -/
theorem Link.Holds.receive_cons {depth : Nat} {l : Link} {b : Byte} {bs : List Byte}
    (h : l.Holds depth (b :: bs)) :
    (l.receiveByte depth).1 = b.setWidth 9 ∧ (l.receiveByte depth).2.Holds depth bs := by
  have hrd := h.slot_rd
  simp only [List.head?_cons, Option.map_some, Option.getD_some] at hrd
  have hne : ¬ l.slot l.rxRd = emptySlot := by rw [hrd]; exact setWidth_ne_empty b
  have hb := h.bound
  simp only [List.length_cons] at hb
  have hw := h.wr
  simp only [List.length_cons] at hw
  refine ⟨by simp [Link.receiveByte, hrd, setWidth_ne_empty], ?_⟩
  simp only [Link.receiveByte, if_neg hne]
  have hpos := h.pos
  refine ⟨by simpa using h.size, Nat.mod_lt _ hpos, ?_, by omega, ?_⟩
  · simp only [nextIndex, hw, Nat.mod_add_mod]
    congr 1
    omega
  · intro j hj
    have hs := Link.slot_set_rxq l l.rxRd ((nextIndex depth l.rxRd + j) % depth) emptySlot
      (by rw [h.size]; exact h.rd) l.rxWr (nextIndex depth l.rxRd)
    refine Eq.trans hs ?_
    have hidx : (nextIndex depth l.rxRd + j) % depth = (l.rxRd + (j + 1)) % depth := by
      simp only [nextIndex, Nat.mod_add_mod]
      congr 1
      omega
    rw [hidx]
    rcases Nat.lt_or_ge (j + 1) depth with hlt | hge
    · have hne' : (l.rxRd + (j + 1)) % depth ≠ l.rxRd := by
        intro he
        have h0 : (l.rxRd + (j + 1)) % depth = (l.rxRd + 0) % depth := by
          rw [he]; simp [Nat.mod_eq_of_lt h.rd]
        have := ring_eq hlt hpos h.rd h0
        omega
      rw [if_neg hne']
      simpa using h.slots (j + 1) hlt
    · have hj1 : j + 1 = depth := by omega
      have h0 : (l.rxRd + (j + 1)) % depth = l.rxRd := by
        rw [hj1]; simp [Nat.mod_eq_of_lt h.rd]
      rw [if_pos h0]
      have : bs[j]? = none := by simp; omega
      simp [this]

/-- `receive_byte` writes `rxq[rx_rd]` and `rx_rd` alone (R131). -/
theorem Link.receiveByte_frame (depth : Nat) (l : Link) :
    (l.receiveByte depth).2.baud = l.baud ∧ (l.receiveByte depth).2.irqEn = l.irqEn ∧
      (l.receiveByte depth).2.lineDir = l.lineDir ∧ (l.receiveByte depth).2.hwRx = l.hwRx ∧
      (l.receiveByte depth).2.rxWr = l.rxWr := by
  unfold Link.receiveByte
  dsimp only
  split <;> simp

/-! ### `takeBytes` -/

/-- The collection takes the bytes the queue holds, at most `count`, and leaves the rest (R162, R163). -/
theorem Link.Holds.takeBytes {depth : Nat} : ∀ (count : Nat) {l : Link} {bs : List Byte},
    l.Holds depth bs → (l.takeBytes depth count).1 = bs.take count ∧
      (l.takeBytes depth count).2.Holds depth (bs.drop count)
  | 0, l, bs, h => by simpa [Link.takeBytes] using h
  | count + 1, l, [], h => by simp [Link.takeBytes, h.receive_nil, h]
  | count + 1, l, b :: bs, h => by
    obtain ⟨h1, h2⟩ := h.receive_cons
    obtain ⟨h3, h4⟩ := Link.Holds.takeBytes count h2
    have hne : ¬ (l.receiveByte depth).1 = emptySlot := by rw [h1]; exact setWidth_ne_empty b
    simp only [Link.takeBytes, if_neg hne, List.take_succ_cons, List.drop_succ_cons]
    exact ⟨by rw [h1, h3, slotByte_setWidth], h4⟩

/-- The collection writes the slots and `rx_rd` alone. -/
theorem Link.takeBytes_frame (depth : Nat) : ∀ (count : Nat) (l : Link),
    (l.takeBytes depth count).2.baud = l.baud ∧ (l.takeBytes depth count).2.irqEn = l.irqEn ∧
      (l.takeBytes depth count).2.lineDir = l.lineDir ∧
      (l.takeBytes depth count).2.hwRx = l.hwRx ∧ (l.takeBytes depth count).2.rxWr = l.rxWr
  | 0, l => by simp [Link.takeBytes]
  | count + 1, l => by
    obtain ⟨h1, h2, h3, h4, h5⟩ := Link.receiveByte_frame depth l
    obtain ⟨g1, g2, g3, g4, g5⟩ := Link.takeBytes_frame depth count (l.receiveByte depth).2
    unfold Link.takeBytes
    split
    · exact ⟨h1, h2, h3, h4, h5⟩
    · exact ⟨g1.trans h1, g2.trans h2, g3.trans h3, g4.trans h4, g5.trans h5⟩

/-! ### `waiting` and `rebuild` -/

theorem map_slots {depth : Nat} {l : Link} {bs : List Byte} (h : l.Holds depth bs) :
    (List.range depth).map (fun j => l.slot ((l.rxRd + j) % depth)) =
      bs.map (BitVec.setWidth 9) ++ List.replicate (depth - bs.length) emptySlot := by
  have hb := h.bound
  apply List.ext_getElem
  · simp; omega
  · intro j h1 h2
    have hj : j < depth := by simpa using h1
    rw [List.getElem_map, List.getElem_range, h.slots j hj]
    rcases Nat.lt_or_ge j bs.length with hl | hg
    · rw [List.getElem_append_left (by simpa using hl)]
      simp [hl]
    · rw [List.getElem_append_right (by simpa using hg)]
      simp [hg]

/-- The bytes waiting are the bytes the queue holds. -/
theorem Link.Holds.waiting {depth : Nat} {l : Link} {bs : List Byte} (h : l.Holds depth bs) :
    l.waiting depth = bs := by
  have hall : ∀ cs : List Byte, ((cs.map (BitVec.setWidth 9) ++
      List.replicate (depth - bs.length) emptySlot).takeWhile
        (fun v => v != emptySlot)).map slotByte = cs := by
    intro cs
    induction cs with
    | nil =>
      cases depth - bs.length with
      | zero => simp
      | succ n => simp [List.replicate_succ]
    | cons c cs ih =>
      have : ((BitVec.setWidth 9 c) != emptySlot) = true := by
        simpa using setWidth_ne_empty c
      simp only [List.map_cons, List.cons_append, List.takeWhile_cons, this, if_true,
        slotByte_setWidth]
      exact congrArg _ ih
  unfold Link.waiting
  rw [map_slots h]
  exact hall bs

/-- A queue of empty slots holds nothing. -/
theorem Link.holds_empty {depth : Nat} {l : Link} (hd : 0 < depth)
    (hq : l.rxq = List.replicate depth emptySlot) (hr : l.rxRd = 0) (hw : l.rxWr = 0) :
    l.Holds depth [] := by
  refine ⟨by simp [hq], by omega, by simp [hr, hw], by simp, ?_⟩
  intro j hj
  simp only [Link.slot, hq, List.getElem?_nil, Option.map_none, Option.getD_none,
    List.getD_eq_getElem?_getD, List.getElem?_replicate]
  split <;> rfl

/-- A link made anew holds nothing (R134, R320). -/
theorem Link.rebuild_holds (depth baud : Nat) (l : Link) (hd : 0 < depth) :
    (l.rebuild depth baud).Holds depth [] :=
  Link.holds_empty hd rfl rfl rfl

end Sys2Proof.Machine
end

