-- ==== Sys2Proof/Laws/State.lean ====
section
/-! SUPPORT. The small lemmas of every state update: one per field it writes, one per group or field it
leaves alone, each true by `rfl`. -/

namespace Sys2Proof.Machine

/-! ### `beginStep` -/

@[simp] theorem beginStep_cfg (s : State) : s.beginStep.cfg = s.cfg := rfl
@[simp] theorem beginStep_link (s : State) : s.beginStep.link = s.link := rfl
@[simp] theorem beginStep_codec (s : State) : s.beginStep.codec = s.codec := rfl
@[simp] theorem beginStep_rsp (s : State) : s.beginStep.rsp = s.rsp := rfl
@[simp] theorem beginStep_act (s : State) : s.beginStep.act = s.act := rfl
@[simp] theorem beginStep_sup (s : State) : s.beginStep.sup = s.sup := rfl
@[simp] theorem beginStep_ports_inbox (s : State) : s.beginStep.ports.inbox = s.ports.inbox := rfl
@[simp] theorem beginStep_ports_echoes (s : State) :
    s.beginStep.ports.echoes = s.ports.echoes := rfl
@[simp] theorem beginStep_ports_wireTx (s : State) : s.beginStep.ports.wireTx = [] := rfl
@[simp] theorem beginStep_ports_rspValid (s : State) : s.beginStep.ports.rspValid = false := rfl

/-! ### `taking` -/

@[simp] theorem taking_cfg (s : State) (rest : List Stim) : (s.taking rest).cfg = s.cfg := rfl
@[simp] theorem taking_link (s : State) (rest : List Stim) : (s.taking rest).link = s.link := rfl
@[simp] theorem taking_codec (s : State) (rest : List Stim) : (s.taking rest).codec = s.codec := rfl
@[simp] theorem taking_rsp (s : State) (rest : List Stim) : (s.taking rest).rsp = s.rsp := rfl
@[simp] theorem taking_act (s : State) (rest : List Stim) : (s.taking rest).act = s.act := rfl
@[simp] theorem taking_sup (s : State) (rest : List Stim) : (s.taking rest).sup = s.sup := rfl
@[simp] theorem taking_ports_inbox (s : State) (rest : List Stim) :
    (s.taking rest).ports.inbox = rest := rfl
@[simp] theorem taking_ports_echoes (s : State) (rest : List Stim) :
    (s.taking rest).ports.echoes = s.ports.echoes := rfl
@[simp] theorem taking_ports_wireTx (s : State) (rest : List Stim) :
    (s.taking rest).ports.wireTx = [] := rfl
@[simp] theorem taking_ports_rspValid (s : State) (rest : List Stim) :
    (s.taking rest).ports.rspValid = false := rfl

/-! ### `onLink` -/

@[simp] theorem onLink_cfg (f : Link → Link) (s : State) : (s.onLink f).cfg = s.cfg := rfl
@[simp] theorem onLink_link (f : Link → Link) (s : State) : (s.onLink f).link = f s.link := rfl
@[simp] theorem onLink_codec (f : Link → Link) (s : State) : (s.onLink f).codec = s.codec := rfl
@[simp] theorem onLink_rsp (f : Link → Link) (s : State) : (s.onLink f).rsp = s.rsp := rfl
@[simp] theorem onLink_act (f : Link → Link) (s : State) : (s.onLink f).act = s.act := rfl
@[simp] theorem onLink_sup (f : Link → Link) (s : State) : (s.onLink f).sup = s.sup := rfl
@[simp] theorem onLink_ports (f : Link → Link) (s : State) : (s.onLink f).ports = s.ports := rfl

/-! ### `sendStart` -/

@[simp] theorem sendStart_cfg (b : Byte) (s : State) : (sendStart b s).cfg = s.cfg := rfl
@[simp] theorem sendStart_link_baud (b : Byte) (s : State) :
    (sendStart b s).link.baud = s.link.baud := rfl
@[simp] theorem sendStart_link_irqEn (b : Byte) (s : State) :
    (sendStart b s).link.irqEn = false := rfl
@[simp] theorem sendStart_link_lineDir (b : Byte) (s : State) :
    (sendStart b s).link.lineDir = .output := rfl
@[simp] theorem sendStart_link_hwRx (b : Byte) (s : State) :
    (sendStart b s).link.hwRx = s.link.hwRx := rfl
@[simp] theorem sendStart_link_rxq (b : Byte) (s : State) :
    (sendStart b s).link.rxq = s.link.rxq := rfl
@[simp] theorem sendStart_link_rxWr (b : Byte) (s : State) :
    (sendStart b s).link.rxWr = s.link.rxWr := rfl
@[simp] theorem sendStart_link_rxRd (b : Byte) (s : State) :
    (sendStart b s).link.rxRd = s.link.rxRd := rfl
@[simp] theorem sendStart_codec (b : Byte) (s : State) : (sendStart b s).codec = s.codec := rfl
@[simp] theorem sendStart_rsp (b : Byte) (s : State) : (sendStart b s).rsp = s.rsp := rfl
@[simp] theorem sendStart_act (b : Byte) (s : State) : (sendStart b s).act = s.act := rfl
@[simp] theorem sendStart_sup (b : Byte) (s : State) : (sendStart b s).sup = s.sup := rfl
@[simp] theorem sendStart_ports_inbox (b : Byte) (s : State) :
    (sendStart b s).ports.inbox = s.ports.inbox := rfl
@[simp] theorem sendStart_ports_echoes (b : Byte) (s : State) :
    (sendStart b s).ports.echoes = (drawEcho b s.ports.echoes).2 := rfl
@[simp] theorem sendStart_ports_wireTx (b : Byte) (s : State) :
    (sendStart b s).ports.wireTx = s.ports.wireTx ++ [b] := rfl
@[simp] theorem sendStart_ports_rspValid (b : Byte) (s : State) :
    (sendStart b s).ports.rspValid = s.ports.rspValid := rfl

/-! ### `sendFinish` -/

@[simp] theorem sendFinish_cfg (e : Byte) (s : State) : (sendFinish e s).cfg = s.cfg := rfl
@[simp] theorem sendFinish_link_baud (e : Byte) (s : State) :
    (sendFinish e s).link.baud = s.link.baud := rfl
@[simp] theorem sendFinish_link_irqEn (e : Byte) (s : State) :
    (sendFinish e s).link.irqEn = true := rfl
@[simp] theorem sendFinish_link_lineDir (e : Byte) (s : State) :
    (sendFinish e s).link.lineDir = .input := rfl
@[simp] theorem sendFinish_link_hwRx (e : Byte) (s : State) :
    (sendFinish e s).link.hwRx = (s.link.hwRx ++ [e]).tail := rfl
@[simp] theorem sendFinish_link_rxq (e : Byte) (s : State) :
    (sendFinish e s).link.rxq = s.link.rxq := rfl
@[simp] theorem sendFinish_link_rxWr (e : Byte) (s : State) :
    (sendFinish e s).link.rxWr = s.link.rxWr := rfl
@[simp] theorem sendFinish_link_rxRd (e : Byte) (s : State) :
    (sendFinish e s).link.rxRd = s.link.rxRd := rfl
@[simp] theorem sendFinish_codec (e : Byte) (s : State) : (sendFinish e s).codec = s.codec := rfl
@[simp] theorem sendFinish_rsp (e : Byte) (s : State) : (sendFinish e s).rsp = s.rsp := rfl
@[simp] theorem sendFinish_act (e : Byte) (s : State) : (sendFinish e s).act = s.act := rfl
@[simp] theorem sendFinish_sup (e : Byte) (s : State) : (sendFinish e s).sup = s.sup := rfl
@[simp] theorem sendFinish_ports (e : Byte) (s : State) : (sendFinish e s).ports = s.ports := rfl

/-! ### `loadFrame` -/

@[simp] theorem loadFrame_cfg (id op : Byte) (ps : List Byte) (s : State) : (loadFrame id op ps s).cfg = s.cfg := rfl
@[simp] theorem loadFrame_link (id op : Byte) (ps : List Byte) (s : State) : (loadFrame id op ps s).link = s.link := rfl
@[simp] theorem loadFrame_codec_seq (id op : Byte) (ps : List Byte) (s : State) :
    (loadFrame id op ps s).codec.seq = s.codec.seq := rfl
@[simp] theorem loadFrame_codec_settleCnt (id op : Byte) (ps : List Byte) (s : State) :
    (loadFrame id op ps s).codec.settleCnt = s.codec.settleCnt := rfl
@[simp] theorem loadFrame_codec_expN (id op : Byte) (ps : List Byte) (s : State) :
    (loadFrame id op ps s).codec.expN = s.codec.expN := rfl
@[simp] theorem loadFrame_codec_rdN (id op : Byte) (ps : List Byte) (s : State) :
    (loadFrame id op ps s).codec.rdN = s.codec.rdN := rfl
@[simp] theorem loadFrame_codec_cont (id op : Byte) (ps : List Byte) (s : State) :
    (loadFrame id op ps s).codec.cont = s.codec.cont := rfl
@[simp] theorem loadFrame_codec_txbuf (id op : Byte) (ps : List Byte) (s : State) :
    (loadFrame id op ps s).codec.txbuf = frame id op ps := rfl
@[simp] theorem loadFrame_codec_echoOk (id op : Byte) (ps : List Byte) (s : State) :
    (loadFrame id op ps s).codec.echoOk = true := rfl
@[simp] theorem loadFrame_codec_hostId (id op : Byte) (ps : List Byte) (s : State) :
    (loadFrame id op ps s).codec.hostId = s.codec.hostId := rfl
@[simp] theorem loadFrame_rsp (id op : Byte) (ps : List Byte) (s : State) : (loadFrame id op ps s).rsp = s.rsp := rfl
@[simp] theorem loadFrame_act (id op : Byte) (ps : List Byte) (s : State) : (loadFrame id op ps s).act = s.act := rfl
@[simp] theorem loadFrame_sup (id op : Byte) (ps : List Byte) (s : State) : (loadFrame id op ps s).sup = s.sup := rfl
@[simp] theorem loadFrame_ports (id op : Byte) (ps : List Byte) (s : State) : (loadFrame id op ps s).ports = s.ports := rfl

/-! ### `respond` -/

@[simp] theorem respond_cfg (r : Result) (s : State) : (respond r s).cfg = s.cfg := rfl
@[simp] theorem respond_link (r : Result) (s : State) : (respond r s).link = s.link := rfl
@[simp] theorem respond_codec (r : Result) (s : State) : (respond r s).codec = s.codec := rfl
@[simp] theorem respond_rsp_status (r : Result) (s : State) :
    (respond r s).rsp.status = r.status := rfl
@[simp] theorem respond_rsp_err (r : Result) (s : State) : (respond r s).rsp.err = r.err := rfl
@[simp] theorem respond_rsp_n (r : Result) (s : State) : (respond r s).rsp.n = r.n := rfl
@[simp] theorem respond_rsp_data (r : Result) (s : State) :
    (respond r s).rsp.data = padData s.cfg.maxp r.data := rfl
@[simp] theorem respond_rsp_echoOk (r : Result) (s : State) :
    (respond r s).rsp.echoOk = r.echoOk := rfl
@[simp] theorem respond_rsp_chkOk (r : Result) (s : State) :
    (respond r s).rsp.chkOk = r.chkOk := rfl
@[simp] theorem respond_act (r : Result) (s : State) : (respond r s).act = s.act := rfl
@[simp] theorem respond_sup (r : Result) (s : State) : (respond r s).sup = s.sup := rfl
@[simp] theorem respond_ports_inbox (r : Result) (s : State) :
    (respond r s).ports.inbox = s.ports.inbox := rfl
@[simp] theorem respond_ports_echoes (r : Result) (s : State) :
    (respond r s).ports.echoes = s.ports.echoes := rfl
@[simp] theorem respond_ports_wireTx (r : Result) (s : State) :
    (respond r s).ports.wireTx = s.ports.wireTx := rfl
@[simp] theorem respond_ports_rspValid (r : Result) (s : State) :
    (respond r s).ports.rspValid = true := rfl

/-! ### `enqueue` -/

@[simp] theorem enqueue_cfg (e : CtrlEv) (s : State) : (enqueue e s).cfg = s.cfg := rfl
@[simp] theorem enqueue_link (e : CtrlEv) (s : State) : (enqueue e s).link = s.link := rfl
@[simp] theorem enqueue_codec (e : CtrlEv) (s : State) : (enqueue e s).codec = s.codec := rfl
@[simp] theorem enqueue_rsp (e : CtrlEv) (s : State) : (enqueue e s).rsp = s.rsp := rfl
@[simp] theorem enqueue_act (e : CtrlEv) (s : State) : (enqueue e s).act = s.act := rfl
@[simp] theorem enqueue_sup_evq (e : CtrlEv) (s : State) :
    (enqueue e s).sup.evq = if e ∈ s.sup.evq then s.sup.evq else s.sup.evq ++ [e] := rfl
@[simp] theorem enqueue_sup_ind (e : CtrlEv) (s : State) : (enqueue e s).sup.ind = s.sup.ind := rfl
@[simp] theorem enqueue_sup_openBtn (e : CtrlEv) (s : State) :
    (enqueue e s).sup.openBtn = s.sup.openBtn := rfl
@[simp] theorem enqueue_sup_closeBtn (e : CtrlEv) (s : State) :
    (enqueue e s).sup.closeBtn = s.sup.closeBtn := rfl
@[simp] theorem enqueue_ports (e : CtrlEv) (s : State) : (enqueue e s).ports = s.ports := rfl

/-! ### `startTimers` -/

@[simp] theorem startTimers_cfg (s : State) : (startTimers s).cfg = s.cfg := rfl
@[simp] theorem startTimers_link (s : State) : (startTimers s).link = s.link := rfl
@[simp] theorem startTimers_codec (s : State) : (startTimers s).codec = s.codec := rfl
@[simp] theorem startTimers_rsp (s : State) : (startTimers s).rsp = s.rsp := rfl
@[simp] theorem startTimers_act_motion (s : State) :
    (startTimers s).act.motion = s.act.motion := rfl
@[simp] theorem startTimers_act_ovlCnt (s : State) :
    (startTimers s).act.ovlCnt = s.act.ovlCnt := rfl
@[simp] theorem startTimers_act_timersOn (s : State) : (startTimers s).act.timersOn = true := rfl
@[simp] theorem startTimers_act_deadlineCnt (s : State) :
    (startTimers s).act.deadlineCnt = s.cfg.timeoutTicks := rfl
@[simp] theorem startTimers_act_sampleCnt (s : State) :
    (startTimers s).act.sampleCnt = s.cfg.sampleTicks := rfl
@[simp] theorem startTimers_act_emergency (s : State) :
    (startTimers s).act.emergency = s.act.emergency := rfl
@[simp] theorem startTimers_sup (s : State) : (startTimers s).sup = s.sup := rfl
@[simp] theorem startTimers_ports (s : State) : (startTimers s).ports = s.ports := rfl

/-! ### `cancelTimers` -/

@[simp] theorem cancelTimers_cfg (s : State) : (cancelTimers s).cfg = s.cfg := rfl
@[simp] theorem cancelTimers_link (s : State) : (cancelTimers s).link = s.link := rfl
@[simp] theorem cancelTimers_codec (s : State) : (cancelTimers s).codec = s.codec := rfl
@[simp] theorem cancelTimers_rsp (s : State) : (cancelTimers s).rsp = s.rsp := rfl
@[simp] theorem cancelTimers_act_motion (s : State) :
    (cancelTimers s).act.motion = s.act.motion := rfl
@[simp] theorem cancelTimers_act_ovlCnt (s : State) :
    (cancelTimers s).act.ovlCnt = s.act.ovlCnt := rfl
@[simp] theorem cancelTimers_act_timersOn (s : State) : (cancelTimers s).act.timersOn = false := rfl
@[simp] theorem cancelTimers_act_deadlineCnt (s : State) :
    (cancelTimers s).act.deadlineCnt = 0 := rfl
@[simp] theorem cancelTimers_act_sampleCnt (s : State) : (cancelTimers s).act.sampleCnt = 0 := rfl
@[simp] theorem cancelTimers_act_emergency (s : State) :
    (cancelTimers s).act.emergency = s.act.emergency := rfl
@[simp] theorem cancelTimers_sup_evq (s : State) :
    (cancelTimers s).sup.evq = s.sup.evq.filter (fun e => !isTimerEvent e) := rfl
@[simp] theorem cancelTimers_sup_ind (s : State) : (cancelTimers s).sup.ind = s.sup.ind := rfl
@[simp] theorem cancelTimers_sup_openBtn (s : State) :
    (cancelTimers s).sup.openBtn = s.sup.openBtn := rfl
@[simp] theorem cancelTimers_sup_closeBtn (s : State) :
    (cancelTimers s).sup.closeBtn = s.sup.closeBtn := rfl
@[simp] theorem cancelTimers_ports (s : State) : (cancelTimers s).ports = s.ports := rfl

/-! ### `settleFor` -/

@[simp] theorem settleFor_cfg (rn : Nat) (k : Cont) (s : State) : (settleFor rn k s).cfg = s.cfg := rfl
@[simp] theorem settleFor_link (rn : Nat) (k : Cont) (s : State) : (settleFor rn k s).link = s.link := rfl
@[simp] theorem settleFor_codec_seq (rn : Nat) (k : Cont) (s : State) :
    (settleFor rn k s).codec.seq = .settle := rfl
@[simp] theorem settleFor_codec_settleCnt (rn : Nat) (k : Cont) (s : State) :
    (settleFor rn k s).codec.settleCnt = s.cfg.settleTicks := rfl
@[simp] theorem settleFor_codec_expN (rn : Nat) (k : Cont) (s : State) :
    (settleFor rn k s).codec.expN = 6 + rn := rfl
@[simp] theorem settleFor_codec_rdN (rn : Nat) (k : Cont) (s : State) :
    (settleFor rn k s).codec.rdN = rn := rfl
@[simp] theorem settleFor_codec_cont (rn : Nat) (k : Cont) (s : State) :
    (settleFor rn k s).codec.cont = k := rfl
@[simp] theorem settleFor_codec_txbuf (rn : Nat) (k : Cont) (s : State) :
    (settleFor rn k s).codec.txbuf = s.codec.txbuf := rfl
@[simp] theorem settleFor_codec_echoOk (rn : Nat) (k : Cont) (s : State) :
    (settleFor rn k s).codec.echoOk = s.codec.echoOk := rfl
@[simp] theorem settleFor_codec_hostId (rn : Nat) (k : Cont) (s : State) :
    (settleFor rn k s).codec.hostId = s.codec.hostId := rfl
@[simp] theorem settleFor_rsp (rn : Nat) (k : Cont) (s : State) : (settleFor rn k s).rsp = s.rsp := rfl
@[simp] theorem settleFor_act (rn : Nat) (k : Cont) (s : State) : (settleFor rn k s).act = s.act := rfl
@[simp] theorem settleFor_sup (rn : Nat) (k : Cont) (s : State) : (settleFor rn k s).sup = s.sup := rfl
@[simp] theorem settleFor_ports (rn : Nat) (k : Cont) (s : State) : (settleFor rn k s).ports = s.ports := rfl

/-! ### `setMotion` -/

@[simp] theorem setMotion_cfg (m : Motion) (s : State) : (setMotion m s).cfg = s.cfg := rfl
@[simp] theorem setMotion_link (m : Motion) (s : State) : (setMotion m s).link = s.link := rfl
@[simp] theorem setMotion_codec (m : Motion) (s : State) : (setMotion m s).codec = s.codec := rfl
@[simp] theorem setMotion_rsp (m : Motion) (s : State) : (setMotion m s).rsp = s.rsp := rfl
@[simp] theorem setMotion_act_motion (m : Motion) (s : State) :
    (setMotion m s).act.motion = m := rfl
@[simp] theorem setMotion_act_ovlCnt (m : Motion) (s : State) :
    (setMotion m s).act.ovlCnt = s.act.ovlCnt := rfl
@[simp] theorem setMotion_act_timersOn (m : Motion) (s : State) :
    (setMotion m s).act.timersOn = s.act.timersOn := rfl
@[simp] theorem setMotion_act_deadlineCnt (m : Motion) (s : State) :
    (setMotion m s).act.deadlineCnt = s.act.deadlineCnt := rfl
@[simp] theorem setMotion_act_sampleCnt (m : Motion) (s : State) :
    (setMotion m s).act.sampleCnt = s.act.sampleCnt := rfl
@[simp] theorem setMotion_act_emergency (m : Motion) (s : State) :
    (setMotion m s).act.emergency = false := rfl
@[simp] theorem setMotion_sup_evq (m : Motion) (s : State) :
    (setMotion m s).sup.evq = s.sup.evq := rfl
@[simp] theorem setMotion_sup_ind (m : Motion) (s : State) :
    (setMotion m s).sup.ind = .movingBlink := rfl
@[simp] theorem setMotion_sup_openBtn (m : Motion) (s : State) :
    (setMotion m s).sup.openBtn = s.sup.openBtn := rfl
@[simp] theorem setMotion_sup_closeBtn (m : Motion) (s : State) :
    (setMotion m s).sup.closeBtn = s.sup.closeBtn := rfl
@[simp] theorem setMotion_ports (m : Motion) (s : State) : (setMotion m s).ports = s.ports := rfl

/-! ### `setEmergency` -/

@[simp] theorem setEmergency_cfg (s : State) : (setEmergency s).cfg = s.cfg := rfl
@[simp] theorem setEmergency_link (s : State) : (setEmergency s).link = s.link := rfl
@[simp] theorem setEmergency_codec (s : State) : (setEmergency s).codec = s.codec := rfl
@[simp] theorem setEmergency_rsp (s : State) : (setEmergency s).rsp = s.rsp := rfl
@[simp] theorem setEmergency_act_motion (s : State) :
    (setEmergency s).act.motion = .emergency := rfl
@[simp] theorem setEmergency_act_ovlCnt (s : State) :
    (setEmergency s).act.ovlCnt = s.act.ovlCnt := rfl
@[simp] theorem setEmergency_act_timersOn (s : State) :
    (setEmergency s).act.timersOn = s.act.timersOn := rfl
@[simp] theorem setEmergency_act_deadlineCnt (s : State) :
    (setEmergency s).act.deadlineCnt = s.act.deadlineCnt := rfl
@[simp] theorem setEmergency_act_sampleCnt (s : State) :
    (setEmergency s).act.sampleCnt = s.act.sampleCnt := rfl
@[simp] theorem setEmergency_act_emergency (s : State) :
    (setEmergency s).act.emergency = true := rfl
@[simp] theorem setEmergency_sup_evq (s : State) : (setEmergency s).sup.evq = s.sup.evq := rfl
@[simp] theorem setEmergency_sup_ind (s : State) : (setEmergency s).sup.ind = .faultBlink := rfl
@[simp] theorem setEmergency_sup_openBtn (s : State) :
    (setEmergency s).sup.openBtn = s.sup.openBtn := rfl
@[simp] theorem setEmergency_sup_closeBtn (s : State) :
    (setEmergency s).sup.closeBtn = s.sup.closeBtn := rfl
@[simp] theorem setEmergency_ports (s : State) : (setEmergency s).ports = s.ports := rfl

/-! ### `leaveEmergency` -/

@[simp] theorem leaveEmergency_cfg (s : State) : (leaveEmergency s).cfg = s.cfg := rfl
@[simp] theorem leaveEmergency_link (s : State) : (leaveEmergency s).link = s.link := rfl
@[simp] theorem leaveEmergency_codec (s : State) : (leaveEmergency s).codec = s.codec := rfl
@[simp] theorem leaveEmergency_rsp (s : State) : (leaveEmergency s).rsp = s.rsp := rfl
@[simp] theorem leaveEmergency_act_motion (s : State) : (leaveEmergency s).act.motion = .idle := rfl
@[simp] theorem leaveEmergency_act_ovlCnt (s : State) :
    (leaveEmergency s).act.ovlCnt = s.act.ovlCnt := rfl
@[simp] theorem leaveEmergency_act_timersOn (s : State) :
    (leaveEmergency s).act.timersOn = s.act.timersOn := rfl
@[simp] theorem leaveEmergency_act_deadlineCnt (s : State) :
    (leaveEmergency s).act.deadlineCnt = s.act.deadlineCnt := rfl
@[simp] theorem leaveEmergency_act_sampleCnt (s : State) :
    (leaveEmergency s).act.sampleCnt = s.act.sampleCnt := rfl
@[simp] theorem leaveEmergency_act_emergency (s : State) :
    (leaveEmergency s).act.emergency = s.act.emergency := rfl
@[simp] theorem leaveEmergency_sup (s : State) : (leaveEmergency s).sup = s.sup := rfl
@[simp] theorem leaveEmergency_ports (s : State) : (leaveEmergency s).ports = s.ports := rfl

/-! ### `dropEvent` -/

@[simp] theorem dropEvent_cfg (e : CtrlEv) (s : State) : (dropEvent e s).cfg = s.cfg := rfl
@[simp] theorem dropEvent_link (e : CtrlEv) (s : State) : (dropEvent e s).link = s.link := rfl
@[simp] theorem dropEvent_codec (e : CtrlEv) (s : State) : (dropEvent e s).codec = s.codec := rfl
@[simp] theorem dropEvent_rsp (e : CtrlEv) (s : State) : (dropEvent e s).rsp = s.rsp := rfl
@[simp] theorem dropEvent_act (e : CtrlEv) (s : State) : (dropEvent e s).act = s.act := rfl
@[simp] theorem dropEvent_sup_evq (e : CtrlEv) (s : State) :
    (dropEvent e s).sup.evq = s.sup.evq.erase e := rfl
@[simp] theorem dropEvent_sup_ind (e : CtrlEv) (s : State) :
    (dropEvent e s).sup.ind = s.sup.ind := rfl
@[simp] theorem dropEvent_sup_openBtn (e : CtrlEv) (s : State) :
    (dropEvent e s).sup.openBtn = s.sup.openBtn := rfl
@[simp] theorem dropEvent_sup_closeBtn (e : CtrlEv) (s : State) :
    (dropEvent e s).sup.closeBtn = s.sup.closeBtn := rfl
@[simp] theorem dropEvent_ports (e : CtrlEv) (s : State) : (dropEvent e s).ports = s.ports := rfl

/-! ### `contStart` -/

@[simp] theorem contStart_cfg (s : State) : (contStart s).cfg = s.cfg := rfl
@[simp] theorem contStart_link (s : State) : (contStart s).link = s.link := rfl
@[simp] theorem contStart_codec (s : State) : (contStart s).codec = s.codec := rfl
@[simp] theorem contStart_rsp (s : State) : (contStart s).rsp = s.rsp := rfl
@[simp] theorem contStart_act_motion (s : State) : (contStart s).act.motion = s.act.motion := rfl
@[simp] theorem contStart_act_ovlCnt (s : State) : (contStart s).act.ovlCnt = 0 := rfl
@[simp] theorem contStart_act_timersOn (s : State) : (contStart s).act.timersOn = true := rfl
@[simp] theorem contStart_act_deadlineCnt (s : State) :
    (contStart s).act.deadlineCnt = s.cfg.timeoutTicks := rfl
@[simp] theorem contStart_act_sampleCnt (s : State) :
    (contStart s).act.sampleCnt = s.cfg.sampleTicks := rfl
@[simp] theorem contStart_act_emergency (s : State) :
    (contStart s).act.emergency = s.act.emergency := rfl
@[simp] theorem contStart_sup (s : State) : (contStart s).sup = s.sup := rfl
@[simp] theorem contStart_ports (s : State) : (contStart s).ports = s.ports := rfl

/-! ### `setStalled` -/

@[simp] theorem setStalled_cfg (s : State) : (setStalled s).cfg = s.cfg := rfl
@[simp] theorem setStalled_link (s : State) : (setStalled s).link = s.link := rfl
@[simp] theorem setStalled_codec (s : State) : (setStalled s).codec = s.codec := rfl
@[simp] theorem setStalled_rsp (s : State) : (setStalled s).rsp = s.rsp := rfl
@[simp] theorem setStalled_act_motion (s : State) : (setStalled s).act.motion = .idle := rfl
@[simp] theorem setStalled_act_ovlCnt (s : State) : (setStalled s).act.ovlCnt = s.act.ovlCnt := rfl
@[simp] theorem setStalled_act_timersOn (s : State) :
    (setStalled s).act.timersOn = s.act.timersOn := rfl
@[simp] theorem setStalled_act_deadlineCnt (s : State) :
    (setStalled s).act.deadlineCnt = s.act.deadlineCnt := rfl
@[simp] theorem setStalled_act_sampleCnt (s : State) :
    (setStalled s).act.sampleCnt = s.act.sampleCnt := rfl
@[simp] theorem setStalled_act_emergency (s : State) :
    (setStalled s).act.emergency = s.act.emergency := rfl
@[simp] theorem setStalled_sup_evq (s : State) : (setStalled s).sup.evq = s.sup.evq := rfl
@[simp] theorem setStalled_sup_ind (s : State) :
    (setStalled s).sup.ind = stallIndicator s.act.motion := rfl
@[simp] theorem setStalled_sup_openBtn (s : State) :
    (setStalled s).sup.openBtn = s.sup.openBtn := rfl
@[simp] theorem setStalled_sup_closeBtn (s : State) :
    (setStalled s).sup.closeBtn = s.sup.closeBtn := rfl
@[simp] theorem setStalled_ports (s : State) : (setStalled s).ports = s.ports := rfl

/-! ### `countHit` -/

@[simp] theorem countHit_cfg (hit : Bool) (s : State) : (countHit hit s).cfg = s.cfg := rfl
@[simp] theorem countHit_link (hit : Bool) (s : State) : (countHit hit s).link = s.link := rfl
@[simp] theorem countHit_codec (hit : Bool) (s : State) : (countHit hit s).codec = s.codec := rfl
@[simp] theorem countHit_rsp (hit : Bool) (s : State) : (countHit hit s).rsp = s.rsp := rfl
@[simp] theorem countHit_act_motion (hit : Bool) (s : State) :
    (countHit hit s).act.motion = s.act.motion := rfl
@[simp] theorem countHit_act_ovlCnt (hit : Bool) (s : State) :
    (countHit hit s).act.ovlCnt = if hit then s.act.ovlCnt + 1 else 0 := rfl
@[simp] theorem countHit_act_timersOn (hit : Bool) (s : State) :
    (countHit hit s).act.timersOn = s.act.timersOn := rfl
@[simp] theorem countHit_act_deadlineCnt (hit : Bool) (s : State) :
    (countHit hit s).act.deadlineCnt = s.act.deadlineCnt := rfl
@[simp] theorem countHit_act_sampleCnt (hit : Bool) (s : State) :
    (countHit hit s).act.sampleCnt = s.act.sampleCnt := rfl
@[simp] theorem countHit_act_emergency (hit : Bool) (s : State) :
    (countHit hit s).act.emergency = s.act.emergency := rfl
@[simp] theorem countHit_sup (hit : Bool) (s : State) : (countHit hit s).sup = s.sup := rfl
@[simp] theorem countHit_ports (hit : Bool) (s : State) : (countHit hit s).ports = s.ports := rfl

/-! ### `countSettle` -/

@[simp] theorem countSettle_cfg (s : State) : (countSettle s).cfg = s.cfg := rfl
@[simp] theorem countSettle_link (s : State) : (countSettle s).link = s.link := rfl
@[simp] theorem countSettle_codec_seq (s : State) : (countSettle s).codec.seq = s.codec.seq := rfl
@[simp] theorem countSettle_codec_settleCnt (s : State) :
    (countSettle s).codec.settleCnt = s.codec.settleCnt - 1 := rfl
@[simp] theorem countSettle_codec_expN (s : State) :
    (countSettle s).codec.expN = s.codec.expN := rfl
@[simp] theorem countSettle_codec_rdN (s : State) : (countSettle s).codec.rdN = s.codec.rdN := rfl
@[simp] theorem countSettle_codec_cont (s : State) :
    (countSettle s).codec.cont = s.codec.cont := rfl
@[simp] theorem countSettle_codec_txbuf (s : State) :
    (countSettle s).codec.txbuf = s.codec.txbuf := rfl
@[simp] theorem countSettle_codec_echoOk (s : State) :
    (countSettle s).codec.echoOk = s.codec.echoOk := rfl
@[simp] theorem countSettle_codec_hostId (s : State) :
    (countSettle s).codec.hostId = s.codec.hostId := rfl
@[simp] theorem countSettle_rsp (s : State) : (countSettle s).rsp = s.rsp := rfl
@[simp] theorem countSettle_act (s : State) : (countSettle s).act = s.act := rfl
@[simp] theorem countSettle_sup (s : State) : (countSettle s).sup = s.sup := rfl
@[simp] theorem countSettle_ports (s : State) : (countSettle s).ports = s.ports := rfl

/-! ### `countDeadline` -/

@[simp] theorem countDeadline_cfg (s : State) : (countDeadline s).cfg = s.cfg := rfl
@[simp] theorem countDeadline_link (s : State) : (countDeadline s).link = s.link := rfl
@[simp] theorem countDeadline_codec (s : State) : (countDeadline s).codec = s.codec := rfl
@[simp] theorem countDeadline_rsp (s : State) : (countDeadline s).rsp = s.rsp := rfl
@[simp] theorem countDeadline_act_motion (s : State) :
    (countDeadline s).act.motion = s.act.motion := rfl
@[simp] theorem countDeadline_act_ovlCnt (s : State) :
    (countDeadline s).act.ovlCnt = s.act.ovlCnt := rfl
@[simp] theorem countDeadline_act_timersOn (s : State) :
    (countDeadline s).act.timersOn = s.act.timersOn := rfl
@[simp] theorem countDeadline_act_deadlineCnt (s : State) :
    (countDeadline s).act.deadlineCnt = s.act.deadlineCnt - 1 := rfl
@[simp] theorem countDeadline_act_sampleCnt (s : State) :
    (countDeadline s).act.sampleCnt = s.act.sampleCnt := rfl
@[simp] theorem countDeadline_act_emergency (s : State) :
    (countDeadline s).act.emergency = s.act.emergency := rfl
@[simp] theorem countDeadline_sup (s : State) : (countDeadline s).sup = s.sup := rfl
@[simp] theorem countDeadline_ports (s : State) : (countDeadline s).ports = s.ports := rfl

/-! ### `countSample` -/

@[simp] theorem countSample_cfg (s : State) : (countSample s).cfg = s.cfg := rfl
@[simp] theorem countSample_link (s : State) : (countSample s).link = s.link := rfl
@[simp] theorem countSample_codec (s : State) : (countSample s).codec = s.codec := rfl
@[simp] theorem countSample_rsp (s : State) : (countSample s).rsp = s.rsp := rfl
@[simp] theorem countSample_act_motion (s : State) :
    (countSample s).act.motion = s.act.motion := rfl
@[simp] theorem countSample_act_ovlCnt (s : State) :
    (countSample s).act.ovlCnt = s.act.ovlCnt := rfl
@[simp] theorem countSample_act_timersOn (s : State) :
    (countSample s).act.timersOn = s.act.timersOn := rfl
@[simp] theorem countSample_act_deadlineCnt (s : State) :
    (countSample s).act.deadlineCnt = s.act.deadlineCnt := rfl
@[simp] theorem countSample_act_sampleCnt (s : State) :
    (countSample s).act.sampleCnt = if s.act.sampleCnt - 1 = 0 then s.cfg.sampleTicks else s.act.sampleCnt - 1 := rfl
@[simp] theorem countSample_act_emergency (s : State) :
    (countSample s).act.emergency = s.act.emergency := rfl
@[simp] theorem countSample_sup (s : State) : (countSample s).sup = s.sup := rfl
@[simp] theorem countSample_ports (s : State) : (countSample s).ports = s.ports := rfl

/-! ### `withOpenBtn` -/

@[simp] theorem withOpenBtn_cfg (b : Button) (s : State) : (withOpenBtn b s).cfg = s.cfg := rfl
@[simp] theorem withOpenBtn_link (b : Button) (s : State) : (withOpenBtn b s).link = s.link := rfl
@[simp] theorem withOpenBtn_codec (b : Button) (s : State) : (withOpenBtn b s).codec = s.codec := rfl
@[simp] theorem withOpenBtn_rsp (b : Button) (s : State) : (withOpenBtn b s).rsp = s.rsp := rfl
@[simp] theorem withOpenBtn_act (b : Button) (s : State) : (withOpenBtn b s).act = s.act := rfl
@[simp] theorem withOpenBtn_sup_evq (b : Button) (s : State) :
    (withOpenBtn b s).sup.evq = s.sup.evq := rfl
@[simp] theorem withOpenBtn_sup_ind (b : Button) (s : State) :
    (withOpenBtn b s).sup.ind = s.sup.ind := rfl
@[simp] theorem withOpenBtn_sup_openBtn (b : Button) (s : State) :
    (withOpenBtn b s).sup.openBtn = b := rfl
@[simp] theorem withOpenBtn_sup_closeBtn (b : Button) (s : State) :
    (withOpenBtn b s).sup.closeBtn = s.sup.closeBtn := rfl
@[simp] theorem withOpenBtn_ports (b : Button) (s : State) : (withOpenBtn b s).ports = s.ports := rfl

/-! ### `withCloseBtn` -/

@[simp] theorem withCloseBtn_cfg (b : Button) (s : State) : (withCloseBtn b s).cfg = s.cfg := rfl
@[simp] theorem withCloseBtn_link (b : Button) (s : State) : (withCloseBtn b s).link = s.link := rfl
@[simp] theorem withCloseBtn_codec (b : Button) (s : State) : (withCloseBtn b s).codec = s.codec := rfl
@[simp] theorem withCloseBtn_rsp (b : Button) (s : State) : (withCloseBtn b s).rsp = s.rsp := rfl
@[simp] theorem withCloseBtn_act (b : Button) (s : State) : (withCloseBtn b s).act = s.act := rfl
@[simp] theorem withCloseBtn_sup_evq (b : Button) (s : State) :
    (withCloseBtn b s).sup.evq = s.sup.evq := rfl
@[simp] theorem withCloseBtn_sup_ind (b : Button) (s : State) :
    (withCloseBtn b s).sup.ind = s.sup.ind := rfl
@[simp] theorem withCloseBtn_sup_openBtn (b : Button) (s : State) :
    (withCloseBtn b s).sup.openBtn = s.sup.openBtn := rfl
@[simp] theorem withCloseBtn_sup_closeBtn (b : Button) (s : State) :
    (withCloseBtn b s).sup.closeBtn = b := rfl
@[simp] theorem withCloseBtn_ports (b : Button) (s : State) : (withCloseBtn b s).ports = s.ports := rfl

/-! ### `setHostId` -/

@[simp] theorem setHostId_cfg (id : Byte) (s : State) : (setHostId id s).cfg = s.cfg := rfl
@[simp] theorem setHostId_link (id : Byte) (s : State) : (setHostId id s).link = s.link := rfl
@[simp] theorem setHostId_codec_seq (id : Byte) (s : State) :
    (setHostId id s).codec.seq = s.codec.seq := rfl
@[simp] theorem setHostId_codec_settleCnt (id : Byte) (s : State) :
    (setHostId id s).codec.settleCnt = s.codec.settleCnt := rfl
@[simp] theorem setHostId_codec_expN (id : Byte) (s : State) :
    (setHostId id s).codec.expN = s.codec.expN := rfl
@[simp] theorem setHostId_codec_rdN (id : Byte) (s : State) :
    (setHostId id s).codec.rdN = s.codec.rdN := rfl
@[simp] theorem setHostId_codec_cont (id : Byte) (s : State) :
    (setHostId id s).codec.cont = s.codec.cont := rfl
@[simp] theorem setHostId_codec_txbuf (id : Byte) (s : State) :
    (setHostId id s).codec.txbuf = s.codec.txbuf := rfl
@[simp] theorem setHostId_codec_echoOk (id : Byte) (s : State) :
    (setHostId id s).codec.echoOk = s.codec.echoOk := rfl
@[simp] theorem setHostId_codec_hostId (id : Byte) (s : State) :
    (setHostId id s).codec.hostId = id := rfl
@[simp] theorem setHostId_rsp (id : Byte) (s : State) : (setHostId id s).rsp = s.rsp := rfl
@[simp] theorem setHostId_act (id : Byte) (s : State) : (setHostId id s).act = s.act := rfl
@[simp] theorem setHostId_sup (id : Byte) (s : State) : (setHostId id s).sup = s.sup := rfl
@[simp] theorem setHostId_ports (id : Byte) (s : State) : (setHostId id s).ports = s.ports := rfl

end Sys2Proof.Machine
end

