-- ==== Sys2Proof/Laws/Send.lean ====
section
/-! SUPPORT. What `send` and the transmission of a frame can do (R124, R160): what they leave alone in every
state, and their whole effect on a quiet line, with and without the echoes. -/

namespace Sys2Proof.Machine

/-! ### What sending leaves alone -/

/-- `t` differs from `s` at most in what sending writes: the mask, the direction and the hardware buffer of
the line, `echo_ok`, the wire output and the draws. -/
structure SendKeeps (s t : State) : Prop where
  cfg : t.cfg = s.cfg
  baud : t.link.baud = s.link.baud
  rxq : t.link.rxq = s.link.rxq
  rxWr : t.link.rxWr = s.link.rxWr
  rxRd : t.link.rxRd = s.link.rxRd
  seq : t.codec.seq = s.codec.seq
  settleCnt : t.codec.settleCnt = s.codec.settleCnt
  expN : t.codec.expN = s.codec.expN
  rdN : t.codec.rdN = s.codec.rdN
  cont : t.codec.cont = s.codec.cont
  hostId : t.codec.hostId = s.codec.hostId
  rsp : t.rsp = s.rsp
  act : t.act = s.act
  sup : t.sup = s.sup
  inbox : t.ports.inbox = s.ports.inbox
  rspValid : t.ports.rspValid = s.ports.rspValid

theorem SendKeeps.refl (s : State) : SendKeeps s s := by constructor <;> rfl

theorem SendKeeps.trans {s t u : State} (h : SendKeeps s t) (g : SendKeeps t u) : SendKeeps s u :=
  ⟨g.cfg.trans h.cfg, g.baud.trans h.baud, g.rxq.trans h.rxq, g.rxWr.trans h.rxWr,
    g.rxRd.trans h.rxRd, g.seq.trans h.seq, g.settleCnt.trans h.settleCnt, g.expN.trans h.expN,
    g.rdN.trans h.rdN, g.cont.trans h.cont, g.hostId.trans h.hostId, g.rsp.trans h.rsp,
    g.act.trans h.act, g.sup.trans h.sup, g.inbox.trans h.inbox, g.rspValid.trans h.rspValid⟩

theorem SendKeeps.holds {s t : State} (h : SendKeeps s t) {depth : Nat} {bs : List Byte}
    (hb : s.link.Holds depth bs) : t.link.Holds depth bs := hb.congr h.rxq h.rxRd h.rxWr

theorem sendByte_keeps (b : Byte) (s : State) : SendKeeps s (sendByte b s).2 := by
  unfold sendByte
  split <;> constructor <;> rfl

theorem noteEcho_keeps (b x : Byte) (s : State) : SendKeeps s (noteEcho b x s) := by
  unfold noteEcho
  split <;> constructor <;> rfl

theorem transmit_keeps (bs : List Byte) : ∀ s : State, SendKeeps s (transmit bs s) := by
  induction bs with
  | nil => exact fun s => SendKeeps.refl s
  | cons b bs ih =>
    intro s
    unfold transmit
    split
    · exact sendByte_keeps b s
    · exact ((sendByte_keeps b s).trans (noteEcho_keeps b _ _)).trans (ih _)

theorem sendFrame_keeps (id op : Byte) (ps : List Byte) (s : State) :
    SendKeeps s (sendFrame id op ps s) :=
  SendKeeps.trans (by constructor <;> rfl) (transmit_keeps _ (loadFrame id op ps s))

/-! ### `txbuf` -/

theorem sendByte_txbuf (b : Byte) (s : State) : (sendByte b s).2.codec.txbuf = s.codec.txbuf := by
  unfold sendByte
  split <;> rfl

theorem transmit_txbuf (bs : List Byte) : ∀ s : State,
    (transmit bs s).codec.txbuf = s.codec.txbuf := by
  induction bs with
  | nil => exact fun s => rfl
  | cons b bs ih =>
    intro s
    unfold transmit
    split
    · exact sendByte_txbuf b s
    · refine (ih _).trans (Eq.trans ?_ (sendByte_txbuf b s))
      unfold noteEcho
      split <;> rfl

/-- The frame sent is left in `txbuf` (R154). -/
theorem sendFrame_txbuf (id op : Byte) (ps : List Byte) (s : State) :
    (sendFrame id op ps s).codec.txbuf = frame id op ps := transmit_txbuf _ _

/-! ### One byte on a quiet line -/

/-- A state is stuck exactly when its line is an output. -/
theorem stuck_iff (s : State) : s.stuck = true ↔ s.link.lineDir = .output := by
  simp [State.stuck]

theorem Link.Quiet.not_stuck {s : State} (h : s.link.Quiet) : s.stuck = false := by
  simp [State.stuck, h.lineDir]

/-- `send` on a quiet line whose echo is a byte (R124): the byte is on the wire, the draw is taken, and
nothing else has changed. -/
theorem sendByte_quiet {s : State} (hq : s.link.Quiet) {b e : Byte}
    (he : (drawEcho b s.ports.echoes).1 = some e) :
    (sendByte b s) = (some e, { s with ports := { s.ports with
      wireTx := s.ports.wireTx ++ [b], echoes := (drawEcho b s.ports.echoes).2 } }) := by
  obtain ⟨h1, h2, h3⟩ := hq
  obtain ⟨cfg, ⟨baud, irqEn, dir, hw, q, w, r⟩, codec, rsp, act, sup, ports⟩ := s
  simp only at h1 h2 h3
  subst h1 h2 h3
  simp only at he
  simp [sendByte, he, sendFinish, sendStart]

/-- `send` with no echo (R123): stuck, interrupts masked, the byte on the wire. -/
theorem sendByte_none {s : State} {b : Byte} (he : (drawEcho b s.ports.echoes).1 = none) :
    sendByte b s = (none, sendStart b s) := by
  simp [sendByte, he]

theorem echoPresent_cons {k : Nat} {s : State} (b : Byte) (h : EchoPresent (k + 1) s) :
    ∃ e, (drawEcho b s.ports.echoes).1 = some e := by
  unfold EchoPresent at h
  cases hd : s.ports.echoes with
  | nil => exact ⟨b, rfl⟩
  | cons d ds =>
    rw [hd, List.take_succ_cons] at h
    cases d with
    | none => simp at h
    | some e => exact ⟨e, rfl⟩

theorem echoPresent_tail {k : Nat} {s t : State} (b : Byte) (h : EchoPresent (k + 1) s)
    (ht : t.ports.echoes = (drawEcho b s.ports.echoes).2) : EchoPresent k t := by
  unfold EchoPresent at *
  rw [ht]
  cases hd : s.ports.echoes with
  | nil => simp [drawEcho]
  | cons d ds =>
    rw [hd, List.take_succ_cons] at h
    simpa [drawEcho] using fun hm => h (List.mem_cons_of_mem _ hm)

theorem EchoPresent.mono {j k : Nat} {s : State} (h : EchoPresent k s) (hj : j ≤ k) :
    EchoPresent j s := by
  intro hm
  exact h ((List.take_subset_take_left _ hj) hm)

theorem echoesMatch_cons (b : Byte) (bs : List Byte) (ds : List Echo) :
    echoesMatch (b :: bs) ds =
      ((drawEcho b ds).1 == some b && echoesMatch bs (drawEcho b ds).2) := by
  cases ds with
  | nil => cases bs <;> simp [echoesMatch, drawEcho]
  | cons d ds => rfl

theorem drop_drawEcho (b : Byte) (n : Nat) (ds : List Echo) :
    (drawEcho b ds).2.drop n = ds.drop (n + 1) := by
  cases ds <;> simp [drawEcho]

/-! ### A frame on a quiet line -/

/-- The bytes of a frame on a quiet line whose echoes are present (R160). -/
theorem transmit_quiet (bs : List Byte) : ∀ {s : State}, s.link.Quiet → EchoPresent bs.length s →
    transmit bs s =
      { s with
        codec := { s.codec with echoOk := s.codec.echoOk && echoesMatch bs s.ports.echoes }
        ports := { s.ports with
          wireTx := s.ports.wireTx ++ bs
          echoes := s.ports.echoes.drop bs.length } } := by
  induction bs with
  | nil =>
    intro s _ _
    simp [transmit, echoesMatch]
  | cons b bs ih =>
    intro s hq hp
    obtain ⟨e, he⟩ := echoPresent_cons b hp
    have hs := sendByte_quiet hq he
    simp only [transmit, hs]
    have hq' : (noteEcho b e { s with ports := { s.ports with
        wireTx := s.ports.wireTx ++ [b], echoes := (drawEcho b s.ports.echoes).2 } }).link.Quiet := by
      unfold noteEcho
      split <;> exact hq
    have hp' : EchoPresent bs.length (noteEcho b e { s with ports := { s.ports with
        wireTx := s.ports.wireTx ++ [b], echoes := (drawEcho b s.ports.echoes).2 } }) := by
      apply echoPresent_tail b hp
      unfold noteEcho
      split <;> rfl
    rw [ih hq' hp']
    by_cases heb : e = b
    · subst heb
      simp [noteEcho, echoesMatch_cons, he, drop_drawEcho]
    · have hne : (some e == some b) = false := by simpa using heb
      simp [noteEcho, echoesMatch_cons, he, heb, drop_drawEcho]

/-- A frame sent on a quiet line whose echoes are present (R154, R160). -/
theorem sendFrame_quiet {id op : Byte} {ps : List Byte} {s : State} (hq : s.link.Quiet)
    (hp : EchoPresent (frame id op ps).length s) :
    sendFrame id op ps s = afterFrame (frame id op ps) s := by
  unfold sendFrame
  rw [transmit_quiet (s := loadFrame id op ps s) _ hq hp]
  simp [loadFrame, afterFrame]

/-- The length of a frame of `k` parameters, `k + 6` (R154). -/
@[simp] theorem frame_length (id op : Byte) (ps : List Byte) :
    (frame id op ps).length = ps.length + 6 := by
  simp [frame]

/-- The bytes of a frame on a quiet line one of whose echoes never arrives: the block is stuck inside
`send` with interrupts masked (R123, R160). -/
theorem transmit_stuck (bs : List Byte) : ∀ {s : State}, s.link.Quiet → ¬ EchoPresent bs.length s →
    (transmit bs s).stuck = true ∧ (transmit bs s).link.irqEn = false := by
  induction bs with
  | nil => exact fun _ hn => absurd (by simp [EchoPresent]) hn
  | cons b bs ih =>
    intro s hq hn
    cases he : (drawEcho b s.ports.echoes).1 with
    | none =>
      rw [transmit, sendByte_none he]
      exact ⟨rfl, rfl⟩
    | some e =>
      have hs := sendByte_quiet hq he
      simp only [transmit, hs]
      apply ih
      · unfold noteEcho
        split <;> exact hq
      · intro hp
        apply hn
        unfold EchoPresent at *
        cases hd : s.ports.echoes with
        | nil => simp
        | cons d ds =>
          rw [hd] at he
          simp only [drawEcho] at he
          subst he
          have hds : (noteEcho b e { s with ports := { s.ports with
              wireTx := s.ports.wireTx ++ [b],
              echoes := (drawEcho b s.ports.echoes).2 } }).ports.echoes = ds := by
            unfold noteEcho
            split <;> simp [hd, drawEcho]
          rw [hds] at hp
          simpa using hp

/-- The bytes of a frame on a quiet line one of whose echoes never arrives, whole (R123, R160). -/
theorem transmit_missing (bs : List Byte) : ∀ {s : State}, s.link.Quiet → ¬ EchoPresent bs.length s →
    transmit bs s =
      { s with
        link := { s.link with irqEn := false, lineDir := .output }
        codec := { s.codec with
          echoOk := s.codec.echoOk &&
            echoesMatch (bs.take (s.ports.echoes.takeWhile Option.isSome).length) s.ports.echoes }
        ports := { s.ports with
          wireTx := s.ports.wireTx ++
            bs.take ((s.ports.echoes.takeWhile Option.isSome).length + 1)
          echoes := s.ports.echoes.drop
            ((s.ports.echoes.takeWhile Option.isSome).length + 1) } } := by
  induction bs with
  | nil => exact fun _ hn => absurd (by simp [EchoPresent]) hn
  | cons b bs ih =>
    intro s hq hn
    cases hd : s.ports.echoes with
    | nil => exact absurd (by simp [EchoPresent, hd]) hn
    | cons d ds =>
      cases d with
      | none =>
        rw [transmit, sendByte_none (by simp [hd, drawEcho])]
        simp [sendStart, hd, drawEcho, echoesMatch]
      | some e =>
        have he : (drawEcho b s.ports.echoes).1 = some e := by simp [hd, drawEcho]
        have hs := sendByte_quiet hq he
        simp only [transmit, hs]
        have hds : (noteEcho b e { s with ports := { s.ports with
            wireTx := s.ports.wireTx ++ [b],
            echoes := (drawEcho b s.ports.echoes).2 } }).ports.echoes = ds := by
          unfold noteEcho
          split <;> simp [hd, drawEcho]
        rw [ih]
        · rw [hds]
          by_cases heb : e = b
          · subst heb
            simp [noteEcho, echoesMatch]
          · simp [noteEcho, echoesMatch, heb]
        · unfold noteEcho
          split <;> exact hq
        · intro hp
          apply hn
          unfold EchoPresent at *
          rw [hds] at hp
          simpa [hd] using hp

/-- A frame on a quiet line one of whose echoes never arrives, whole (R123, R154, R160). -/
theorem sendFrame_missing {id op : Byte} {ps : List Byte} {s : State} (hq : s.link.Quiet)
    (hn : ¬ EchoPresent (frame id op ps).length s) :
    sendFrame id op ps s = afterMissing (frame id op ps) s := by
  unfold sendFrame
  rw [transmit_missing (s := loadFrame id op ps s) _ hq hn]
  simp [loadFrame, afterMissing]

/-- What sending a frame on a quiet line can do: its whole effect when the echoes are present, and the stuck
state otherwise. -/
theorem sendFrame_cases {id op : Byte} {ps : List Byte} {s : State} (hq : s.link.Quiet) :
    (EchoPresent (frame id op ps).length s ∧
        sendFrame id op ps s = afterFrame (frame id op ps) s) ∨
      ((sendFrame id op ps s).stuck = true ∧ (sendFrame id op ps s).link.irqEn = false) := by
  by_cases hp : EchoPresent (frame id op ps).length s
  · exact .inl ⟨hp, sendFrame_quiet hq hp⟩
  · exact .inr (transmit_stuck _ (s := loadFrame id op ps s) hq hp)

end Sys2Proof.Machine
end

