-- ==== Sys2Proof/Laws/Control.lean ====
section
/-! SUPPORT. What the shared operations of the Codec and the Controller can do: `begin_txn`, the transitions,
`dispatch` (R159, R234, R235). -/

namespace Sys2Proof.Machine

/-! ### `begin_txn` -/

/-- `begin_txn` with a reply to wait for, on a quiet line whose echoes are present (R159). -/
theorem beginWait_quiet {id op : Byte} {ps : List Byte} {rn : Nat} {k : Cont} {s : State}
    (hq : s.link.Quiet) (hp : EchoPresent (ps.length + 6) s) :
    beginWait id op ps rn k s = settleFor rn k (afterFrame (frame id op ps) s) := by
  have hf := sendFrame_quiet (id := id) (op := op) (ps := ps) hq (by simpa using hp)
  have hns : (afterFrame (frame id op ps) s).stuck = false := Link.Quiet.not_stuck (s := afterFrame _ s) hq
  simp [beginWait, hf, hns]

/-- `begin_txn` with a reply to wait for, on a quiet line one of whose echoes never arrives (R123). -/
theorem beginWait_missing {id op : Byte} {ps : List Byte} {rn : Nat} {k : Cont} {s : State}
    (hq : s.link.Quiet) (hn : ¬ EchoPresent (ps.length + 6) s) :
    beginWait id op ps rn k s = afterMissing (frame id op ps) s := by
  have hf := sendFrame_missing (id := id) (op := op) (ps := ps) hq (by simpa using hn)
  have hs : (afterMissing (frame id op ps) s).stuck = true := rfl
  rw [beginWait, hf, if_pos hs]

/-- `begin_txn` of a host transaction on a quiet line one of whose echoes never arrives (R123). -/
theorem beginTxn_missing {fin : Result → State → State} {id op : Byte} {ps : List Byte} {rn : Nat}
    {w : Bool} {k : Cont} {s : State} (hq : s.link.Quiet) (hn : ¬ EchoPresent (ps.length + 6) s) :
    beginTxn fin id op ps rn w k s = afterMissing (frame id op ps) s := by
  have hf := sendFrame_missing (id := id) (op := op) (ps := ps) hq (by simpa using hn)
  have hs : (afterMissing (frame id op ps) s).stuck = true := rfl
  rw [beginTxn, hf, if_pos hs]

/-- What `begin_txn` with a reply to wait for can do on a quiet line: the frame and the settle interval, or
the stuck state. -/
theorem beginWait_cases {id op : Byte} {ps : List Byte} {rn : Nat} {k : Cont} {s : State}
    (hq : s.link.Quiet) :
    (EchoPresent (ps.length + 6) s ∧
        beginWait id op ps rn k s = settleFor rn k (afterFrame (frame id op ps) s)) ∨
      ((beginWait id op ps rn k s).stuck = true ∧
        (beginWait id op ps rn k s).link.irqEn = false ∧
        SendKeeps s (beginWait id op ps rn k s)) := by
  by_cases hp : EchoPresent (ps.length + 6) s
  · exact .inl ⟨hp, beginWait_quiet hq hp⟩
  · right
    rcases sendFrame_cases (id := id) (op := op) (ps := ps) hq with ⟨h, -⟩ | ⟨h1, h2⟩
    · exact absurd (by simpa using h) hp
    · rw [beginWait, if_pos h1]
      exact ⟨h1, h2, sendFrame_keeps id op ps s⟩

/-- A transaction begun leaves pending events alone. -/
theorem beginWait_sup (id op : Byte) (ps : List Byte) (rn : Nat) (k : Cont) (s : State) :
    (beginWait id op ps rn k s).sup = s.sup := by
  have h := (sendFrame_keeps id op ps s).sup
  unfold beginWait
  split
  · exact h
  · simpa using h

theorem beginWait_cfg (id op : Byte) (ps : List Byte) (rn : Nat) (k : Cont) (s : State) :
    (beginWait id op ps rn k s).cfg = s.cfg := by
  have h := (sendFrame_keeps id op ps s).cfg
  unfold beginWait
  split
  · exact h
  · simpa using h

/-- `begin_txn` of a host transaction, whole, on a quiet line whose echoes are present (R159). -/
theorem beginTxn_quiet {fin : Result → State → State} {id op : Byte} {ps : List Byte} {rn : Nat}
    {w : Bool} {k : Cont} {s : State} (hq : s.link.Quiet) (hp : EchoPresent (ps.length + 6) s) :
    beginTxn fin id op ps rn w k s =
      if w then settleFor rn k (afterFrame (frame id op ps) s)
      else fin (noWaitResult (echoesMatch (frame id op ps) s.ports.echoes))
        (afterFrame (frame id op ps) s) := by
  have hf := sendFrame_quiet (id := id) (op := op) (ps := ps) hq (by simpa using hp)
  have hns : (afterFrame (frame id op ps) s).stuck = false := Link.Quiet.not_stuck (s := afterFrame _ s) hq
  rw [beginTxn, hf, if_neg (by simp [hns])]
  cases w <;> rfl

/-- What `begin_txn` of a host transaction can do on a quiet line. -/
theorem beginTxn_cases {fin : Result → State → State} {id op : Byte} {ps : List Byte} {rn : Nat}
    {w : Bool} {k : Cont} {s : State} (hq : s.link.Quiet) :
    (EchoPresent (ps.length + 6) s ∧ beginTxn fin id op ps rn w k s =
        if w then settleFor rn k (afterFrame (frame id op ps) s)
        else fin (noWaitResult (echoesMatch (frame id op ps) s.ports.echoes))
          (afterFrame (frame id op ps) s)) ∨
      ((beginTxn fin id op ps rn w k s).stuck = true ∧
        (beginTxn fin id op ps rn w k s).link.irqEn = false ∧
        SendKeeps s (beginTxn fin id op ps rn w k s)) := by
  by_cases hp : EchoPresent (ps.length + 6) s
  · exact .inl ⟨hp, beginTxn_quiet hq hp⟩
  · right
    rcases sendFrame_cases (id := id) (op := op) (ps := ps) hq with ⟨h, -⟩ | ⟨h1, h2⟩
    · exact absurd (by simpa using h) hp
    · rw [beginTxn, if_pos h1]
      exact ⟨h1, h2, sendFrame_keeps id op ps s⟩

/-! ### The event queue under a transition -/

theorem cancelTimers_evq_length (s : State) :
    (cancelTimers s).sup.evq.length ≤ s.sup.evq.length := by
  simpa using List.length_filter_le _ _

/-- No transition adds an event. -/
theorem transition_evq_length (e : CtrlEv) (s : State) :
    (transition e s).sup.evq.length ≤ s.sup.evq.length := by
  have h := cancelTimers_evq_length s
  simp only [cancelTimers_sup_evq] at h
  cases e <;> simp only [transition, onDeadline, onClose, onOpen, onSample] <;> split <;>
    simp [beginMotion, readLoadSample, enterEmergency, sendTorqueOff, beginWait_sup, h]

theorem transition_cfg (e : CtrlEv) (s : State) : (transition e s).cfg = s.cfg := by
  cases e <;> simp only [transition, onDeadline, onClose, onOpen, onSample] <;> split <;>
    simp [beginMotion, readLoadSample, enterEmergency, sendTorqueOff, beginWait_cfg]

/-! ### `dispatch` -/

/-- The event taken is a pending one. -/
theorem nextEvent_mem {evs : List CtrlEv} {e : CtrlEv} (h : nextEvent evs = some e) : e ∈ evs := by
  unfold nextEvent at h
  split at h
  · exact (List.mem_filter.mp (List.mem_of_head? h)).1
  · exact List.mem_of_head? h

/-- A load read is begun only when no deadline is pending (`90_conflicts.md` C8). -/
theorem nextEvent_sample {evs : List CtrlEv} (h : nextEvent evs = some .sample) :
    CtrlEv.deadline ∉ evs := by
  unfold nextEvent at h
  split at h
  · have := (List.mem_filter.mp (List.mem_of_head? h)).2
    simp at this
  · assumption

/-- Nothing is taken exactly when nothing is pending. -/
theorem nextEvent_none {evs : List CtrlEv} : nextEvent evs = none ↔ evs = [] := by
  constructor
  · intro h
    unfold nextEvent at h
    split at h
    · rename_i hd
      rw [List.head?_eq_none_iff] at h
      have : CtrlEv.deadline ∈ evs.filter (fun e => e != .sample) :=
        List.mem_filter.mpr ⟨hd, rfl⟩
      simp [h] at this
    · simpa using h
  · rintro rfl
    rfl

/-- The oldest event is taken (R234), but for a load read with a deadline behind it. -/
theorem nextEvent_cons {e : CtrlEv} {rest : List CtrlEv}
    (h : e ≠ .sample ∨ CtrlEv.deadline ∉ rest) : nextEvent (e :: rest) = some e := by
  unfold nextEvent
  split
  · rename_i hd
    have he : e ≠ .sample := by
      rcases h with h | h
      · exact h
      · rcases List.mem_cons.mp hd with rfl | hd
        · simp
        · exact absurd hd h
    simp [he]
  · rfl

/-- An event taken leaves one fewer pending. -/
theorem erase_next_length {evs : List CtrlEv} {e : CtrlEv} (h : nextEvent evs = some e) :
    (evs.erase e).length + 1 = evs.length := by
  have hm := nextEvent_mem h
  have := List.length_pos_of_mem hm
  rw [List.length_erase_of_mem hm]
  omega

theorem dispatch_nil {s : State} (h : s.sup.evq = []) : dispatch s = s := by
  simp [dispatch, h, dispatchUpTo]

theorem dispatchUpTo_not_ready (n : Nat) {s : State} (h : s.ready = false) :
    dispatchUpTo n s = s := by
  cases n with
  | zero => rfl
  | succ n =>
    unfold dispatchUpTo
    split
    · rfl
    · simp [h]

theorem dispatch_not_ready {s : State} (h : s.ready = false) : dispatch s = s :=
  dispatchUpTo_not_ready _ h

/-- An event taken and its transition leave fewer events pending. -/
theorem taken_length {s : State} {e : CtrlEv} (he : nextEvent s.sup.evq = some e) :
    (transition e (dropEvent e s)).sup.evq.length + 1 ≤ s.sup.evq.length := by
  have hl := transition_evq_length e (dropEvent e s)
  have := erase_next_length he
  simp only [dropEvent_sup_evq] at hl
  omega

/-- A bound of at least the length of `evq` may be any larger. -/
theorem dispatchUpTo_add : ∀ (m d : Nat) (s : State), s.sup.evq.length ≤ m →
    dispatchUpTo (m + d) s = dispatchUpTo m s := by
  intro m
  induction m with
  | zero =>
    intro d s h
    have he : s.sup.evq = [] := List.eq_nil_of_length_eq_zero (by omega)
    cases d <;> simp [dispatchUpTo, he, nextEvent]
  | succ m ih =>
    intro d s h
    rw [show m + 1 + d = (m + d) + 1 by omega]
    unfold dispatchUpTo
    split
    · rfl
    · rename_i e he
      split
      · have hl := taken_length he
        exact ih d _ (by omega)
      · rfl

/-- Any bound of at least the length of `evq` dispatches alike. -/
theorem dispatchUpTo_enough (n : Nat) (s : State) (h : s.sup.evq.length ≤ n) :
    dispatchUpTo n s = dispatch s := by
  rw [show n = s.sup.evq.length + (n - s.sup.evq.length) by omega]
  exact dispatchUpTo_add _ _ _ (le_refl _)

/-- `dispatch` takes the next event when it may, and goes on (R234). -/
theorem dispatch_next {s : State} {e : CtrlEv} (he : nextEvent s.sup.evq = some e)
    (hr : s.ready = true) : dispatch s = dispatch (transition e (dropEvent e s)) := by
  have hl := taken_length he
  obtain ⟨n, hn⟩ : ∃ n, s.sup.evq.length = n + 1 := ⟨s.sup.evq.length - 1, by omega⟩
  have h2 : dispatch s = dispatchUpTo n (transition e (dropEvent e s)) := by
    simp [dispatch, hn, dispatchUpTo, he, hr]
  rw [h2, dispatchUpTo_enough _ _ (by omega)]

/-- `dispatch` takes the oldest event, when no deadline stands behind a load read (R234). -/
theorem dispatch_cons {s : State} {e : CtrlEv} {rest : List CtrlEv} (he : s.sup.evq = e :: rest)
    (ho : e ≠ .sample ∨ CtrlEv.deadline ∉ rest) (hr : s.ready = true) :
    dispatch s = dispatch (transition e { s with sup := { s.sup with evq := rest } }) := by
  have hd : dropEvent e s = { s with sup := { s.sup with evq := rest } } := by
    simp [dropEvent, he]
  rw [dispatch_next (by rw [he]; exact nextEvent_cons ho) hr, hd]

/-- A property that every taken event keeps, `dispatch` keeps. -/
theorem dispatch_induct {P : State → Prop}
    (hstep : ∀ s e, nextEvent s.sup.evq = some e → s.ready = true → P s →
      P (transition e (dropEvent e s))) : ∀ s, P s → P (dispatch s) := by
  have : ∀ n s, P s → P (dispatchUpTo n s) := by
    intro n
    induction n with
    | zero => exact fun s h => h
    | succ n ih =>
      intro s h
      unfold dispatchUpTo
      split
      · exact h
      · rename_i e he
        split
        · exact ih _ (hstep s e he ‹_› h)
        · exact h
  exact fun s h => this _ s h

/-- `dispatch` ends with nothing pending, or with a transaction in flight or the block stuck (R234). -/
theorem dispatch_done (s : State) : (dispatch s).sup.evq = [] ∨ (dispatch s).ready = false := by
  have : ∀ n s, s.sup.evq.length ≤ n →
      (dispatchUpTo n s).sup.evq = [] ∨ (dispatchUpTo n s).ready = false := by
    intro n
    induction n with
    | zero =>
      intro s h
      exact .inl (List.eq_nil_of_length_eq_zero (Nat.le_zero.mp h))
    | succ n ih =>
      intro s h
      unfold dispatchUpTo
      split
      · exact .inl (nextEvent_none.mp ‹_›)
      · rename_i e he
        by_cases hr : s.ready = true
        · rw [if_pos hr]
          apply ih
          have hl := taken_length he
          omega
        · rw [if_neg hr]
          exact .inr (by simpa using hr)
  exact this _ s (le_refl _)

/-- A second `dispatch` finds nothing it can do. -/
theorem dispatch_dispatch (s : State) : dispatch (dispatch s) = dispatch s := by
  rcases dispatch_done s with h | h
  · exact dispatch_nil h
  · exact dispatch_not_ready h

theorem dispatch_cfg (s : State) : (dispatch s).cfg = s.cfg :=
  dispatch_induct (P := fun t => t.cfg = s.cfg)
    (fun t e _ _ h => (transition_cfg e (dropEvent e t)).trans h) s rfl

/-- While a transaction is in flight nothing is dispatched (R234). -/
theorem dispatch_settle {s : State} (h : s.codec.seq = .settle) : dispatch s = s :=
  dispatch_not_ready (by simp [State.ready, h])

/-- In the stuck state nothing is dispatched (R342). -/
theorem dispatch_stuck {s : State} (h : s.stuck = true) : dispatch s = s :=
  dispatch_not_ready (by simp [State.ready, h])

end Sys2Proof.Machine
end

