-- ==== Sys2Proof/Laws/Invariant.lean ====
section
/-! SUPPORT. What keeps the parts of the invariant: `MidOk` is the invariant of `Safety.lean` without its last
clause, so it also holds between the parts of one step, before the `dispatch` that ends the step. -/

namespace Sys2Proof.Machine

/-- The invariant between the parts of a step. -/
structure State.MidOk (s : State) : Prop where
  always : s.AlwaysOk
  masked : s.stuck = true → s.link.irqEn = false
  live : s.stuck = false → s.LiveOk

/-! ### Moving the parts from state to state -/

theorem State.RangesOk.congr {s t : State} (h : s.RangesOk) (hc : t.cfg = s.cfg)
    (hsc : t.codec.settleCnt = s.codec.settleCnt) (hrd : t.codec.rdN = s.codec.rdN)
    (hr : t.rsp = s.rsp) (ha : t.act = s.act) (hs : t.sup = s.sup) : t.RangesOk := by
  obtain ⟨h1, h2, h3, h4, h5, h6, h7, h8, h9, h10⟩ := h
  constructor <;> simp only [hc, hsc, hrd, hr, ha, hs] <;> assumption

theorem State.AlwaysOk.send {s t : State} (h : s.AlwaysOk) (k : SendKeeps s t) : t.AlwaysOk := by
  obtain ⟨hp, ⟨bs, hb⟩, hr⟩ := h
  refine ⟨by rw [k.cfg]; exact hp, ⟨bs, by rw [k.cfg]; exact k.holds hb⟩, ?_⟩
  exact hr.congr k.cfg k.settleCnt k.rdN k.rsp k.act k.sup

/-- A transaction begun to wait for a reply, from a quiet line. -/
theorem beginWait_mid {id op : Byte} {ps : List Byte} {rn : Nat} {k : Cont} {s : State}
    (ha : s.AlwaysOk) (hq : s.link.Quiet) (hrn : rn ≤ s.cfg.maxp)
    (ht : (settleFor rn k s).TxnOk) (hm : (settleFor rn k s).TimersOk) :
    (beginWait id op ps rn k s).MidOk := by
  rcases beginWait_cases (id := id) (op := op) (ps := ps) (rn := rn) (k := k) hq with
    ⟨-, h⟩ | ⟨h1, h2, hk⟩
  · rw [h]
    have hns : (settleFor rn k (afterFrame (frame id op ps) s)).stuck = false :=
      Link.Quiet.not_stuck (s := settleFor rn k (afterFrame (frame id op ps) s)) hq
    refine ⟨⟨ha.params, ha.queue, ?_⟩, by simp [hns], fun _ => ⟨hq, ?_, ?_⟩⟩
    · obtain ⟨h1, h2, h3, h4, h5, h6, h7, h8, h9, h10⟩ := ha.ranges
      exact ⟨le_refl _, hrn, h3, h4, h5, h6, h7, h8, h9, h10⟩
    · exact ⟨ht.settle, ht.count, ht.start, ht.sample, ht.emerg, ht.other, ht.inEmergency⟩
    · exact ⟨hm.on_moving, hm.moving_on, hm.events, hm.counts, hm.running, hm.deadline, hm.expired, hm.hits⟩
  · exact ⟨ha.send hk, fun _ => h2, fun h => by simp [h1] at h⟩

theorem cancelTimers_always {s : State} (ha : s.AlwaysOk) : (cancelTimers s).AlwaysOk := by
  obtain ⟨hp, hq, h1, h2, h3, h4, h5, h6, h7, h8, h9, h10⟩ := ha
  exact ⟨hp, hq, h1, h2, h3, h4, h5, Nat.zero_le _, Nat.zero_le _, h8.filter _, h9, h10⟩

/-- No timer event is left by `cancel_timers()` (R233). -/
theorem cancelTimers_no_timer (s : State) :
    ¬ (CtrlEv.sample ∈ (cancelTimers s).sup.evq ∨ CtrlEv.deadline ∈ (cancelTimers s).sup.evq) := by
  simp [isTimerEvent]

/-- After `cancel_timers()` the timer pair is in order in any state that moves only to start (R267). -/
theorem timersOk_cancelled {s : State} (hon : s.act.timersOn = false) (hd : s.act.deadlineCnt = 0)
    (hs : s.act.sampleCnt = 0) (he : ¬ (CtrlEv.sample ∈ s.sup.evq ∨ CtrlEv.deadline ∈ s.sup.evq))
    (hm : s.moving → s.codec.seq = .settle ∧ s.codec.cont = .start) : s.TimersOk := by
  refine ⟨by simp [hon], fun h => .inr (hm h), fun h => absurd h he, ?_, by simp [hon],
    by simp [hon], fun _ => hd, by simp [hon]⟩
  simp [hd, hs]

theorem beginMotion_mid {target : Motion} {s : State} (ha : s.AlwaysOk) (hq : s.link.Quiet)
    (ht : target = .opening ∨ target = .closing) : (beginMotion target s).MidOk := by
  have ha' := cancelTimers_always ha
  refine beginWait_mid (s := setMotion target (cancelTimers s)) ?_ hq (Nat.zero_le _) ?_ ?_
  · obtain ⟨hp, hq, h1, h2, h3, h4, h5, h6, h7, h8, h9, h10⟩ := ha'
    exact ⟨hp, hq, h1, h2, h3, h4, h5, h6, h7, h8, h9, h10⟩
  · refine ⟨fun _ => ha.params.settleTicks, fun _ => rfl, fun _ _ => ⟨ht, rfl⟩, ?_, ?_, ?_, ?_⟩
    · intro _ h; simp at h
    · intro _ h; simp at h
    · intro _ h; simp at h
    · intro h
      rcases ht with rfl | rfl <;> simp at h
  · exact timersOk_cancelled rfl rfl rfl (cancelTimers_no_timer s) (fun _ => ⟨rfl, rfl⟩)

theorem enterEmergency_mid {s : State} (ha : s.AlwaysOk) (hq : s.link.Quiet) :
    (enterEmergency s).MidOk := by
  have ha' := cancelTimers_always ha
  refine beginWait_mid (s := setEmergency (cancelTimers s)) ?_ hq (Nat.zero_le _) ?_ ?_
  · obtain ⟨hp, hq, h1, h2, h3, h4, h5, h6, h7, h8, h9, h10⟩ := ha'
    exact ⟨hp, hq, h1, h2, h3, h4, h5, h6, h7, h8, h9, h10⟩
  · refine ⟨fun _ => ha.params.settleTicks, fun _ => rfl, ?_, ?_, fun _ _ => rfl, ?_, fun _ => ⟨rfl, rfl⟩⟩
    · intro _ h; simp at h
    · intro _ h; simp at h
    · intro _ h; simp at h
  · refine timersOk_cancelled rfl rfl rfl (cancelTimers_no_timer s) (fun h => ?_)
    simp [State.moving] at h

theorem confirmStall_mid {s : State} (ha : s.AlwaysOk) (hq : s.link.Quiet) :
    (confirmStall s).MidOk := by
  have ha' := cancelTimers_always ha
  refine beginWait_mid (s := setStalled (cancelTimers s)) ?_ hq (Nat.zero_le _) ?_ ?_
  · obtain ⟨hp, hq, h1, h2, h3, h4, h5, h6, h7, h8, h9, h10⟩ := ha'
    exact ⟨hp, hq, h1, h2, h3, h4, h5, h6, h7, h8, h9, h10⟩
  · refine ⟨fun _ => ha.params.settleTicks, fun _ => rfl, ?_, ?_, ?_, fun _ _ => rfl, ?_⟩
    · intro _ h; simp at h
    · intro _ h; simp at h
    · intro _ h; simp at h
    · intro h; simp at h
  · refine timersOk_cancelled rfl rfl rfl (cancelTimers_no_timer s) (fun h => ?_)
    simp [State.moving] at h

theorem readLoadSample_mid {s : State} (ha : s.AlwaysOk) (hq : s.link.Quiet) (hm : s.moving)
    (hon : s.act.timersOn = true) (ht : s.TimersOk) : (readLoadSample s).MidOk := by
  refine beginWait_mid ha hq ha.params.maxpLow ?_ ?_
  · refine ⟨fun _ => ha.params.settleTicks, fun _ => rfl, ?_, fun _ _ => ⟨hm, hon, rfl⟩, ?_, ?_, ?_⟩
    · intro _ h; simp at h
    · intro _ h; simp at h
    · intro _ h; simp at h
    · intro h
      rcases hm with hm | hm <;> simp [hm] at h
  · exact ⟨ht.on_moving, fun _ => .inl hon, ht.events, ht.counts, ht.running, ht.deadline, ht.expired, ht.hits⟩

/-! ### Taking an event -/

theorem dropEvent_always {e : CtrlEv} {s : State} (ha : s.AlwaysOk) : (dropEvent e s).AlwaysOk := by
  obtain ⟨hp, hq, h1, h2, h3, h4, h5, h6, h7, h8, h9, h10⟩ := ha
  exact ⟨hp, hq, h1, h2, h3, h4, h5, h6, h7, h8.sublist List.erase_sublist, h9, h10⟩

/-- An event removed leaves the timer pair in order, but for the deadline of a running pair. -/
theorem dropEvent_timers {s : State} {e : CtrlEv} (h : s.TimersOk)
    (hd : e = .deadline → s.act.timersOn = false) : (dropEvent e s).TimersOk := by
  refine ⟨h.on_moving, h.moving_on, ?_, h.counts, h.running, ?_, ?_, h.hits⟩
  · intro hm
    exact h.events (hm.imp List.mem_of_mem_erase List.mem_of_mem_erase)
  · intro hon h0
    refine (List.mem_erase_of_ne fun he => ?_).mpr (h.deadline hon h0)
    rw [dropEvent_act, hd he.symm] at hon
    simp at hon
  · intro hm
    exact h.expired (List.mem_of_mem_erase hm)

/-- An ignored event (R235). -/
theorem dropEvent_mid {s : State} {e : CtrlEv} (h : s.MidOk) (hns : s.stuck = false)
    (hd : e = .deadline → s.act.timersOn = false) : (dropEvent e s).MidOk := by
  have hl := h.live hns
  refine ⟨dropEvent_always h.always, h.masked, fun _ => ⟨hl.quiet, ?_, dropEvent_timers hl.timers hd⟩⟩
  exact ⟨hl.txn.settle, hl.txn.count, hl.txn.start, hl.txn.sample, hl.txn.emerg, hl.txn.other,
    hl.txn.inEmergency⟩

theorem ready_iff (s : State) : s.ready = true ↔ s.codec.seq = .idle ∧ s.stuck = false := by
  simp [State.ready]

theorem not_moving_off {s : State} (h : s.TimersOk) (hm : ¬ s.moving) : s.act.timersOn = false := by
  by_contra hon
  exact hm (h.on_moving (by simpa using hon))

/-- The transition of an event taken from the queue (R235). -/
theorem transition_mid {s : State} {e : CtrlEv} (he : nextEvent s.sup.evq = some e)
    (hr : s.ready = true) (h : s.MidOk) : (transition e (dropEvent e s)).MidOk := by
  obtain ⟨hseq, hns⟩ := (ready_iff s).mp hr
  have hl := h.live hns
  have ha := dropEvent_always (e := e) h.always
  have hq : (dropEvent e s).link.Quiet := hl.quiet
  cases e with
  | openEv =>
    have hig := dropEvent_mid (e := .openEv) h hns (by simp)
    simp only [transition, onOpen]
    split
    · exact beginMotion_mid ha hq (.inl rfl)
    all_goals exact hig
  | closeEv =>
    simp only [transition, onClose]
    split <;> exact beginMotion_mid ha hq (.inr rfl)
  | deadline =>
    have hig : ¬ s.moving → (dropEvent .deadline s).MidOk := fun hm =>
      dropEvent_mid h hns (fun _ => not_moving_off hl.timers hm)
    simp only [transition, onDeadline]
    split
    · exact hig (fun hm => by simp_all [State.moving])
    · exact enterEmergency_mid ha hq
    · exact enterEmergency_mid ha hq
    · exact hig (fun hm => by simp_all [State.moving])
  | sample =>
    have hig := dropEvent_mid (e := .sample) h hns (by simp)
    have hon : s.act.timersOn = true := hl.timers.events (.inl (nextEvent_mem he))
    have ht := dropEvent_timers (e := .sample) hl.timers (by simp)
    simp only [transition, onSample]
    split
    · exact hig
    · exact readLoadSample_mid ha hq (.inl ‹_›) hon ht
    · exact readLoadSample_mid ha hq (.inr ‹_›) hon ht
    · exact hig

theorem dispatch_mid {s : State} (h : s.MidOk) : (dispatch s).MidOk :=
  dispatch_induct (P := State.MidOk) (fun _ _ he hr hs => transition_mid he hr hs) s h

/-! ### Completion -/

theorem respond_mid {r : Result} {s : State} (h : s.MidOk) (hn : r.n ≤ s.cfg.maxp)
    (hd : r.data.length ≤ s.cfg.maxp) : (respond r s).MidOk := by
  obtain ⟨⟨hp, hq, h1, h2, h3, h4, h5, h6, h7, h8, h9, h10⟩, hm, hl⟩ := h
  refine ⟨⟨hp, hq, h1, h2, hn, ?_, h5, h6, h7, h8, h9, h10⟩, hm, fun hs => ?_⟩
  · simp [respond, padData]; omega
  · obtain ⟨hq, ht, hi⟩ := hl hs
    exact ⟨hq, ⟨ht.settle, ht.count, ht.start, ht.sample, ht.emerg, ht.other, ht.inEmergency⟩,
      ⟨hi.on_moving, hi.moving_on, hi.events, hi.counts, hi.running, hi.deadline, hi.expired, hi.hits⟩⟩

/-- A state with no transaction in flight and no motion, on a quiet line. -/
structure State.RestOk (s : State) : Prop where
  always : s.AlwaysOk
  quiet : s.link.Quiet
  seq : s.codec.seq = .idle
  motion : s.act.motion = .idle
  timers : s.TimersOk

theorem State.RestOk.mid {s : State} (h : s.RestOk) : s.MidOk := by
  have hns := Link.Quiet.not_stuck h.quiet
  refine ⟨h.always, by simp [hns], fun _ => ⟨h.quiet, ?_, h.timers⟩⟩
  constructor <;> simp [h.seq, h.motion]

theorem State.MidOk.rest {s : State} (h : s.MidOk) (hns : s.stuck = false) (hseq : s.codec.seq = .idle)
    (hm : s.act.motion = .idle) : s.RestOk :=
  ⟨h.always, (h.live hns).quiet, hseq, hm, (h.live hns).timers⟩

theorem respond_rest {r : Result} {s : State} (h : s.RestOk) (hn : r.n ≤ s.cfg.maxp)
    (hd : r.data.length ≤ s.cfg.maxp) : (respond r s).RestOk := by
  have := respond_mid (r := r) h.mid hn hd
  exact this.rest (Link.Quiet.not_stuck h.quiet) h.seq h.motion

/-- A host transaction begun at rest, given that what is done at once for broadcast is in order. -/
theorem beginTxn_rest {fin : Result → State → State} {id op : Byte} {ps : List Byte} {rn : Nat}
    {w : Bool} {k : Cont} {s : State} (h : s.RestOk) (hrn : rn ≤ s.cfg.maxp)
    (hk : k = .host ∨ k = .hostMode2)
    (hfin : ∀ (r : Result) (t : State), t.cfg = s.cfg → t.RestOk → r.n = 0 → r.data = [] →
      (fin r t).MidOk) :
    (beginTxn fin id op ps rn w k s).MidOk := by
  have hafter : (afterFrame (frame id op ps) s).RestOk := by
    obtain ⟨⟨hp, hq, h1, h2, h3, h4, h5, h6, h7, h8, h9, h10⟩, hqu, hs, hm, ht⟩ := h
    exact ⟨⟨hp, hq, h1, h2, h3, h4, h5, h6, h7, h8, h9, h10⟩, hqu, hs, hm,
      ⟨ht.on_moving, ht.moving_on, ht.events, ht.counts, ht.running, ht.deadline, ht.expired, ht.hits⟩⟩
  rcases beginTxn_cases (fin := fin) (id := id) (op := op) (ps := ps) (rn := rn) (w := w) (k := k)
    h.quiet with ⟨-, e⟩ | ⟨h1, h2, hk'⟩
  · rw [e]
    split
    · obtain ⟨⟨hp, hq, h1, h2, h3, h4, h5, h6, h7, h8, h9, h10⟩, hqu, hs, hm, ht⟩ := hafter
      have hns : (settleFor rn k (afterFrame (frame id op ps) s)).stuck = false :=
        Link.Quiet.not_stuck (s := settleFor rn k (afterFrame (frame id op ps) s)) hqu
      refine ⟨⟨hp, hq, le_refl _, hrn, h3, h4, h5, h6, h7, h8, h9, h10⟩, by simp [hns],
        fun _ => ⟨hqu, ?_, ?_⟩⟩
      · refine ⟨fun _ => hp.settleTicks, fun _ => rfl, ?_, ?_, ?_, fun _ _ => hm, ?_⟩
        · intro _ h; rcases hk with rfl | rfl <;> simp at h
        · intro _ h; rcases hk with rfl | rfl <;> simp at h
        · intro _ h; rcases hk with rfl | rfl <;> simp at h
        · intro h; rw [settleFor_act, hm] at h; simp at h
      · refine ⟨ht.on_moving, ?_, ht.events, ht.counts, ht.running, ht.deadline, ht.expired, ht.hits⟩
        intro h
        simp only [State.moving, settleFor_act, hm] at h
        simp at h
    · exact hfin _ _ rfl hafter rfl rfl
  · exact ⟨h.always.send hk', fun _ => h2, fun h => by simp [h1] at h⟩

theorem completeHost_mid {r : Result} {s : State} (h : s.RestOk) (hn : r.n ≤ s.cfg.maxp)
    (hd : r.data.length ≤ s.cfg.maxp) : (completeHost r s).MidOk :=
  dispatch_mid (respond_rest h hn hd).mid

theorem contMode2_mid {r : Result} {s : State} (h : s.RestOk) (hn : r.n ≤ s.cfg.maxp)
    (hd : r.data.length ≤ s.cfg.maxp) : (contMode2 r s).MidOk := by
  unfold contMode2
  split
  · exact (respond_rest h hn hd).mid
  · refine beginTxn_rest h (Nat.zero_le _) (.inl rfl) ?_
    intro r t _ ht h1 h2
    exact completeHost_mid ht (by omega) (by simp [h2])

theorem contStart_mid {s : State} (ha : s.AlwaysOk) (hq : s.link.Quiet) (hs : s.codec.seq = .idle)
    (hm : s.moving) (hd : CtrlEv.deadline ∉ s.sup.evq) : (contStart s).MidOk := by
  have hns : (contStart s).stuck = false := Link.Quiet.not_stuck (s := contStart s) hq
  obtain ⟨hp, hqu, h1, h2, h3, h4, h5, h6, h7, h8, h9, h10⟩ := ha
  refine ⟨⟨hp, hqu, h1, h2, h3, h4, Nat.zero_le _, le_refl _, le_refl _, h8, h9, h10⟩, by simp [hns],
    fun _ => ⟨hq, ?_, ?_⟩⟩
  · constructor <;> simp only [contStart_codec, hs] <;> try simp
    rcases hm with hm | hm <;> simp [hm]
  · refine ⟨fun _ => hm, fun _ => .inl rfl, fun _ => rfl, fun _ => rfl, fun _ => hp.sampleTicks,
      fun _ h => ?_, fun h => absurd h hd, fun _ => hp.validCount⟩
    have := hp.timeoutTicks
    simp [contStart, startTimers] at h
    omega

/-- What a load read that completes finds (R248). -/
structure State.SampleOk (s : State) : Prop where
  always : s.AlwaysOk
  quiet : s.link.Quiet
  seq : s.codec.seq = .idle
  moving : s.moving
  timersOn : s.act.timersOn = true
  timers : s.TimersOk

theorem State.SampleOk.mid {s : State} (h : s.SampleOk) : s.MidOk := by
  have hns := Link.Quiet.not_stuck h.quiet
  refine ⟨h.always, by simp [hns], fun _ => ⟨h.quiet, ?_, h.timers⟩⟩
  constructor <;> simp only [h.seq] <;> try simp
  rcases h.moving with hm | hm <;> simp [hm]

theorem countHit_sample {hit : Bool} {s : State} (h : s.SampleOk)
    (hne : (countHit hit s).act.ovlCnt ≠ s.cfg.validCount) : (countHit hit s).SampleOk := by
  have hlt := h.timers.hits h.timersOn
  have hb : (countHit hit s).act.ovlCnt < s.cfg.validCount := by
    simp only [countHit] at hne ⊢
    split at hne <;> split <;> first | omega | simp_all
  obtain ⟨⟨hp, hq, h1, h2, h3, h4, h5, h6, h7, h8, h9, h10⟩, hqu, hs, hm, hon, ht⟩ := h
  exact ⟨⟨hp, hq, h1, h2, h3, h4, hb.le, h6, h7, h8, h9, h10⟩, hqu, hs, hm, hon,
    ⟨ht.on_moving, ht.moving_on, ht.events, ht.counts, ht.running, ht.deadline, ht.expired, fun _ => hb⟩⟩

theorem contSample_mid {r : Result} {s : State} (h : s.SampleOk) : (contSample r s).MidOk := by
  unfold contSample
  split
  · split
    · rename_i heq
      refine confirmStall_mid ?_ h.quiet
      obtain ⟨hp, hq, h1, h2, h3, h4, h5, h6, h7, h8, h9, h10⟩ := h.always
      exact ⟨hp, hq, h1, h2, h3, h4, heq.le, h6, h7, h8, h9, h10⟩
    · rename_i hne
      exact (countHit_sample h hne).mid
  · exact h.mid

theorem leaveEmergency_rest {s : State} (ha : s.AlwaysOk) (hq : s.link.Quiet)
    (hs : s.codec.seq = .idle) (hm : s.act.motion = .emergency) (ht : s.TimersOk) :
    (leaveEmergency s).RestOk := by
  obtain ⟨hp, hqu, h1, h2, h3, h4, h5, h6, h7, h8, h9, h10⟩ := ha
  have hoff : s.act.timersOn = false := not_moving_off ht (by simp [State.moving, hm])
  refine ⟨⟨hp, hqu, h1, h2, h3, h4, h5, h6, h7, h8, h9, h10⟩, hq, hs, rfl, ?_⟩
  refine ⟨by simp [hoff], by simp [State.moving], ht.events, ht.counts, ht.running, ht.deadline, ht.expired, ht.hits⟩

/-- What a result may carry (R101, R164). -/
theorem decodeReply_bounds (expN rdN : Nat) (eo : Bool) (r : List Byte) :
    (decodeReply expN rdN eo r).n ≤ rdN ∧ (decodeReply expN rdN eo r).data.length ≤ rdN := by
  have h : validCountOf rdN r ≤ rdN := Nat.min_le_right _ _
  constructor
  · exact h
  · simp [decodeReply]; omega

theorem replyResult_bounds (c : Codec) (r : List Byte) :
    (replyResult c r).n ≤ c.rdN ∧ (replyResult c r).data.length ≤ c.rdN := by
  unfold replyResult
  split
  · simp [noReplyResult]
  · exact decodeReply_bounds _ _ _ _

/-- The settle interval ends and the transaction completes: whatever the reply, and whatever the read left
in the capture queue. -/
theorem finishTxn_mid {r : List Byte} {s t : State} (h : s.MidOk) (hns : s.stuck = false)
    (hseq : s.codec.seq = .settle)
    (hl : t.link.Quiet) (hb : ∃ bs, t.link.Holds s.cfg.rxqDepth bs) (hcfg : t.cfg = s.cfg)
    (hcnt : t.codec.settleCnt ≤ s.codec.settleCnt) (hrd : t.codec.rdN = s.codec.rdN)
    (hco : t.codec.cont = s.codec.cont) (hrs : t.rsp = s.rsp) (hac : t.act = s.act)
    (hsu : t.sup = s.sup) : (finishTxn r t).MidOk := by
  have hlive := h.live hns
  have htx := hlive.txn
  have hti := hlive.timers
  apply dispatch_mid
  obtain ⟨u, hu⟩ : ∃ u, u = { t with codec := { t.codec with seq := .idle } } := ⟨_, rfl⟩
  rw [← hu]
  have hua : u.AlwaysOk := by
    obtain ⟨hp, hq, h1, h2, h3, h4, h5, h6, h7, h8, h9, h10⟩ := h.always
    subst hu
    refine ⟨by simpa [hcfg] using hp, by simpa [hcfg] using hb, ?_⟩
    constructor <;> simp only [hcfg, hrd, hrs, hac, hsu] <;> first | assumption | omega
  have hus : u.codec.seq = .idle := by rw [hu]
  have huq : u.link.Quiet := by rw [hu]; exact hl
  have hum : u.act = s.act := by rw [hu]; exact hac
  have hut : (s.moving → s.act.timersOn = true) → u.TimersOk := by
    intro hmo
    subst hu
    refine ⟨?_, ?_, ?_, ?_, ?_, ?_, ?_, ?_⟩ <;> simp only [State.moving, hac, hsu, hcfg]
    · exact hti.on_moving
    · exact fun hm => .inl (hmo hm)
    · exact hti.events
    · exact hti.counts
    · exact hti.running
    · exact hti.deadline
    · exact hti.expired
    · exact hti.hits
  have hmoving : s.codec.cont ≠ .start → s.moving → s.act.timersOn = true := by
    intro hne hm
    rcases hti.moving_on hm with h | ⟨-, h⟩
    · exact h
    · exact absurd h hne
  have hbnd := replyResult_bounds t.codec r
  have hmaxp : t.codec.rdN ≤ u.cfg.maxp := by
    have := h.always.ranges.rdN
    rw [hrd]; subst hu; simpa [hcfg] using this
  rw [hco]
  cases hc : s.codec.cont with
  | host =>
    have hm := htx.other hseq (.inl hc)
    exact (respond_rest ⟨hua, huq, hus, by rw [hum]; exact hm, hut (hmoving (by simp [hc]))⟩
      (by omega) (by omega)).mid
  | hostMode2 =>
    have hm := htx.other hseq (.inr (.inl hc))
    exact contMode2_mid ⟨hua, huq, hus, by rw [hum]; exact hm, hut (hmoving (by simp [hc]))⟩
      (by omega) (by omega)
  | start =>
    obtain ⟨hm, hoff⟩ := htx.start hseq hc
    refine contStart_mid hua huq hus (by simpa [State.moving, hum] using hm) (fun hd => ?_)
    rw [hu] at hd
    simp only [hsu] at hd
    simp [hti.events (.inr hd)] at hoff
  | sample =>
    obtain ⟨hm, hon, -⟩ := htx.sample hseq hc
    refine contSample_mid ⟨hua, huq, hus, ?_, by rw [hum]; exact hon, hut (fun _ => hon)⟩
    simpa [State.moving, hum] using hm
  | stop =>
    have hm := htx.other hseq (.inr (.inr hc))
    exact State.RestOk.mid (s := u) ⟨hua, huq, hus, by rw [hum]; exact hm, hut (hmoving (by simp [hc]))⟩
  | emerg =>
    have hm := htx.emerg hseq hc
    exact (leaveEmergency_rest hua huq hus (by rw [hum]; exact hm)
      (hut (hmoving (by simp [hc])))).mid

/-! ### The parts of a tick -/

/-- Part (d) of a tick, in a state that is not stuck. -/
theorem settlePart_mid {s : State} (h : s.MidOk) (hns : s.stuck = false) : (settlePart s).MidOk := by
  unfold settlePart
  split
  · rename_i hseq
    have hl := h.live hns
    have hfr := Link.takeBytes_frame s.cfg.rxqDepth s.codec.expN s.link
    split
    · obtain ⟨bs, hb⟩ := h.always.queue
      have hb' := hb.takeBytes s.codec.expN
      refine finishTxn_mid h hns hseq ?_ ⟨_, hb'.2⟩ rfl (Nat.sub_le _ _) rfl rfl rfl rfl rfl
      exact ⟨hfr.2.1.trans hl.quiet.irqEn, hfr.2.2.1.trans hl.quiet.lineDir,
        hfr.2.2.2.1.trans hl.quiet.hwRx⟩
    · rename_i hne
      obtain ⟨⟨hp, hq, h1, h2, h3, h4, h5, h6, h7, h8, h9, h10⟩, hm, -⟩ := h
      refine ⟨⟨hp, hq, (Nat.sub_le _ _).trans h1, h2, h3, h4, h5, h6, h7, h8, h9, h10⟩, hm,
        fun _ => ⟨hl.quiet, ?_, ?_⟩⟩
      · have ht := hl.txn
        exact ⟨fun _ => Nat.one_le_iff_ne_zero.mpr hne, ht.count, ht.start, ht.sample, ht.emerg,
          ht.other, ht.inEmergency⟩
      · have ht := hl.timers
        exact ⟨ht.on_moving, ht.moving_on, ht.events, ht.counts, ht.running, ht.deadline, ht.expired, ht.hits⟩
  · exact h

theorem enqueue_mem (e d : CtrlEv) (s : State) :
    d ∈ (enqueue e s).sup.evq ↔ d ∈ s.sup.evq ∨ d = e := by
  simp only [enqueue]
  split <;> simp_all

theorem enqueue_nodup {e : CtrlEv} {s : State} (h : s.sup.evq.Nodup) :
    (enqueue e s).sup.evq.Nodup := by
  simp only [enqueue]
  split
  · exact h
  · rename_i hne
    rw [List.nodup_append]
    refine ⟨h, by simp, ?_⟩
    intro a ha c hc hac
    rw [List.mem_singleton.mp hc] at hac
    exact hne (hac ▸ ha)

/-- An event enqueued; a timer event only while the timers run (R228, R267). -/
theorem enqueue_mid {e : CtrlEv} {s : State} (h : s.MidOk)
    (he : e = .sample ∨ e = .deadline → s.act.timersOn = true) (hd : e ≠ .deadline) :
    (enqueue e s).MidOk := by
  obtain ⟨⟨hp, hq, h1, h2, h3, h4, h5, h6, h7, h8, h9, h10⟩, hm, hl⟩ := h
  refine ⟨⟨hp, hq, h1, h2, h3, h4, h5, h6, h7, enqueue_nodup h8, h9, h10⟩, hm, fun hs => ?_⟩
  obtain ⟨hqu, ht, hi⟩ := hl hs
  refine ⟨hqu, ⟨ht.settle, ht.count, ht.start, ht.sample, ht.emerg, ht.other, ht.inEmergency⟩,
    ⟨hi.on_moving, hi.moving_on, ?_, hi.counts, hi.running, ?_, ?_, hi.hits⟩⟩
  · simp only [enqueue_mem]
    rintro ((h | h) | (h | h))
    · exact hi.events (.inl h)
    · exact he (.inl h.symm)
    · exact hi.events (.inr h)
    · exact he (.inr h.symm)
  · intro hon h0
    rw [enqueue_mem]
    exact .inl (hi.deadline hon h0)
  · rw [enqueue_mem]
    rintro (h | h)
    · exact hi.expired h
    · exact absurd h.symm hd

theorem enqueueIf_mid {q : Bool} {e : CtrlEv} {s : State} (h : s.MidOk)
    (he : q = true → e = .sample ∨ e = .deadline → s.act.timersOn = true) (hd : e ≠ .deadline) :
    (enqueueIf q e s).MidOk := by
  unfold enqueueIf
  split
  · exact enqueue_mid h (he ‹_›) hd
  · exact h

/-- Part (a) of a tick. -/
theorem deadlinePart_mid {s : State} (h : s.MidOk) (hns : s.stuck = false) :
    (deadlinePart s).MidOk := by
  unfold deadlinePart
  split
  · rename_i hon
    have hl := h.live hns
    obtain ⟨⟨hp, hq, h1, h2, h3, h4, h5, h6, h7, h8, h9, h10⟩, hm, -⟩ := h
    have hle : s.act.deadlineCnt - 1 ≤ s.cfg.timeoutTicks := (Nat.sub_le _ _).trans h6
    have ht := hl.txn
    have hi := hl.timers
    split
    · rename_i h0
      refine ⟨⟨hp, hq, h1, h2, h3, h4, h5, hle, h7, enqueue_nodup h8, h9, h10⟩, hm,
        fun _ => ⟨hl.quiet, ⟨ht.settle, ht.count, ht.start, ht.sample, ht.emerg, ht.other,
          ht.inEmergency⟩, ⟨hi.on_moving, hi.moving_on, fun _ => hon.1, fun _ => hon.1, hi.running,
            fun _ _ => ?_, fun _ => h0, hi.hits⟩⟩⟩
      rw [enqueue_mem]
      exact .inr rfl
    · rename_i h0
      refine ⟨⟨hp, hq, h1, h2, h3, h4, h5, hle, h7, h8, h9, h10⟩, hm,
        fun _ => ⟨hl.quiet, ⟨ht.settle, ht.count, ht.start, ht.sample, ht.emerg, ht.other,
          ht.inEmergency⟩, ⟨hi.on_moving, hi.moving_on, hi.events, fun _ => hon.1, hi.running,
            fun _ h => absurd h h0, fun h => ?_, hi.hits⟩⟩⟩
      have := hi.expired h
      omega
  · exact h

theorem Button.Ok.tick {hold : Nat} {b : Button} (h : b.Ok hold) : (b.tick hold).Ok hold := by
  unfold Button.tick
  split
  · rename_i hc
    simp only [Button.counting, Bool.and_eq_true, Bool.not_eq_true'] at hc
    have := h.pending hc.1 hc.2
    refine ⟨fun hf => by simp [hc.1] at hf, this, ?_⟩
    intro _ hf
    simpa using hf
  · exact h

theorem Button.Ok.press {hold : Nat} {b : Button} (h : b.Ok hold) : (b.press hold).Ok hold := by
  unfold Button.press
  split
  · exact h
  · refine ⟨by simp, by simp, ?_⟩
    intro _ hf
    have : hold ≠ 0 := by simpa using hf
    show 0 < hold
    omega

theorem Button.Ok.release {hold : Nat} {b : Button} (h : b.Ok hold) : b.release.Ok hold := by
  unfold Button.release
  split
  · exact ⟨by simp, by simp, by simp⟩
  · exact h

theorem withOpenBtn_mid {b : Button} {s : State} (h : s.MidOk) (hb : b.Ok s.cfg.holdTicks) :
    (withOpenBtn b s).MidOk := by
  obtain ⟨⟨hp, hq, h1, h2, h3, h4, h5, h6, h7, h8, h9, h10⟩, hm, hl⟩ := h
  refine ⟨⟨hp, hq, h1, h2, h3, h4, h5, h6, h7, h8, hb, h10⟩, hm, fun hs => ?_⟩
  obtain ⟨hqu, ht, hi⟩ := hl hs
  exact ⟨hqu, ⟨ht.settle, ht.count, ht.start, ht.sample, ht.emerg, ht.other, ht.inEmergency⟩,
    ⟨hi.on_moving, hi.moving_on, hi.events, hi.counts, hi.running, hi.deadline, hi.expired, hi.hits⟩⟩

theorem withCloseBtn_mid {b : Button} {s : State} (h : s.MidOk) (hb : b.Ok s.cfg.holdTicks) :
    (withCloseBtn b s).MidOk := by
  obtain ⟨⟨hp, hq, h1, h2, h3, h4, h5, h6, h7, h8, h9, h10⟩, hm, hl⟩ := h
  refine ⟨⟨hp, hq, h1, h2, h3, h4, h5, h6, h7, h8, h9, hb⟩, hm, fun hs => ?_⟩
  obtain ⟨hqu, ht, hi⟩ := hl hs
  exact ⟨hqu, ⟨ht.settle, ht.count, ht.start, ht.sample, ht.emerg, ht.other, ht.inEmergency⟩,
    ⟨hi.on_moving, hi.moving_on, hi.events, hi.counts, hi.running, hi.deadline, hi.expired, hi.hits⟩⟩

/-- Part (b) of a tick. -/
theorem holdPart_mid {s : State} (h : s.MidOk) : (holdPart s).MidOk := by
  have hc : (holdClose s).MidOk :=
    enqueueIf_mid (withCloseBtn_mid h h.always.ranges.closeBtn.tick) (by simp) (by simp)
  exact enqueueIf_mid (withOpenBtn_mid hc hc.always.ranges.openBtn.tick) (by simp) (by simp)

theorem enqueueIf_stuck (q : Bool) (e : CtrlEv) (s : State) :
    (enqueueIf q e s).stuck = s.stuck := by
  unfold enqueueIf
  split <;> rfl

theorem holdPart_stuck (s : State) : (holdPart s).stuck = s.stuck := by
  unfold holdPart holdOpen holdClose
  rw [enqueueIf_stuck]
  show (enqueueIf _ _ _).stuck = _
  rw [enqueueIf_stuck]
  rfl

theorem deadlinePart_stuck (s : State) : (deadlinePart s).stuck = s.stuck := by
  unfold deadlinePart
  split <;> try split
  all_goals rfl

/-- Part (c) of a tick. -/
theorem samplePart_mid {s : State} (h : s.MidOk) (hns : s.stuck = false) : (samplePart s).MidOk := by
  unfold samplePart
  split
  · rename_i hon
    refine enqueueIf_mid ?_ (fun _ _ => hon) (by simp)
    have hl := h.live hns
    obtain ⟨⟨hp, hq, h1, h2, h3, h4, h5, h6, h7, h8, h9, h10⟩, hm, -⟩ := h
    have ht := hl.txn
    have hi := hl.timers
    refine ⟨⟨hp, hq, h1, h2, h3, h4, h5, h6, ?_, h8, h9, h10⟩, hm,
      fun _ => ⟨hl.quiet, ⟨ht.settle, ht.count, ht.start, ht.sample, ht.emerg, ht.other,
        ht.inEmergency⟩, ⟨hi.on_moving, hi.moving_on, hi.events, fun _ => hon, fun _ => ?_,
          hi.deadline, hi.expired, hi.hits⟩⟩⟩
    · simp only [countSample]
      split <;> omega
    · have := hp.sampleTicks
      simp only [countSample]
      split <;> omega
  · exact h

theorem samplePart_stuck (s : State) : (samplePart s).stuck = s.stuck := by
  unfold samplePart
  split
  · rw [enqueueIf_stuck]; rfl
  · rfl

theorem countParts_stuck (s : State) : (countParts s).stuck = s.stuck := by
  rw [countParts, samplePart_stuck, holdPart_stuck, deadlinePart_stuck]

/-- Parts (a) to (c) of a tick. -/
theorem countParts_mid {s : State} (h : s.MidOk) (hns : s.stuck = false) : (countParts s).MidOk :=
  samplePart_mid (holdPart_mid (deadlinePart_mid h hns))
    (by rw [holdPart_stuck, deadlinePart_stuck]; exact hns)

/-- A whole tick. -/
theorem tickEvent_mid {s : State} (h : s.MidOk) (hns : s.stuck = false) : (tickEvent s).MidOk :=
  dispatch_mid (settlePart_mid (countParts_mid h hns) (by rw [countParts_stuck]; exact hns))

/-! ### Commands -/

/-- What can follow the acceptance of a command: the refusal, or its rule in a block at rest (R98). -/
theorem accept_cases (tests : List (Bool × Reason)) (body : State → State) (s : State) :
    (∃ why, accept tests body s = refuse why s) ∨
      (s.busy = false ∧ tests.all (fun t => !t.1) = true ∧ accept tests body s = body s) := by
  unfold accept
  cases hf : firstRefusal s tests with
  | some why => exact .inl ⟨why, rfl⟩
  | none =>
    right
    simp only [firstRefusal, Option.map_eq_none_iff, List.find?_eq_none, List.mem_cons] at hf
    refine ⟨by simpa using hf (s.busy, .busy) (.inl rfl), ?_, rfl⟩
    rw [List.all_eq_true]
    intro t ht
    simpa using hf t (.inr ht)

theorem busy_false_iff (s : State) :
    s.busy = false ↔ s.codec.seq = .idle ∧ s.act.motion = .idle := by
  simp [State.busy, busyFlag]

theorem refuse_mid {why : Reason} {s : State} (h : s.MidOk) : (refuse why s).MidOk :=
  respond_mid h (Nat.zero_le _) (Nat.zero_le _)

/-- A command keeps the parts of the invariant when its rule does so in a block at rest. -/
theorem accept_mid {tests : List (Bool × Reason)} {body : State → State} {s : State} (h : s.MidOk)
    (hns : s.stuck = false)
    (hbody : s.RestOk → tests.all (fun t => !t.1) = true → (body s).MidOk) :
    (accept tests body s).MidOk := by
  rcases accept_cases tests body s with ⟨why, e⟩ | ⟨hb, ht, e⟩
  · rw [e]; exact refuse_mid h
  · rw [e]
    obtain ⟨h1, h2⟩ := (busy_false_iff s).mp hb
    exact hbody (h.rest hns h1 h2) ht

theorem hostWrite_mid {op id addr : Byte} {data : List Byte} {s : State} (h : s.RestOk) :
    (hostWrite op id addr data s).MidOk := by
  refine beginTxn_rest h (Nat.zero_le _) (.inl rfl) ?_
  intro r t _ ht h1 h2
  exact completeHost_mid ht (by omega) (by simp [h2])

theorem hostRead_mid {id addr n : Byte} {s : State} (h : s.RestOk) (hn : n.toNat ≤ s.cfg.maxp) :
    (hostRead id addr n s).MidOk := by
  refine beginTxn_rest h hn (.inl rfl) ?_
  intro r t _ ht h1 h2
  exact completeHost_mid ht (by omega) (by simp [h2])

theorem action_mid {id : Byte} {s : State} (h : s.RestOk) :
    (beginTxn (complete .host) id opRegwrite [] 0 false .host s).MidOk := by
  refine beginTxn_rest h (Nat.zero_le _) (.inl rfl) ?_
  intro r t _ ht h1 h2
  exact completeHost_mid ht (by omega) (by simp [h2])

theorem beginModeCont_mid {id : Byte} {s : State} (h : s.RestOk) : (beginModeCont id s).MidOk := by
  have h' : (setHostId id s).RestOk := by
    obtain ⟨⟨hp, hq, h1, h2, h3, h4, h5, h6, h7, h8, h9, h10⟩, hqu, hs, hm, ht⟩ := h
    exact ⟨⟨hp, hq, h1, h2, h3, h4, h5, h6, h7, h8, h9, h10⟩, hqu, hs, hm,
      ⟨ht.on_moving, ht.moving_on, ht.events, ht.counts, ht.running, ht.deadline, ht.expired, ht.hits⟩⟩
  refine beginTxn_rest h' (Nat.zero_le _) (.inr rfl) ?_
  intro r t _ ht h1 h2
  exact dispatch_mid (contMode2_mid ht (by omega) (by simp [h2]))

theorem sendCommand_mid {b : Byte} {s : State} (h : s.RestOk) : (sendCommand b s).MidOk := by
  unfold sendCommand
  cases he : (drawEcho b s.ports.echoes).1 with
  | none =>
    rw [sendByte_none he]
    have hk := sendByte_keeps b s
    rw [sendByte_none he] at hk
    exact ⟨h.always.send hk, fun _ => rfl, fun hs => by simp [State.stuck] at hs⟩
  | some e =>
    have hk := sendByte_keeps b s
    rw [sendByte_quiet h.quiet he] at hk ⊢
    have hp := h.always.params.maxpLow
    have ht := h.timers
    refine (respond_rest ⟨h.always.send hk, h.quiet, h.seq, h.motion, ?_⟩ ?_ ?_).mid
    · exact ⟨ht.on_moving, ht.moving_on, ht.events, ht.counts, ht.running, ht.deadline, ht.expired, ht.hits⟩
    all_goals simp only [transportResult, List.length_singleton]; omega

/-- The link replaced by a quiet one that holds some bytes. -/
theorem withLink_rest {l : Link} {s : State} (h : s.RestOk) (hq : l.Quiet)
    (hb : ∃ bs, l.Holds s.cfg.rxqDepth bs) : ({ s with link := l } : State).RestOk := by
  obtain ⟨⟨hp, -, h1, h2, h3, h4, h5, h6, h7, h8, h9, h10⟩, -, hs, hm, ht⟩ := h
  exact ⟨⟨hp, hb, h1, h2, h3, h4, h5, h6, h7, h8, h9, h10⟩, hq, hs, hm,
    ⟨ht.on_moving, ht.moving_on, ht.events, ht.counts, ht.running, ht.deadline, ht.expired, ht.hits⟩⟩

theorem rxByte_mid {s : State} (h : s.RestOk) :
    (respond (transportResult (slotData (s.link.receiveByte s.cfg.rxqDepth).1) true)
      { s with link := (s.link.receiveByte s.cfg.rxqDepth).2 }).MidOk := by
  have hp := h.always.params.maxpLow
  have hfr := Link.receiveByte_frame s.cfg.rxqDepth s.link
  have hlen : ∀ v, (slotData v).length ≤ 1 := by
    intro v; unfold slotData; split <;> simp
  have hl := hlen (s.link.receiveByte s.cfg.rxqDepth).1
  refine (respond_rest (withLink_rest h ?_ ?_) ?_ ?_).mid
  · exact ⟨hfr.2.1.trans h.quiet.irqEn, hfr.2.2.1.trans h.quiet.lineDir,
      hfr.2.2.2.1.trans h.quiet.hwRx⟩
  · obtain ⟨bs, hb⟩ := h.always.queue
    cases bs with
    | nil => exact ⟨[], by rw [hb.receive_nil]; exact hb⟩
    | cons b bs => exact ⟨bs, hb.receive_cons.2⟩
  all_goals simp only [transportResult]; omega

theorem reinit_mid {baud : Nat} {s : State} (h : s.RestOk) :
    (respond (transportResult [] true) (s.onLink (Link.rebuild s.cfg.rxqDepth baud))).MidOk := by
  have hp := h.always.params.rxqDepth
  refine (respond_rest (withLink_rest h ⟨rfl, rfl, rfl⟩ ⟨[], Link.rebuild_holds _ _ _ (by omega)⟩)
    (Nat.zero_le _) (Nat.zero_le _)).mid

/-- An event kept in the stuck state and run in any other (R123). -/
theorem live_mid {f : State → State} {s t : State} (h : s.MidOk)
    (hf : s.stuck = false → (f s).MidOk) (he : live f s = .next t) : t.MidOk := by
  unfold live at he
  simp only [Host.Outcome.next.injEq] at he
  subst he
  by_cases hs : s.stuck = true
  · rw [if_pos hs]; exact h
  · rw [if_neg hs]; exact hf (by simpa using hs)

theorem command_mid {tests : List (Bool × Reason)} {body : State → State} {s t : State} (h : s.MidOk)
    (hbody : s.RestOk → tests.all (fun t => !t.1) = true → (body s).MidOk)
    (he : command tests body s = .next t) : t.MidOk :=
  live_mid h (fun hns => accept_mid h hns hbody) he

/-! ### The other external events -/

theorem arrive_mid {b : Byte} {s : State} (h : s.MidOk) (hns : s.stuck = false) :
    (s.onLink (Link.arrive s.cfg.rxqDepth b)).MidOk := by
  have hl := h.live hns
  obtain ⟨⟨hp, ⟨bs, hb⟩, h1, h2, h3, h4, h5, h6, h7, h8, h9, h10⟩, hm, -⟩ := h
  have he := Link.arrive_eq hl.quiet s.cfg.rxqDepth b
  have hfr := Link.capture_frame s.cfg.rxqDepth s.link b
  have hqu : (s.link.arrive s.cfg.rxqDepth b).Quiet := by
    rw [he]
    exact ⟨hfr.2.1.trans hl.quiet.irqEn, hfr.2.2.1.trans hl.quiet.lineDir,
      hfr.2.2.2.1.trans hl.quiet.hwRx⟩
  have hns' := Link.Quiet.not_stuck (s := s.onLink (Link.arrive s.cfg.rxqDepth b)) hqu
  refine ⟨⟨hp, ?_, h1, h2, h3, h4, h5, h6, h7, h8, h9, h10⟩, by simp [hns'], fun _ => ⟨hqu, ?_, ?_⟩⟩
  · have hc := hb.capture b
    rw [← he] at hc
    exact ⟨_, hc⟩
  · have ht := hl.txn
    exact ⟨ht.settle, ht.count, ht.start, ht.sample, ht.emerg, ht.other, ht.inEmergency⟩
  · have hi := hl.timers
    exact ⟨hi.on_moving, hi.moving_on, hi.events, hi.counts, hi.running, hi.deadline, hi.expired, hi.hits⟩

theorem pressOpen_mid {s : State} (h : s.MidOk) : (pressOpen s).MidOk :=
  enqueueIf_mid (withOpenBtn_mid h h.always.ranges.openBtn.press) (by simp) (by simp)

theorem pressClose_mid {s : State} (h : s.MidOk) : (pressClose s).MidOk :=
  enqueueIf_mid (withCloseBtn_mid h h.always.ranges.closeBtn.press) (by simp) (by simp)

theorem releaseOpen_mid {s : State} (h : s.MidOk) :
    (withOpenBtn s.sup.openBtn.release s).MidOk :=
  withOpenBtn_mid h h.always.ranges.openBtn.release

theorem releaseClose_mid {s : State} (h : s.MidOk) :
    (withCloseBtn s.sup.closeBtn.release s).MidOk :=
  withCloseBtn_mid h h.always.ranges.closeBtn.release

/-- Every field at its reset value, on an instance whose parameters are valid (R9, R320). -/
theorem resetWith_mid {p : Params} (hp : p.Valid) (io : Ports) : (State.resetWith p io).MidOk := by
  have hd := hp.rxqDepth
  refine ⟨⟨hp, ⟨[], Link.holds_empty (by show 0 < p.rxqDepth; omega) rfl rfl rfl⟩, ?_⟩,
    fun h => by simp [State.stuck, State.resetWith, Link.fresh] at h, fun _ => ⟨⟨rfl, rfl, rfl⟩, ?_, ?_⟩⟩
  · constructor <;> simp [State.resetWith, Button.released] <;>
      exact ⟨by simp, by simp, by simp⟩
  · constructor <;> simp [State.resetWith]
  · constructor <;> simp [State.resetWith, State.moving]

end Sys2Proof.Machine
end

