-- ==== Sys2Proof/Laws/Commands.lean ====
section
/-! SUPPORT. What the commands and the completions can do in a block at rest, in the terms of `Safety.lean`
(R98, R101, R159, R168). -/

namespace Sys2Proof.Machine

/-- A frame sent with its settle interval begun, in the terms of the statements. -/
theorem settleFor_afterFrame (rn : Nat) (k : Cont) (bytes : List Byte) (s : State) :
    settleFor rn k (afterFrame bytes s) = afterWait bytes rn k s := rfl

/-- A response whose count is the length of its data, in the terms of the statements. -/
theorem respond_eq (st : Status) (err : Byte) (data : List Byte) (eo ck : Bool) (s : State) :
    respond ⟨st, err, data.length, data, eo, ck⟩ s = answered st err data eo ck s := rfl

theorem refuse_eq (why : Reason) (s : State) :
    refuse why s = answered .refused why.code [] true false s := rfl

theorem respond_noWait (eo : Bool) (s : State) :
    respond (noWaitResult eo) s = answered .noWait 0x00 [] eo false s := rfl

theorem respond_transport (data : List Byte) (eo : Bool) (s : State) :
    respond (transportResult data eo) s = answered .noWait 0x00 data eo false s := rfl

theorem State.AtRest.not_busy {s : State} (h : s.AtRest) : s.busy = false :=
  (busy_false_iff s).mpr ⟨h.seq, h.motion⟩

theorem State.AtRest.not_stuck {s : State} (h : s.AtRest) : s.stuck = false :=
  Link.Quiet.not_stuck h.quiet

/-- A command of a block that is not stuck is its acceptance (R98). -/
theorem command_live {tests : List (Bool × Reason)} {body : State → State} {s : State}
    (h : s.stuck = false) : command tests body s = .next (accept tests body s) := by
  simp [command, live, h]

/-- A command none of whose tests fails is carried out (R98). -/
theorem command_accepted {tests : List (Bool × Reason)} {body : State → State} {s : State}
    (h : s.AtRest) (ht : tests.find? (fun t => t.1) = none) :
    command tests body s = .next (body s) := by
  rw [command_live h.not_stuck]
  simp [accept, firstRefusal, h.not_busy, ht]

/-- A command is refused with the reason of the first test that fails (R98). -/
theorem command_refused {tests : List (Bool × Reason)} {body : State → State} {s : State}
    {why : Reason} {b : Bool} (h : s.AtRest)
    (ht : tests.find? (fun t => t.1) = some (b, why)) :
    command tests body s = .next (answered .refused why.code [] true false s) := by
  rw [command_live h.not_stuck, ← refuse_eq]
  simp [accept, firstRefusal, h.not_busy, ht]

/-- A busy block refuses, whatever the tests (R98 (1)). -/
theorem command_busy {tests : List (Bool × Reason)} {body : State → State} {s : State}
    (hs : s.stuck = false) (hb : s.busy = true) :
    command tests body s = .next (answered .refused 0x01 [] true false s) := by
  rw [command_live hs]
  simp only [accept, firstRefusal, hb, List.find?_cons_of_pos, Option.map_some]
  rfl

/-- The whole of a host write in a block at rest with nothing pending (R159, R168). -/
theorem hostWrite_rest {op id addr : Byte} {data : List Byte} {s : State} (h : s.AtRest)
    (he : s.sup.evq = []) (hp : EchoPresent (data.length + 7) s) :
    hostWrite op id addr data s = hostWritten op id (addr :: data) s := by
  unfold hostWrite hostWritten
  rw [beginTxn_quiet h.quiet (by simpa [Nat.add_assoc] using hp)]
  by_cases hid : id = 0xFE
  · rw [if_neg (by simp [hid, broadcastId]), if_pos hid]
    exact dispatch_nil (s := respond _ _) he
  · rw [if_pos (by simpa [broadcastId] using hid), if_neg hid, settleFor_afterFrame]

/-- The whole of a host read in a block at rest (R159, R170). -/
theorem hostRead_rest {id addr n : Byte} {s : State} (h : s.AtRest) (hp : EchoPresent 8 s) :
    hostRead id addr n s = afterWait (frame id opRead [addr, n]) n.toNat .host s := by
  unfold hostRead
  rw [beginTxn_quiet h.quiet (by simpa using hp), if_pos rfl, settleFor_afterFrame]

/-! ### Completions -/

theorem finishTxn_eq (r : List Byte) (s : State) :
    finishTxn r s = dispatch (continueWith s.codec.cont (replyResult s.codec r)
      { s with codec := { s.codec with seq := .idle } }) := rfl

/-- A status packet in its turn completes the transaction (R166). -/
theorem execPktStatus_turn {r : List Byte} {s : State} (hns : s.stuck = false)
    (hs : s.codec.seq = .settle) (hc : s.codec.settleCnt = 0) :
    execPktStatus r s = .next (finishTxn r s) := by
  simp [execPktStatus, live, hns, takeReply, hs, hc]

/-- A status packet out of its turn is not taken (R161). -/
theorem execPktStatus_out {r : List Byte} {s : State}
    (h : s.codec.seq = .idle ∨ 1 ≤ s.codec.settleCnt) : execPktStatus r s = .next s := by
  have hn : ¬ (s.codec.seq = .settle ∧ s.codec.settleCnt = 0) := by
    rintro ⟨h1, h2⟩
    rcases h with h | h
    · simp [h1] at h
    · omega
  simp [execPktStatus, live, takeReply, hn]

/-- A reply of the length expected is decoded (R164). -/
theorem replyResult_full {c : Codec} {r : List Byte} (h : r.length = c.expN) :
    replyResult c r = decodeReply c.expN c.rdN c.echoOk r := by
  rw [replyResult, if_neg (by omega), ← h, List.take_length]

theorem replyResult_short {c : Codec} {r : List Byte} (h : r.length < c.expN) :
    replyResult c r = noReplyResult c.echoOk := if_pos h

/-- No more than the bytes expected are looked at (R163). -/
theorem replyResult_take {c : Codec} {r : List Byte} (h : c.expN ≤ r.length) :
    replyResult c (r.take c.expN) = replyResult c r := by
  have hl : (r.take c.expN).length = c.expN := by simp [h]
  rw [replyResult_full hl, replyResult, if_neg (by omega)]

end Sys2Proof.Machine
end

