-- ==== Sys2Proof/Laws/Controller.lean ====
section
/-! SUPPORT. What the Controller's transactions can do on a quiet line, in the terms of `Safety.lean`: the
beginning of a motion, the emergency path, the load read and its continuation (R233, R240 to R250). -/

namespace Sys2Proof.Machine

/-! ### The speed word and the timers -/

theorem speedParams_opening (p : Params) :
    p.aSpeed :: wordBytes (motionWord p .opening) = speedParams p .opening := by
  have h2 := p.speedOpenMag.isLt
  have : (openSpeedWord p).toNat = p.openDir.toNat * 1024 + p.speedOpenMag.toNat := by
    unfold openSpeedWord speedWord
    rw [BitVec.toNat_append, BitVec.toNat_append, ← Nat.shiftLeft_add_eq_or_of_lt h2]
    simp [Nat.shiftLeft_eq]
  simp only [speedParams, motionWord, if_true, wordBytes, lowByte, highByte, List.cons.injEq, true_and,
    and_true]
  refine ⟨?_, ?_⟩ <;> apply BitVec.eq_of_toNat_eq <;>
    simp [BitVec.extractLsb'_toNat, this, Nat.shiftRight_eq_div_pow]

theorem speedParams_closing (p : Params) :
    p.aSpeed :: wordBytes (motionWord p .closing) = speedParams p .closing := by
  have h2 := p.speedCloseMag.isLt
  have h3 : (1#1 - p.openDir).toNat = 1 - p.openDir.toNat := by
    generalize p.openDir = d
    revert d
    decide
  have : (closeSpeedWord p).toNat = (1 - p.openDir.toNat) * 1024 + p.speedCloseMag.toNat := by
    unfold closeSpeedWord speedWord
    rw [BitVec.toNat_append, BitVec.toNat_append, ← Nat.shiftLeft_add_eq_or_of_lt h2, h3]
    simp [Nat.shiftLeft_eq]
  simp only [speedParams, motionWord, wordBytes, lowByte, highByte, List.cons.injEq, true_and, and_true,
    reduceCtorEq, if_false]
  refine ⟨?_, ?_⟩ <;> apply BitVec.eq_of_toNat_eq <;>
    simp [BitVec.extractLsb'_toNat, this, Nat.shiftRight_eq_div_pow]

/-- The bytes a motion writes to the speed item (R240). -/
theorem speedParams_eq {p : Params} {m : Motion} (h : m = .opening ∨ m = .closing) :
    p.aSpeed :: wordBytes (motionWord p m) = speedParams p m := by
  rcases h with rfl | rfl
  · exact speedParams_opening p
  · exact speedParams_closing p

theorem cancelTimers_eq (s : State) : cancelTimers s = timersCancelled s := by
  have : (fun e : CtrlEv => !isTimerEvent e) = (fun e => e != .sample && e != .deadline) := by
    funext e
    cases e <;> rfl
  simp only [cancelTimers, timersCancelled, this]

theorem setMotion_eq (m : Motion) (s : State) : setMotion m (cancelTimers s) = motionSet m s := by
  rw [cancelTimers_eq]
  rfl

theorem setEmergency_eq (s : State) : setEmergency (cancelTimers s) = emergencySet s := by
  rw [cancelTimers_eq]
  rfl

/-! ### The transactions -/

/-- The beginning of a motion, with and without the echoes (R123, R240). -/
theorem beginMotion_cases {m : Motion} {s : State} (hq : s.link.Quiet)
    (hm : m = .opening ∨ m = .closing) :
    (EchoPresent 9 s → beginMotion m s =
        afterWait (frame s.cfg.servoId 0x03 (speedParams s.cfg m)) 0 .start (motionSet m s)) ∧
      (¬ EchoPresent 9 s → beginMotion m s =
        afterMissing (frame s.cfg.servoId 0x03 (speedParams s.cfg m)) (motionSet m s)) := by
  have hl : (speedParams s.cfg m).length + 6 = 9 := rfl
  unfold beginMotion
  rw [speedParams_eq hm, setMotion_eq]
  exact ⟨fun hp => beginWait_quiet (s := motionSet m s) hq hp,
    fun hp => beginWait_missing (s := motionSet m s) hq hp⟩

/-- The entry of the emergency path, with and without the echoes (R123, R250). -/
theorem enterEmergency_cases {s : State} (hq : s.link.Quiet) :
    (EchoPresent 8 s →
        enterEmergency s = afterWait (torqueOffFrame s.cfg) 0 .emerg (emergencySet s)) ∧
      (¬ EchoPresent 8 s →
        enterEmergency s = afterMissing (torqueOffFrame s.cfg) (emergencySet s)) := by
  unfold enterEmergency
  rw [setEmergency_eq]
  exact ⟨fun hp => beginWait_quiet (s := emergencySet s) hq hp,
    fun hp => beginWait_missing (s := emergencySet s) hq hp⟩

/-- The load read, with and without the echoes (R123, R244). -/
theorem readLoadSample_cases {s : State} (hq : s.link.Quiet) :
    (EchoPresent 8 s → readLoadSample s =
        afterWait (frame s.cfg.servoId 0x02 [s.cfg.aLoad, 0x02]) 2 .sample s) ∧
      (¬ EchoPresent 8 s → readLoadSample s =
        afterMissing (frame s.cfg.servoId 0x02 [s.cfg.aLoad, 0x02]) s) :=
  ⟨fun hp => beginWait_quiet hq hp, fun hp => beginWait_missing hq hp⟩

/-! ### The load sample -/

/-- A usable reply gives a usable result, with its magnitude (R164, R248). -/
theorem usableReply_result {c : Codec} {r : List Byte} (hr : c.rdN = 2) (hn : c.expN = 8)
    (h : usableReply r) : (replyResult c r).usable = true ∧
      (magOf (replyResult c r).loadWord).toNat =
        ((r.getD 5 0).toNat + 256 * (r.getD 6 0).toNat) % 1024 := by
  obtain ⟨hl, h4, h3⟩ := h
  have hv : validCountOf 2 r = 2 := by
    simp only [validCountOf, byteAt]
    omega
  have hres : replyResult c r =
      ⟨.reply, r.getD 4 0, 2, (r.drop 5).take 2, c.echoOk, chkOkOf c.expN r⟩ := by
    rw [replyResult_full (by omega), decodeReply, hr, hv]
    rfl
  rw [hres]
  refine ⟨by simpa [Result.usable] using h4, ?_⟩
  obtain ⟨a0, a1, a2, a3, a4, a5, a6, a7, rfl⟩ :
      ∃ a0 a1 a2 a3 a4 a5 a6 a7, r = [a0, a1, a2, a3, a4, a5, a6, a7] := by
    match r, hl with
    | [a0, a1, a2, a3, a4, a5, a6, a7], _ => exact ⟨_, _, _, _, _, _, _, _, rfl⟩
  simp only [Result.loadWord, byteAt, wordOf, magOf, BitVec.extractLsb'_toNat, List.drop_succ_cons,
    List.drop_zero, List.take_succ_cons, List.take_zero, List.getD_cons_succ, List.getD_cons_zero,
    Nat.shiftRight_zero]
  rw [BitVec.toNat_append, ← Nat.shiftLeft_add_eq_or_of_lt a5.isLt, Nat.shiftLeft_eq]
  omega

/-- Any other reply gives an unusable result (R248). -/
theorem unusableReply_result {c : Codec} {r : List Byte} (hr : c.rdN = 2) (hn : c.expN = 8)
    (hl : r.length ≤ 8) (h : ¬ usableReply r) : (replyResult c r).usable = false := by
  by_cases h8 : r.length = 8
  · rw [replyResult_full (by omega)]
    by_contra hh
    apply h
    simp [Result.usable, decodeReply, byteAt, validCountOf, hr] at hh
    refine ⟨h8, ?_⟩
    simp
    exact hh
  · rw [replyResult_short (by omega)]
    rfl

/-- What the continuation of a load read can do (R248, R249), `s` being the state with the sequencer
already idle: nothing, a count written, a stall with or without the echoes of its frame. -/
theorem contSample_cases {c : Codec} {r : List Byte} {s : State} (hr : c.rdN = 2) (hn : c.expN = 8)
    (hl : r.length ≤ 8) (hv : 1 ≤ s.cfg.validCount) (hq : s.link.Quiet) (hs : s.codec.seq = .idle) :
    (¬ usableReply r ∧ contSample (replyResult c r) s = s) ∨
      (usableReply r ∧ ¬ overReply s.cfg r ∧ contSample (replyResult c r) s =
        { s with act := { s.act with ovlCnt := 0 } }) ∨
      (usableReply r ∧ overReply s.cfg r ∧ s.act.ovlCnt + 1 ≠ s.cfg.validCount ∧
        contSample (replyResult c r) s =
          { s with act := { s.act with ovlCnt := s.act.ovlCnt + 1 } }) ∨
      (usableReply r ∧ overReply s.cfg r ∧ s.act.ovlCnt + 1 = s.cfg.validCount ∧
        (EchoPresent 8 s → contSample (replyResult c r) s =
          afterWait (torqueOffFrame s.cfg) 0 .stop (stallSet s)) ∧
        (¬ EchoPresent 8 s → contSample (replyResult c r) s =
          afterMissing (torqueOffFrame s.cfg) (stallSet s))) := by
  by_cases hu : usableReply r
  · obtain ⟨h1, h2⟩ := usableReply_result hr hn hu
    have ho : overThreshold s.cfg (replyResult c r).loadWord = decide (overReply s.cfg r) := by
      rw [overThreshold, h2]
      rfl
    by_cases hov : overReply s.cfg r
    · rw [contSample, if_pos h1, ho, decide_eq_true hov]
      by_cases hc : s.act.ovlCnt + 1 = s.cfg.validCount
      · refine .inr (.inr (.inr ⟨hu, hov, hc, ?_⟩))
        rw [if_pos (show (countHit true s).act.ovlCnt = s.cfg.validCount from hc)]
        have hst : setStalled (cancelTimers (countHit true s)) = stallSet s := by
          obtain ⟨cfg, link, ⟨seq, a1, a2, a3, a4, a5, a6, a7⟩, rsp, act, sup, ports⟩ := s
          simp only at hs
          subst hs
          rw [cancelTimers_eq]
          rfl
        rw [confirmStall, hst, sendTorqueOff]
        exact ⟨fun hp => beginWait_quiet (s := stallSet s) hq hp,
          fun hp => beginWait_missing (s := stallSet s) hq hp⟩
      · refine .inr (.inr (.inl ⟨hu, hov, hc, ?_⟩))
        rw [if_neg (show ¬ (countHit true s).act.ovlCnt = s.cfg.validCount from hc)]
        rfl
    · refine .inr (.inl ⟨hu, hov, ?_⟩)
      rw [contSample, if_pos h1, ho, decide_eq_false hov, if_neg]
      · rfl
      · show ¬ 0 = s.cfg.validCount
        omega
  · exact .inl ⟨hu, by rw [contSample, unusableReply_result hr hn hl hu]; rfl⟩

/-- The checksum verdict, in the terms of the statements (R164). -/
theorem chkOkOf_eq (n : Nat) (r : List Byte) : chkOkOf n r = verdictOf n r := by
  simp only [chkOkOf, verdictOf, byteAt, syncByte]
  rw [Bool.eq_iff_iff]
  simp [and_assoc]

/-! ### The deadline -/

/-- A pending deadline of a motion, with no close intent pending, is dispatched in the one `dispatch`
(R250, `90_conflicts.md` C8): the events before it are open intents, which are ignored, and load reads, which
it passes over. `u` is the state it is dispatched in, `s` but for the events pending. -/
theorem dispatch_deadline (s : State) (hq : s.link.Quiet) (hs : s.codec.seq = .idle) (hm : s.moving)
    (hp : EchoPresent 8 s) (hd : CtrlEv.deadline ∈ s.sup.evq) (hc : CtrlEv.closeEv ∉ s.sup.evq) :
    ∃ evs, dispatch s = afterWait (torqueOffFrame s.cfg) 0 .emerg
      (emergencySet { s with sup := { s.sup with evq := evs } }) := by
  obtain ⟨n, hn⟩ : ∃ n, s.sup.evq.length ≤ n := ⟨_, le_refl _⟩
  induction n generalizing s with
  | zero =>
    have := List.length_pos_of_mem hd
    omega
  | succ n ih =>
    have hr : s.ready = true := (ready_iff s).mpr ⟨hs, Link.Quiet.not_stuck hq⟩
    cases he : nextEvent s.sup.evq with
    | none =>
      rw [nextEvent_none.mp he] at hd
      simp at hd
    | some e =>
      have hm' : (dropEvent e s).moving := hm
      rw [dispatch_next he hr]
      cases e with
      | sample => exact absurd hd (nextEvent_sample he)
      | closeEv => exact absurd (nextEvent_mem he) hc
      | openEv =>
        have hig : transition .openEv (dropEvent .openEv s) = dropEvent .openEv s := by
          simp only [transition, onOpen]
          rcases hm' with h | h <;> rw [h]
        have hlen := erase_next_length he
        rw [hig]
        exact ih (dropEvent .openEv s) hq hs hm hp
          ((List.mem_erase_of_ne (by decide)).mpr hd) (fun h => hc (List.mem_of_mem_erase h))
          (by simp only [dropEvent_sup_evq]; omega)
      | deadline =>
        have hem : transition .deadline (dropEvent .deadline s) =
            enterEmergency (dropEvent .deadline s) := by
          simp only [transition, onDeadline]
          rcases hm' with h | h <;> rw [h]
        rw [hem, (enterEmergency_cases (s := dropEvent .deadline s) hq).1 hp, dispatch_settle rfl]
        exact ⟨s.sup.evq.erase .deadline, rfl⟩

end Sys2Proof.Machine
end

