-- ==== Sys2Proof/Laws/PerInstr.lean ====
section
/-! SUPPORT. The round trip of the encodings, one lemma for each constructor of `Instr`. -/

namespace Sys2Proof.Laws.roundTrip

open Machine (CmdOp)

/-- The decoder reads back what the encoder writes of a well-formed instruction. -/
def Statement (i : Instr) : Prop :=
  ∀ p : Params, p.Valid → i.wf p = true → decode (encode i).1 (encode i).2 = .ok i

/-- Each command's code stands for it (R97). -/
theorem ofCode_code (c : CmdOp) : CmdOp.ofCode c.code = some c := by cases c <;> decide

/-- Decoding a record is reading the operands of its command (R97). -/
theorem decode_record (c : CmdOp) (id addr n : Byte) (data : List Byte) :
    decode (.ext .cmd) (record c id addr n data) = commandOf c id addr n data := by
  simp [decode, decodeCmd, record, ofCode_code]

theorem length_of_payloadWf {p : Params} {n : Byte} {data : List Byte}
    (h : payloadWf p n data = true) : data.length ≤ n.toNat := by
  simp [payloadWf] at h
  exact h.1

/-- The length field of a frame whose parameters fit (R82). -/
theorem toNat_lenField {k : Nat} (h : k ≤ 253) : (Machine.lenField k).toNat = k + 2 := by
  simp [Machine.lenField]
  omega

/-- Decoding a frame is reading its opcode and parameters (R81 to R84, R154). -/
theorem decode_frame {id op : Byte} {ps : List Byte} (hid : id ≠ 0xFF) (hk : ps.length ≤ 253) :
    decode .txPacket (Machine.frame id op ps) = packetOf id op ps := by
  have hl := toNat_lenField hk
  simp [decode, decodePacket, Machine.frame, hl]
  exact fun h => absurd h hid

theorem ne_of_targetWf {id : Byte} (h : targetWf id = true) : id ≠ 0xFF := by
  simpa [targetWf] using h

theorem tSend (d0 : Byte) : Statement (.tSend d0) := fun _ _ _ => decode_record _ _ _ _ _
theorem tRxavail : Statement .tRxavail := fun _ _ _ => decode_record _ _ _ _ _
theorem tRxbyte : Statement .tRxbyte := fun _ _ _ => decode_record _ _ _ _ _
theorem tReinit (d0 d1 d2 d3 : Byte) : Statement (.tReinit d0 d1 d2 d3) :=
  fun _ _ _ => decode_record _ _ _ _ _

theorem cWrite (id addr n : Byte) (data : List Byte) : Statement (.cWrite id addr n data) := by
  intro p _ h
  refine (decode_record _ _ _ _ _).trans ?_
  simp [commandOf, List.take_of_length_le (length_of_payloadWf h)]

theorem cRegwrite (id addr n : Byte) (data : List Byte) : Statement (.cRegwrite id addr n data) := by
  intro p _ h
  refine (decode_record _ _ _ _ _).trans ?_
  simp [commandOf, List.take_of_length_le (length_of_payloadWf h)]

theorem cRead (id addr n : Byte) : Statement (.cRead id addr n) :=
  fun _ _ _ => decode_record _ _ _ _ _
theorem cAction (id : Byte) : Statement (.cAction id) := fun _ _ _ => decode_record _ _ _ _ _
theorem torqueEn (id e : Byte) : Statement (.torqueEn id e) := fun _ _ _ => decode_record _ _ _ _ _
theorem setSpeed (id d0 d1 : Byte) : Statement (.setSpeed id d0 d1) :=
  fun _ _ _ => decode_record _ _ _ _ _
theorem setCwLimit (id d0 d1 : Byte) : Statement (.setCwLimit id d0 d1) :=
  fun _ _ _ => decode_record _ _ _ _ _
theorem setCcwLimit (id d0 d1 : Byte) : Statement (.setCcwLimit id d0 d1) :=
  fun _ _ _ => decode_record _ _ _ _ _
theorem setId (id newId : Byte) : Statement (.setId id newId) :=
  fun _ _ _ => decode_record _ _ _ _ _
theorem setBaudcode (id code : Byte) : Statement (.setBaudcode id code) :=
  fun _ _ _ => decode_record _ _ _ _ _
theorem setModeCont (id : Byte) : Statement (.setModeCont id) := fun _ _ _ => decode_record _ _ _ _ _
theorem readLoad (id : Byte) : Statement (.readLoad id) := fun _ _ _ => decode_record _ _ _ _ _
theorem readTemp (id : Byte) : Statement (.readTemp id) := fun _ _ _ => decode_record _ _ _ _ _
theorem readVolt (id : Byte) : Statement (.readVolt id) := fun _ _ _ => decode_record _ _ _ _ _

theorem cmdReserved (op : Byte) : Statement (.cmdReserved op) := by
  intro p _ h
  have hn : CmdOp.ofCode op = none := by simpa [Instr.wf] using h
  simp [encode, decode, decodeCmd, hn]

theorem pktRead (id addr n : Byte) : Statement (.pktRead id addr n) := by
  intro p _ h
  simp only [Instr.wf, Bool.and_eq_true] at h
  refine (decode_frame (ne_of_targetWf h.1) (by simp)).trans ?_
  simp [packetOf]

/-- The parameters of a well-formed write fit a packet (R82, R86). -/
theorem params_fit {p : Params} {addr : Byte} {data : List Byte} (hp : p.Valid)
    (h : lengthWf p data.length = true) :
    (addr :: data).length ≤ 253 ∧ ∃ d ds, data = d :: ds := by
  simp only [lengthWf, Bool.and_eq_true, decide_eq_true_eq] at h
  have := hp.maxpHigh
  refine ⟨by simp; omega, ?_⟩
  cases data with
  | nil => simp at h
  | cons d ds => exact ⟨d, ds, rfl⟩

theorem pktWrite (id addr : Byte) (data : List Byte) : Statement (.pktWrite id addr data) := by
  intro p hp h
  simp only [Instr.wf, Bool.and_eq_true] at h
  obtain ⟨hk, d, ds, rfl⟩ := params_fit (addr := addr) hp h.2
  refine (decode_frame (ne_of_targetWf h.1) hk).trans ?_
  simp [packetOf, Machine.opWrite, Machine.opRead]

theorem pktRegwrite (id addr : Byte) (data : List Byte) : Statement (.pktRegwrite id addr data) := by
  intro p hp h
  simp only [Instr.wf, Bool.and_eq_true] at h
  obtain ⟨hk, d, ds, rfl⟩ := params_fit (addr := addr) hp h.2
  refine (decode_frame (ne_of_targetWf h.1) hk).trans ?_
  simp [packetOf, Machine.opWrite, Machine.opRead, Machine.opRegwrite]

theorem pktAction (id : Byte) : Statement (.pktAction id) := by
  intro p _ h
  refine (decode_frame (ne_of_targetWf h) (by simp)).trans ?_
  simp [packetOf, Machine.opWrite, Machine.opRead, Machine.opRegwrite]

theorem pktStatus (r : List Byte) : Statement (.pktStatus r) := by
  intro p _ h
  simp only [Instr.wf, Bool.and_eq_true, decide_eq_true_eq] at h
  simp [encode, decode, decodeStatus, h.1]

theorem reset : Statement .reset := fun _ _ _ => rfl
theorem tick : Statement .tick := fun _ _ _ => rfl
theorem lineByte (b : Byte) : Statement (.lineByte b) := fun _ _ _ => rfl
theorem edgeOpenPressed : Statement .edgeOpenPressed := fun _ _ _ => rfl
theorem edgeOpenReleased : Statement .edgeOpenReleased := fun _ _ _ => rfl
theorem edgeClosePressed : Statement .edgeClosePressed := fun _ _ _ => rfl
theorem edgeCloseReleased : Statement .edgeCloseReleased := fun _ _ _ => rfl
theorem evDeadline : Statement .evDeadline := fun _ _ _ => rfl
theorem evClose : Statement .evClose := fun _ _ _ => rfl
theorem evOpen : Statement .evOpen := fun _ _ _ => rfl
theorem evSample : Statement .evSample := fun _ _ _ => rfl

end Sys2Proof.Laws.roundTrip
end

