-- ==== Sys2Proof/Laws/Tick.lean ====
section
/-! SUPPORT. The counts of a tick, parts (a) to (c) of R230, as one update: the timers, the buttons, and the
events that become pending, in their order. -/

namespace Sys2Proof.Machine

/-- `enqueue` on the queue alone (R228). -/
theorem enqueueIf_eq (q : Bool) (e : CtrlEv) (s : State) :
    enqueueIf q e s = { s with sup := { s.sup with
      evq := if q then enqueued e s.sup.evq else s.sup.evq } } := by
  cases q <;> rfl

/-- Events of different kinds enqueued one after the other. -/
theorem enqueued_four (q1 q2 q3 q4 : Bool) (evs : List CtrlEv) :
    (let a := if q1 then enqueued .deadline evs else evs
     let b := if q2 then enqueued .closeEv a else a
     let c := if q3 then enqueued .openEv b else b
     if q4 then enqueued .sample c else c) =
    evs ++ ((if q1 then [CtrlEv.deadline] else []) ++ (if q2 then [CtrlEv.closeEv] else [])
      ++ (if q3 then [CtrlEv.openEv] else []) ++ (if q4 then [CtrlEv.sample] else [])).filter
        (fun e => decide (e ∉ evs)) := by
  by_cases h1 : CtrlEv.deadline ∈ evs <;> by_cases h2 : CtrlEv.closeEv ∈ evs <;>
    by_cases h3 : CtrlEv.openEv ∈ evs <;> by_cases h4 : CtrlEv.sample ∈ evs <;>
    cases q1 <;> cases q2 <;> cases q3 <;> cases q4 <;> simp [enqueued, h1, h2, h3, h4]

theorem deadlinePart_eq (s : State) :
    deadlinePart s = enqueueIf (decide (s.act.timersOn = true ∧ s.act.deadlineCnt = 1)) .deadline
      { s with act := { s.act with deadlineCnt :=
          if s.act.timersOn then s.act.deadlineCnt - 1 else s.act.deadlineCnt } } := by
  unfold deadlinePart enqueueIf
  by_cases hon : s.act.timersOn = true
  · rcases Nat.lt_trichotomy s.act.deadlineCnt 1 with h | h | h
    · have : s.act.deadlineCnt = 0 := by omega
      obtain ⟨cfg, link, codec, rsp, ⟨m, o, on, d, sc, em⟩, sup, ports⟩ := s
      simp only at hon this
      simp [hon, this]
    · simp [hon, h, countDeadline]
    · have h1 : ¬ s.act.deadlineCnt - 1 = 0 := by omega
      have h2 : ¬ s.act.deadlineCnt = 1 := by omega
      have h3 : 0 < s.act.deadlineCnt := by omega
      simp [hon, h1, h2, h3, countDeadline]
  · obtain ⟨cfg, link, codec, rsp, ⟨m, o, on, d, sc, em⟩, sup, ports⟩ := s
    simp only at hon
    simp [hon]

theorem samplePart_eq (s : State) :
    samplePart s = enqueueIf (decide (s.act.timersOn = true ∧ s.act.sampleCnt ≤ 1)) .sample
      { s with act := { s.act with sampleCnt :=
          if s.act.timersOn then
            if s.act.sampleCnt ≤ 1 then s.cfg.sampleTicks else s.act.sampleCnt - 1
          else s.act.sampleCnt } } := by
  unfold samplePart
  by_cases hon : s.act.timersOn = true
  · have h : (s.act.sampleCnt - 1 = 0) ↔ s.act.sampleCnt ≤ 1 := by omega
    simp [hon, h, countSample]
  · obtain ⟨cfg, link, codec, rsp, ⟨m, o, on, d, sc, em⟩, sup, ports⟩ := s
    simp only at hon
    simp [hon, enqueueIf]

theorem tick_heldOneTick (hold : Nat) (b : Button) : b.tick hold = heldOneTick hold b := by
  obtain ⟨h, c, f⟩ := b
  cases h <;> cases f <;> simp [Button.tick, heldOneTick, Button.counting]

theorem qualifies_eq (hold : Nat) (b : Button) :
    b.qualifies hold = decide (b.held = true ∧ b.fired = false ∧ hold ≤ b.cnt + 1) := by
  obtain ⟨h, c, f⟩ := b
  cases h <;> cases f <;> simp [Button.qualifies, Button.counting]

/-- Parts (a) to (c) of a tick, whole (R230). -/
theorem countParts_counted (s : State) : countParts s = counted s := by
  have h4 := enqueued_four (decide (s.act.timersOn = true ∧ s.act.deadlineCnt = 1))
    (decide (s.sup.closeBtn.held = true ∧ s.sup.closeBtn.fired = false ∧
      s.cfg.holdTicks ≤ s.sup.closeBtn.cnt + 1))
    (decide (s.sup.openBtn.held = true ∧ s.sup.openBtn.fired = false ∧
      s.cfg.holdTicks ≤ s.sup.openBtn.cnt + 1))
    (decide (s.act.timersOn = true ∧ s.act.sampleCnt ≤ 1)) s.sup.evq
  simp only [decide_eq_true_eq] at h4
  unfold countParts
  rw [samplePart_eq, deadlinePart_eq, holdPart, holdOpen, holdClose]
  simp only [enqueueIf_eq, withOpenBtn, withCloseBtn, tick_heldOneTick, qualifies_eq,
    decide_eq_true_eq]
  unfold counted tickEvents
  rw [← h4]

end Sys2Proof.Machine
end

