-- ==== Sys2Proof/Tests/Slice0.lean ====
section
/-! SUPPORT. Tests of the model: ill-formed terms that `wf` refuses, words written out from the spec's
encoding tables, single steps with the results that `95_test_vectors.md` states, and for every statement
with hypotheses a concrete case that meets them. Vector names (`V-…`, `C-…`) are the spec's. -/

namespace Sys2Proof.Tests

open Sys2Proof Sys2Proof.Machine

/-! ## Well-formedness: one ill-formed term for each check -/

theorem test_wf_payload_short : Instr.wf vectorParams (.cWrite 1 0x18 2 [0x01]) = false := by decide
theorem test_wf_payload_long : Instr.wf vectorParams (.cRegwrite 1 0x18 1 [0x01, 0x02]) = false := by
  decide
theorem test_wf_payload_over_maxp : Instr.wf vectorParams (.cWrite 1 0x18 9 [0x01]) = true := by decide
theorem test_wf_payload_over_n :
    Instr.wf vectorParams (.cWrite 1 0x18 9 [0, 0, 0, 0, 0, 0, 0, 0, 0, 0]) = false := by decide
theorem test_wf_not_reserved : Instr.wf vectorParams (.cmdReserved 0x10) = false := by decide
theorem test_wf_target_ff : Instr.wf vectorParams (.pktRead 0xFF 0x28 0x02) = false := by decide
theorem test_wf_action_ff : Instr.wf vectorParams (.pktAction 0xFF) = false := by decide
theorem test_wf_read_zero : Instr.wf vectorParams (.pktRead 0x01 0x28 0x00) = false := by decide
theorem test_wf_read_over : Instr.wf vectorParams (.pktRead 0x01 0x28 0x09) = false := by decide
theorem test_wf_write_empty : Instr.wf vectorParams (.pktWrite 0x01 0x18 []) = false := by decide
theorem test_wf_regwrite_over :
    Instr.wf vectorParams (.pktRegwrite 0x01 0x18 [0, 0, 0, 0, 0, 0, 0, 0, 0]) = false := by decide
theorem test_wf_status_short : Instr.wf vectorParams (.pktStatus [0xFF, 0xFF, 0x01, 0x02, 0x00]) = false := by
  decide
theorem test_wf_status_over :
    Instr.wf vectorParams (.pktStatus (List.replicate 15 0x00)) = false := by decide

/-! ## Decoding: a word of every row, written out from R96, R97, R81 to R89, R104, R105 -/

theorem test_dec_T_SEND : decode (.ext .cmd) [0x01, 0, 0, 0, 0x5A] = .ok (.tSend 0x5A) := by decide
theorem test_dec_T_RXAVAIL : decode (.ext .cmd) [0x02, 0, 0, 0] = .ok .tRxavail := by decide
theorem test_dec_T_RXBYTE : decode (.ext .cmd) [0x03, 0, 0, 0] = .ok .tRxbyte := by decide
theorem test_dec_T_REINIT : decode (.ext .cmd) [0x04, 0, 0, 0, 0x00, 0xE1, 0x00, 0x00] =
    .ok (.tReinit 0x00 0xE1 0x00 0x00) := by decide
theorem test_dec_C_WRITE : decode (.ext .cmd) [0x10, 0x01, 0x18, 0x01, 0x01, 0x77] =
    .ok (.cWrite 0x01 0x18 0x01 [0x01]) := by decide
theorem test_dec_C_REGWRITE : decode (.ext .cmd) [0x11, 0xFE, 0x20, 0x02, 0x00, 0x02] =
    .ok (.cRegwrite 0xFE 0x20 0x02 [0x00, 0x02]) := by decide
theorem test_dec_C_READ : decode (.ext .cmd) [0x12, 0x01, 0x28, 0x02] = .ok (.cRead 0x01 0x28 0x02) := by
  decide
theorem test_dec_C_ACTION : decode (.ext .cmd) [0x13, 0xFE, 0, 0] = .ok (.cAction 0xFE) := by decide
theorem test_dec_TORQUE_EN : decode (.ext .cmd) [0x20, 0x01, 0, 0, 0x01] = .ok (.torqueEn 0x01 0x01) := by
  decide
theorem test_dec_SET_SPEED : decode (.ext .cmd) [0x21, 0x01, 0, 0, 0xFF, 0x05] =
    .ok (.setSpeed 0x01 0xFF 0x05) := by decide
theorem test_dec_SET_CW_LIMIT : decode (.ext .cmd) [0x22, 0x01, 0, 0, 0xFF, 0x03] =
    .ok (.setCwLimit 0x01 0xFF 0x03) := by decide
theorem test_dec_SET_CCW_LIMIT : decode (.ext .cmd) [0x23, 0x01, 0, 0, 0xFE, 0x02] =
    .ok (.setCcwLimit 0x01 0xFE 0x02) := by decide
theorem test_dec_SET_ID : decode (.ext .cmd) [0x24, 0xFE, 0, 0, 0x01] = .ok (.setId 0xFE 0x01) := by decide
theorem test_dec_SET_BAUDCODE : decode (.ext .cmd) [0x25, 0x01, 0, 0, 0x07] =
    .ok (.setBaudcode 0x01 0x07) := by decide
theorem test_dec_SET_MODE_CONT : decode (.ext .cmd) [0x26, 0x01, 0, 0] = .ok (.setModeCont 0x01) := by
  decide
theorem test_dec_READ_LOAD : decode (.ext .cmd) [0x27, 0x01, 0, 0] = .ok (.readLoad 0x01) := by decide
theorem test_dec_READ_TEMP : decode (.ext .cmd) [0x28, 0x01, 0, 0] = .ok (.readTemp 0x01) := by decide
theorem test_dec_READ_VOLT : decode (.ext .cmd) [0x29, 0x01, 0, 0] = .ok (.readVolt 0x01) := by decide
theorem test_dec_CMD_RESERVED : decode (.ext .cmd) [0x05, 0x01, 0, 0] = .ok (.cmdReserved 0x05) := by decide
theorem test_dec_PKT_READ : decode .txPacket [0xFF, 0xFF, 0x00, 0x04, 0x02, 0x00, 0x01, 0xF8] =
    .ok (.pktRead 0x00 0x00 0x01) := by decide
theorem test_dec_PKT_WRITE : decode .txPacket [0xFF, 0xFF, 0xFD, 0x04, 0x03, 0xFF, 0xFF, 0xFD] =
    .ok (.pktWrite 0xFD 0xFF [0xFF]) := by decide
theorem test_dec_PKT_REGWRITE : decode .txPacket [0xFF, 0xFF, 0x01, 0x05, 0x04, 0x20, 0x00, 0x02, 0xD3] =
    .ok (.pktRegwrite 0x01 0x20 [0x00, 0x02]) := by decide
theorem test_dec_PKT_ACTION : decode .txPacket [0xFF, 0xFF, 0x01, 0x02, 0x04, 0xF8] =
    .ok (.pktAction 0x01) := by decide
theorem test_dec_PKT_STATUS : decode .rxPacket [0xFF, 0xFF, 0x01, 0x02, 0x24, 0xD8] =
    .ok (.pktStatus [0xFF, 0xFF, 0x01, 0x02, 0x24, 0xD8]) := by decide
theorem test_dec_RESET : decode (.ext .reset) [] = .ok .reset := by decide
theorem test_dec_TICK : decode (.ext .tick) [] = .ok .tick := by decide
theorem test_dec_LINE_BYTE : decode (.ext .line) [0xA5] = .ok (.lineByte 0xA5) := by decide
theorem test_dec_EDGE_OPEN_PRESSED : decode (.ext .edge) [0] = .ok .edgeOpenPressed := by decide
theorem test_dec_EDGE_OPEN_RELEASED : decode (.ext .edge) [1] = .ok .edgeOpenReleased := by decide
theorem test_dec_EDGE_CLOSE_PRESSED : decode (.ext .edge) [2] = .ok .edgeClosePressed := by decide
theorem test_dec_EDGE_CLOSE_RELEASED : decode (.ext .edge) [3] = .ok .edgeCloseReleased := by decide
theorem test_dec_EV_DEADLINE : decode .evq [0] = .ok .evDeadline := by decide
theorem test_dec_EV_CLOSE : decode .evq [1] = .ok .evClose := by decide
theorem test_dec_EV_OPEN : decode .evq [2] = .ok .evOpen := by decide
theorem test_dec_EV_SAMPLE : decode .evq [3] = .ok .evSample := by decide

/-- A frame with a wrong checksum, one with a wrong length, and one to 0xFF are no packets (R81 to R83). -/
theorem test_dec_no_packets :
    decode .txPacket [0xFF, 0xFF, 0x01, 0x02, 0x04, 0xF9] = .error .badChecksum ∧
    decode .txPacket [0xFF, 0xFF, 0x01, 0x03, 0x04, 0xF7] = .error .badLength ∧
    decode .txPacket [0xFF, 0xFF, 0xFF, 0x02, 0x04, 0xFA] = .error .badId := by decide

/-! ## Checksums and frames -/

/-- V-CHK-1 to V-CHK-7. -/
theorem test_checksums :
    checksum [0x01, 0x04, 0x03, 0x18, 0x01] = 0xDE ∧ checksum [0xFE, 0x02, 0x04] = 0xFB ∧
    checksum [0xFF, 0xFF, 0xFF] = 0x02 ∧ checksum [0, 0, 0] = 0xFF ∧ checksum [] = 0xFF ∧
    sum8 [0xFF, 0xFF, 0x01, 0x04, 0x03, 0x18, 0x01, 0xDE] = 0xFD ∧
    checksum [0x80, 0x80] = 0xFF := by decide

/-- V-FR-8, a frame of `P_MAXP` data bytes. -/
theorem test_frame_longest : frame 0x01 0x03 (0x20 :: List.replicate 8 0xFF) =
    [0xFF, 0xFF, 0x01, 0x0B, 0x03, 0x20, 0xFF, 0xFF, 0xFF, 0xFF, 0xFF, 0xFF, 0xFF, 0xFF, 0xD8] := by decide

/-! ## Single steps of the vectors -/

/-- The reset state with the line's next draws given. -/
def drawing (ds : List Echo) : State := { State.reset with ports := ⟨[], ds, [], false⟩ }

/-- The reset state after the bytes `bs` came in on the line. -/
def heard (bs : List Byte) : State :=
  { State.reset with
    link := bs.foldl (fun l b => l.arrive vectorParams.rxqDepth b) (Link.fresh vectorParams 1000000) }

/-- A transaction in flight at its last tick but one, with the bytes `bs` captured. -/
def inFlight (k : Cont) (rn : Nat) (bs : List Byte) : State :=
  { heard bs with codec := { State.reset.codec with
      seq := .settle, settleCnt := 1, expN := 6 + rn, rdN := rn, cont := k, hostId := 0x01 } }

/-- The moment at which the reply of a transaction is taken. -/
def atReply (k : Cont) (rn : Nat) : State :=
  { inFlight k rn [] with codec := { (inFlight k rn []).codec with settleCnt := 0 } }

/-- A motion whose timers run. -/
def inMotion (m : Motion) (deadline sample ovl : Nat) (s : State) : State :=
  { s with act := ⟨m, ovl, true, deadline, sample, false⟩ }

/-- What a test looks at in the outcome of an instruction. -/
def outcome {α : Type} (f : State → α) (i : Instr) (s : State) : Option α :=
  match exec i s with
  | .next t => some (f t)
  | .fault _ => none
  | .refused _ => none

/-- What a response shows, with the wire. -/
structure Answer where
  wire : List Byte
  valid : Bool
  status : Status
  err : Byte
  n : Nat
  echoOk : Bool
  chkOk : Bool
  deriving DecidableEq, Repr

/-- The wire and the response after an instruction. -/
def answer (i : Instr) (s : State) : Option Answer :=
  outcome (fun t => ⟨t.ports.wireTx, t.ports.rspValid, t.rsp.status, t.rsp.err, t.rsp.n, t.rsp.echoOk,
    t.rsp.chkOk⟩) i s

/-- What a transaction in flight shows, with the wire. -/
structure Sending where
  wire : List Byte
  seq : Seq
  settleCnt : Nat
  expN : Nat
  rdN : Nat
  cont : Cont
  valid : Bool
  deriving DecidableEq, Repr

/-- The wire and the transaction in flight after an instruction. -/
def sending (i : Instr) (s : State) : Option Sending :=
  outcome (fun t => ⟨t.ports.wireTx, t.codec.seq, t.codec.settleCnt, t.codec.expN, t.codec.rdN,
    t.codec.cont, t.ports.rspValid⟩) i s

/-- V-TR-1 and V-TR-2. -/
theorem test_T_SEND :
    answer (.tSend 0x5A) State.reset = some ⟨[0x5A], true, .noWait, 0, 1, true, false⟩ ∧
    outcome (fun t => (t.rsp.data.head?, t.rsp.echoOk, t.link)) (.tSend 0x5A) (drawing [some 0x5B]) =
      some (some 0x5B, false, State.reset.link) := by decide
/-- V-TR-4. -/
theorem test_T_SEND_stuck : outcome (fun t => (t.stuck, t.ports.wireTx, t.ports.rspValid, t.link.irqEn))
    (.tSend 0x5A) (drawing [none]) = some (true, [0x5A], false, false) := by decide
/-- V-TR-5 and V-TR-7. -/
theorem test_T_RXAVAIL : outcome (fun t => t.rsp.data.head?) .tRxavail State.reset = some (some 0x00) ∧
    outcome (fun t => t.rsp.data.head?) .tRxavail (heard [0x12, 0x34]) = some (some 0x01) := by decide
/-- V-TR-6. -/
theorem test_LINE_BYTE : outcome (fun t => (t.link.rxq.take 3, t.link.rxWr, t.link.rxRd, t.link.hwRx))
    (.lineByte 0x34) (heard [0x12]) = some ([0x012, 0x034, 0x100], 2, 0, []) := by decide
/-- V-TR-8 and V-TR-9. -/
theorem test_T_RXBYTE :
    outcome (fun t => (t.rsp.n, t.rsp.data.head?, t.link.rxq.take 2, t.link.rxRd)) .tRxbyte
      (heard [0x12, 0x34]) = some (1, some 0x12, [0x100, 0x034], 1) := by decide
theorem test_T_RXBYTE_empty : outcome (fun t => (t.rsp.n, t.link.rxRd)) .tRxbyte State.reset =
    some (0, 0) := by decide
/-- V-TR-10 and V-TR-12. -/
theorem test_T_REINIT : outcome (fun t => (t.link.baud, t.link.rxWr, t.link.available))
    (.tReinit 0x00 0xE1 0x00 0x00) (heard [0x12, 0x34]) = some (57600, 0, false) := by decide
theorem test_T_REINIT_zero : answer (.tReinit 0 0 0 0) State.reset =
    some ⟨[], true, .refused, 0x05, 0, true, false⟩ := by decide
/-- V-TR-14: eighteen bytes into sixteen slots. -/
theorem test_overflow : outcome (fun t => (t.link.rxWr, t.link.rxRd, t.link.rxq.head?, t.link.rxq.getLast?))
    (.lineByte 0x20) (heard [0x10, 0x11, 0x12, 0x13, 0x14, 0x15, 0x16, 0x17, 0x18, 0x19, 0x1A, 0x1B, 0x1C,
      0x1D, 0x1E, 0x1F]) = some (0, 0, some 0x010, some 0x01F) := by decide

/-- V-PR-1 and V-PR-4. -/
theorem test_C_WRITE : sending (.cWrite 0x01 0x18 0x01 [0x01]) State.reset =
    some ⟨[0xFF, 0xFF, 0x01, 0x04, 0x03, 0x18, 0x01, 0xDE], .settle, 2, 6, 0, .host, false⟩ := by decide
theorem test_C_WRITE_broadcast : answer (.cWrite 0xFE 0x18 0x01 [0x00]) State.reset =
    some ⟨[0xFF, 0xFF, 0xFE, 0x04, 0x03, 0x18, 0x00, 0xE2], true, .noWait, 0, 0, true, false⟩ := by decide
/-- V-PR-5 and V-PR-6. -/
theorem test_C_REGWRITE : sending (.cRegwrite 0x01 0x20 0x02 [0x00, 0x02]) State.reset =
    some ⟨[0xFF, 0xFF, 0x01, 0x05, 0x04, 0x20, 0x00, 0x02, 0xD3], .settle, 2, 6, 0, .host, false⟩ := by
  decide
theorem test_C_REGWRITE_broadcast : answer (.cRegwrite 0xFE 0x20 0x02 [0x00, 0x02]) State.reset =
    some ⟨[0xFF, 0xFF, 0xFE, 0x05, 0x04, 0x20, 0x00, 0x02, 0xD6], true, .noWait, 0, 0, true, false⟩ := by
  decide
/-- V-PR-7. -/
theorem test_C_READ : sending (.cRead 0x01 0x28 0x02) State.reset =
    some ⟨[0xFF, 0xFF, 0x01, 0x04, 0x02, 0x28, 0x02, 0xCE], .settle, 2, 8, 2, .host, false⟩ := by decide
/-- V-PR-8 and V-PR-9. -/
theorem test_C_ACTION : answer (.cAction 0xFE) State.reset =
    some ⟨[0xFF, 0xFF, 0xFE, 0x02, 0x04, 0xFB], true, .noWait, 0, 0, true, false⟩ := by decide
theorem test_C_ACTION_unicast : sending (.cAction 0x01) State.reset =
    some ⟨[0xFF, 0xFF, 0x01, 0x02, 0x04, 0xF8], .idle, 0, 0, 0, .host, true⟩ := by decide
/-- V-PR-10: a corrupted echo in the middle of a frame. -/
theorem test_TORQUE_EN_echo_fault : outcome (fun t => (t.ports.wireTx, t.codec.echoOk)) (.torqueEn 0x01 0x00)
    (drawing [some 0xFF, some 0xFF, some 0x01, some 0x04, some 0x03, some 0x99, some 0x00, some 0xDF]) =
    some ([0xFF, 0xFF, 0x01, 0x04, 0x03, 0x18, 0x00, 0xDF], false) := by decide

/-- V-DR-1 to V-DR-9, V-DR-16: the frames. -/
theorem test_TORQUE_EN : outcome (·.ports.wireTx) (.torqueEn 0x01 0x01) State.reset =
    some [0xFF, 0xFF, 0x01, 0x04, 0x03, 0x18, 0x01, 0xDE] := by decide
theorem test_SET_SPEED : outcome (·.ports.wireTx) (.setSpeed 0x01 0xFF 0x05) State.reset =
    some [0xFF, 0xFF, 0x01, 0x05, 0x03, 0x20, 0xFF, 0x05, 0xD2] := by decide
theorem test_SET_CW_LIMIT : outcome (·.ports.wireTx) (.setCwLimit 0x01 0xFF 0x03) State.reset =
    some [0xFF, 0xFF, 0x01, 0x05, 0x03, 0x06, 0xFF, 0x03, 0xEE] := by decide
theorem test_SET_CCW_LIMIT : outcome (·.ports.wireTx) (.setCcwLimit 0x01 0x00 0x00) State.reset =
    some [0xFF, 0xFF, 0x01, 0x05, 0x03, 0x08, 0x00, 0x00, 0xEE] := by decide
theorem test_SET_ID : answer (.setId 0xFE 0x01) State.reset =
    some ⟨[0xFF, 0xFF, 0xFE, 0x04, 0x03, 0x03, 0x01, 0xF6], true, .noWait, 0, 0, true, false⟩ := by decide
theorem test_SET_BAUDCODE : outcome (fun t => (t.ports.wireTx, t.link.baud)) (.setBaudcode 0x01 0x01)
    State.reset = some ([0xFF, 0xFF, 0x01, 0x04, 0x03, 0x04, 0x01, 0xF2], 1000000) := by decide
theorem test_READ_LOAD : outcome (·.ports.wireTx) (.readLoad 0x01) State.reset =
    some [0xFF, 0xFF, 0x01, 0x04, 0x02, 0x28, 0x02, 0xCE] := by decide
theorem test_READ_TEMP : sending (.readTemp 0x01) State.reset =
    some ⟨[0xFF, 0xFF, 0x01, 0x04, 0x02, 0x2B, 0x01, 0xCC], .settle, 2, 7, 1, .host, false⟩ := by decide
theorem test_READ_VOLT : outcome (·.ports.wireTx) (.readVolt 0x01) State.reset =
    some [0xFF, 0xFF, 0x01, 0x04, 0x02, 0x2A, 0x01, 0xCD] := by decide
/-- V-DR-10 (first frame) and V-DR-13. -/
theorem test_SET_MODE_CONT : sending (.setModeCont 0x01) State.reset =
    some ⟨[0xFF, 0xFF, 0x01, 0x05, 0x03, 0x06, 0x00, 0x00, 0xF0], .settle, 2, 6, 0, .hostMode2, false⟩ := by
  decide
theorem test_SET_MODE_CONT_broadcast : answer (.setModeCont 0xFE) State.reset =
    some ⟨[0xFF, 0xFF, 0xFE, 0x05, 0x03, 0x06, 0x00, 0x00, 0xF3, 0xFF, 0xFF, 0xFE, 0x05, 0x03, 0x08, 0x00,
      0x00, 0xF1], true, .noWait, 0, 0, true, false⟩ := by decide

/-- V-RF-1 to V-RF-17: what each refused command answers. -/
theorem test_refusals :
    ([.cmdReserved 0x00, .cmdReserved 0xFF, .cWrite 0xFF 0x18 1 [0], .cRead 0xFE 0x28 1, .readLoad 0xFE,
      .cAction 0xFF, .cWrite 0x01 0x18 0 [], .cWrite 0x01 0x18 9 [0, 0, 0, 0, 0, 0, 0, 0],
      .cRead 0x01 0x28 0, .cWrite 0xFF 0x18 0 [], .torqueEn 0x01 0x02, .setSpeed 0x01 0x00 0x08,
      .setCwLimit 0x01 0x00 0x04, .tReinit 0 0 0 0] : List Instr).map
        (fun i => outcome (fun t => (t.rsp.status, t.rsp.err, t.ports.wireTx)) i State.reset) =
      [0x02, 0x02, 0x03, 0x03, 0x03, 0x03, 0x04, 0x04, 0x04, 0x03, 0x05, 0x05, 0x05, 0x05].map
        (fun e => some (.refused, e, [])) := by decide

/-- V-DEC-2, V-DEC-8, V-DEC-9, V-DEC-11, V-DEC-15, V-DEC-16: err, n, data and chk_ok of replies. -/
theorem test_replies :
    ([(0, [0xFF, 0xFF, 0x01, 0x02, 0x24, 0xD8]), (2, [0xFF, 0xFF, 0x01, 0x03, 0x00, 0x20, 0xDB, 0x00]),
      (2, [0xFF, 0xFF, 0x01, 0x00, 0x00, 0x11, 0x22, 0x33]),
      (2, [0xFF, 0xFF, 0x01, 0x09, 0x00, 0x11, 0x22, 0x33]),
      (2, [0xFF, 0xFF, 0x01, 0x05, 0x00, 0x11, 0x22, 0x33]),
      (2, [0xFF, 0xFF, 0x01, 0x04, 0x20, 0xFF, 0x03, 0xD8])] : List (Nat × List Byte)).map
        (fun c => outcome (fun t => (t.rsp.err, t.rsp.data.take t.rsp.n, t.rsp.chkOk)) (.pktStatus c.2)
          (atReply .host c.1)) =
      [some (0x24, [], true), some (0, [0x20], true), some (0, [], false),
       some (0, [0x11, 0x22], false), some (0, [0x11, 0x22], false), some (0x20, [0xFF, 0x03], true)] := by
  decide

/-- V-PR-2 and V-DEC-7, at the tick that ends the interval. -/
theorem test_TICK_reply :
    outcome (fun t => (t.rsp.status, t.rsp.chkOk, t.codec.seq, t.link.rxRd, t.busy)) .tick
      (inFlight .host 0 [0xFF, 0xFF, 0x01, 0x02, 0x00, 0xFC]) = some (.reply, true, .idle, 6, false) ∧
    outcome (fun t => (t.rsp.status, t.link.rxRd)) .tick
      (inFlight .host 2 [0xFF, 0xFF, 0x01, 0x03, 0x00, 0x20, 0xDB]) = some (.noReply, 7) := by decide

/-- C-HOLD0 and C-TAP. -/
theorem test_EDGE_OPEN_PRESSED :
    outcome (fun t => (t.ports.wireTx, t.act.motion, t.sup.openBtn)) .edgeOpenPressed
    { State.reset with cfg := { vectorParams with holdTicks := 0 } } =
    some ([0xFF, 0xFF, 0x01, 0x05, 0x03, 0x20, 0x00, 0x02, 0xD4], .opening, ⟨true, 0, true⟩) := by decide
theorem test_EDGE_OPEN_RELEASED : outcome (fun t => decide (t = State.reset)) .edgeOpenReleased
    { State.reset with sup := ⟨[], .off, ⟨true, 1, false⟩, Button.released⟩ } = some true := by decide
/-- Program P4, steps 1 and 3. -/
theorem test_EDGE_CLOSE_PRESSED : outcome (fun t => (t.ports.wireTx, t.sup.closeBtn)) .edgeClosePressed
    State.reset = some ([], ⟨true, 0, false⟩) := by decide
theorem test_EDGE_CLOSE_RELEASED : outcome (fun t => decide (t = State.reset)) .edgeCloseReleased
    { State.reset with sup := ⟨[], .off, Button.released, ⟨true, 2, true⟩⟩ } = some true := by decide
theorem test_EV_CLOSE : outcome (fun t => (t.ports.wireTx, t.act.motion, t.sup.ind, t.codec.cont)) .evClose
    State.reset = some ([0xFF, 0xFF, 0x01, 0x05, 0x03, 0x20, 0x00, 0x06, 0xD0], .closing, .movingBlink,
      .start) := by decide
theorem test_EV_OPEN : outcome (fun t => (t.ports.wireTx, t.act.motion)) .evOpen
    (inMotion .closing 22 2 0 State.reset) = some ([], .closing) := by decide
/-- Program P4, step 9, and program P3, step 29. -/
theorem test_EV_SAMPLE : sending .evSample (inMotion .closing 20 4 0 State.reset) =
    some ⟨[0xFF, 0xFF, 0x01, 0x04, 0x02, 0x28, 0x02, 0xCE], .settle, 2, 8, 2, .sample, false⟩ := by decide
theorem test_PKT_STATUS_stall : outcome (fun t => (t.ports.wireTx, t.act, t.sup.ind, t.codec.cont))
    (.pktStatus [0xFF, 0xFF, 0x01, 0x04, 0x00, 0xFF, 0x03, 0xF8])
    (inMotion .opening 6 2 2 (atReply .sample 2)) =
    some ([0xFF, 0xFF, 0x01, 0x04, 0x03, 0x18, 0x00, 0xDF], ⟨.idle, 3, false, 0, 0, false⟩, .openSolid,
      .stop) := by decide
/-- Program P4, step 29: the deadline and a sample in one tick. -/
theorem test_TICK_deadline : outcome (fun t => (t.ports.wireTx, t.act, t.sup.ind, t.sup.evq)) .tick
    (inMotion .closing 1 1 0 State.reset) =
    some ([0xFF, 0xFF, 0x01, 0x04, 0x03, 0x18, 0x00, 0xDF], ⟨.emergency, 0, false, 0, 0, true⟩, .faultBlink,
      []) := by decide
theorem test_EV_DEADLINE_stale : outcome (fun t => decide (t = State.reset)) .evDeadline State.reset =
    some true := by decide
theorem test_PKT_WRITE :
    outcome (fun t => (t.ports.wireTx, t.codec.txbuf, t.codec.seq)) (.pktWrite 0x01 0x18 [0x01])
      State.reset = some ([0xFF, 0xFF, 0x01, 0x04, 0x03, 0x18, 0x01, 0xDE],
      [0xFF, 0xFF, 0x01, 0x04, 0x03, 0x18, 0x01, 0xDE], .idle) := by decide
theorem test_PKT_READ : outcome (·.ports.wireTx) (.pktRead 0x01 0x28 0x02) State.reset =
    some [0xFF, 0xFF, 0x01, 0x04, 0x02, 0x28, 0x02, 0xCE] := by decide
theorem test_PKT_REGWRITE : outcome (·.ports.wireTx) (.pktRegwrite 0xFE 0x20 [0x00, 0x02]) State.reset =
    some [0xFF, 0xFF, 0xFE, 0x05, 0x04, 0x20, 0x00, 0x02, 0xD6] := by decide
theorem test_PKT_ACTION : outcome (·.ports.wireTx) (.pktAction 0x01) State.reset =
    some [0xFF, 0xFF, 0x01, 0x02, 0x04, 0xF8] := by decide
theorem test_RESET : outcome (fun t => decide (t = State.reset)) .reset
    (inMotion .closing 5 1 1 (inFlight .sample 2 [0xFF, 0x01])) = some true := by decide

/-- V-LD-5, V-LD-7 to V-LD-9 and the thresholds of 2.6: 3/10 gives 306, 1 gives 1023, 0 gives 0. -/
theorem test_threshold :
    [0x01FF, 0x0200, 0x0600, 0xFBFF].map (overThreshold vectorParams) = [false, true, true, true] ∧
    [(3, 10), (1, 1), (0, 1)].map (fun f => torqueThresh { vectorParams with
      torqueNum := f.1, torqueDen := f.2 }) = [306, 1023, 0] := by decide

/-- V-ANG-14 to V-ANG-21. -/
theorem test_units_to_deg :
    [0, 1023, 512, 3, 205, 1, 341, 682].map unitsToDeg = [0, 300, 150, 0, 60, 0, 100, 200] := by decide

/-! ## Witnesses: a concrete case for the hypotheses of every statement that has some -/

theorem valid_params : vectorParams.Valid := by constructor <;> decide

theorem quiet_of {l : Link} (h : l.irqEn = true ∧ l.lineDir = .input ∧ l.hwRx = []) : l.Quiet :=
  ⟨h.1, h.2.1, h.2.2⟩

theorem atRest_of {s : State} (h : (s.link.irqEn = true ∧ s.link.lineDir = .input ∧ s.link.hwRx = []) ∧
    s.codec.seq = .idle ∧ s.act.motion = .idle) : s.AtRest :=
  ⟨quiet_of h.1, h.2.1, h.2.2⟩

theorem present_of {k : Nat} {s : State} (h : none ∉ s.ports.echoes.take k) : EchoPresent k s := h

theorem missing_of {k : Nat} {s : State} (h : none ∈ s.ports.echoes.take k) : ¬ EchoPresent k s := fun g => g h

theorem holds_of {depth : Nat} {l : Link} {bs : List Byte} (h : (l.rxq.length = depth ∧ l.rxRd < depth ∧
    l.rxWr = (l.rxRd + bs.length) % depth ∧ bs.length ≤ depth) ∧ ∀ j, j < depth →
    l.slot ((l.rxRd + j) % depth) = (bs[j]?.map (BitVec.setWidth 9)).getD emptySlot) :
    l.Holds depth bs :=
  ⟨h.1.1, h.1.2.1, h.1.2.2.1, h.1.2.2.2, h.2⟩

theorem reset_atRest : State.reset.AtRest := atRest_of (by decide)
theorem reset_present (k : Nat) : EchoPresent k State.reset := present_of (by simp [State.reset, State.resetWith])

/-- The line corrupts the first byte of the next frame and ends with a missing echo after `k` bytes. -/
def faulty (k : Nat) : State := drawing (some 0x00 :: List.replicate (k - 1) (some 0xFF) ++ [none])

/-- A load read of an opening motion at the moment its reply is taken, `ovl` hits counted. -/
def sampling (ovl : Nat) : State := inMotion .opening 5 2 ovl (atReply .sample 2)

/-- A load reply over the threshold: the word 512, with no error byte. -/
def stallReply : List Byte := [0xFF, 0xFF, 0x01, 0x04, 0x00, 0x00, 0x02, 0xF8]

theorem witness_StepRunsDecodedEvent :
    (decode (.ext .cmd) [0x10, 0x01, 0x18, 0x01, 0x01] = .ok (.cWrite 0x01 0x18 0x01 [0x01]) ∧
      Instr.wf State.reset.cfg (.cWrite 0x01 0x18 0x01 [0x01]) = true ∧
      ∃ t, exec (.cWrite 0x01 0x18 0x01 [0x01]) State.reset = .next t) ∧
    decode (.ext .edge) [0x04] = .error .badEdge ∧
    (decode (.ext .cmd) [0x10, 0x01, 0x18, 0x02, 0x01] = .ok (.cWrite 0x01 0x18 0x02 [0x01]) ∧
      Instr.wf State.reset.cfg (.cWrite 0x01 0x18 0x02 [0x01]) = false) ∧
    State.reset.ports.inbox = [] :=
  ⟨⟨by decide, by decide, _, rfl⟩, by decide, by decide, rfl⟩

theorem witness_FetchWordRuns : decodeTableWord 8 0x27 = some (.readLoad 0x00) ∧
    Instr.wf State.reset.cfg (.readLoad 0x00) = true := by decide

theorem witness_DecodeEncodeAgree : vectorParams.Valid ∧
    Instr.wf vectorParams (.pktWrite 0xFE 0xFF (List.replicate 8 0x80)) = true ∧
    Instr.wf vectorParams (.cRegwrite 0x01 0x20 0x08 (List.replicate 8 0x80)) = true :=
  ⟨valid_params, by decide, by decide⟩

theorem witness_PacketsAreFrames :
    decode .txPacket [0xFF, 0xFF, 0x01, 0x02, 0x04, 0xF8] = .ok (.pktAction 0x01) := by decide

theorem witness_ReservedCodes : State.reset.AtRest ∧
    ∀ op ∈ ([0x00, 0x05, 0x0F, 0x14, 0x1F, 0x2A, 0xFF] : List Byte),
      decode (.ext .cmd) [op, 0, 0, 0] = .ok (.cmdReserved op) :=
  ⟨reset_atRest, by decide⟩

theorem witness_FrameLayout : (List.replicate 253 (0x01 : Byte)).length ≤ 253 :=
  Nat.le_of_eq List.length_replicate

theorem witness_EchoOkMeansUnchanged :
    (∀ k ∈ [0, 1, 253], State.reset.link.Quiet ∧
      EchoPresent ((List.replicate k (0x01 : Byte)).length + 6) State.reset) ∧
    (faulty 8).link.Quiet ∧ EchoPresent ([(0x18 : Byte), 0x01].length + 6) (faulty 8) ∧
    (sendFrame 0x01 0x03 [0x18, 0x01] (faulty 8)).codec.echoOk = false :=
  ⟨fun _ _ => ⟨quiet_of (by decide), reset_present _⟩, quiet_of (by decide), present_of (by decide),
    by decide⟩

theorem witness_PacketsSent :
    (State.reset.link.Quiet ∧ State.reset.codec.seq = .idle ∧ EchoPresent 8 State.reset) ∧
    ((faulty 8).link.Quiet ∧ (faulty 8).codec.seq = .idle ∧ EchoPresent 8 (faulty 8)) ∧
    (∀ k ∈ [1, 252], 1 ≤ (List.replicate k (0x01 : Byte)).length ∧
      (List.replicate k (0x01 : Byte)).length ≤ 252 ∧ EchoPresent (k + 7) State.reset) ∧
    ((inFlight .host 0 []).link.Quiet ∧ (inFlight .host 0 []).codec.seq = .settle) :=
  ⟨⟨quiet_of (by decide), by decide, reset_present 8⟩,
    ⟨quiet_of (by decide), by decide, present_of (by decide)⟩,
    fun k hk => ⟨by rw [List.length_replicate]; revert k; decide,
      by rw [List.length_replicate]; revert k; decide, reset_present _⟩,
    quiet_of (by decide), by decide⟩

theorem witness_SendCommand :
    ((drawing [some 0x5B]).AtRest ∧ (drawing [some 0x5B]).ports.echoes.head? = some (some 0x5B)) ∧
    (State.reset.AtRest ∧ State.reset.ports.echoes = []) :=
  ⟨⟨atRest_of (by decide), by decide⟩, reset_atRest, rfl⟩

theorem witness_MissingEchoSticks :
    ((drawing [none]).AtRest ∧ (drawing [none]).ports.echoes = none :: []) ∧
    ((faulty 7).AtRest ∧
      (∀ i ∈ [Instr.cWrite 0xFE 0x18 0x01 [0x55], .cRead 0xFD 0x28 0x01, .torqueEn 0x01 0x01,
          .pktWrite 0x01 0x18 [0x01]],
        (∃ bytes, frameOf (faulty 7).cfg i = some bytes ∧ bytes.length = 8) ∧
          refusalOf (faulty 7).cfg i = none) ∧
      ¬ EchoPresent 8 (faulty 7)) ∧
    ((faulty 8).AtRest ∧ (0x01 : Byte) ≠ 0xFF ∧ ¬ EchoPresent 9 (faulty 8)) ∧
    ((faulty 9).AtRest ∧ (0xFE : Byte) ≠ 0xFF ∧ EchoPresent 9 (faulty 9) ∧ ¬ EchoPresent 18 (faulty 9)) := by
  refine ⟨⟨atRest_of (by decide), rfl⟩, ⟨atRest_of (by decide), fun i hi => ?_, missing_of (by decide)⟩,
    ⟨atRest_of (by decide), by decide, missing_of (by decide)⟩, atRest_of (by decide), by decide,
    present_of (by decide), missing_of (by decide)⟩
  simp only [List.mem_cons, List.not_mem_nil, or_false] at hi
  rcases hi with rfl | rfl | rfl | rfl <;> exact ⟨⟨_, rfl, by decide⟩, by decide⟩

/-- The line gives no echo at all. -/
def deaf (s : State) : State := { s with ports := { s.ports with echoes := [none] } }

theorem witness_MissingEchoInController :
    ((deaf State.reset).link.Quiet ∧ (deaf State.reset).codec.seq = .idle ∧
      (deaf State.reset).act.motion = .idle ∧ ¬ EchoPresent 9 (deaf State.reset)) ∧
    (let s := deaf (inMotion .opening 24 4 0 State.reset);
      s.link.Quiet ∧ s.codec.seq = .idle ∧ s.moving ∧ ¬ EchoPresent 8 s) ∧
    (let s := deaf (sampling 2);
      s.link.Quiet ∧ s.codec.seq = .settle ∧ s.codec.settleCnt = 0 ∧ s.codec.cont = .sample ∧
        s.codec.expN = 8 ∧ s.codec.rdN = 2 ∧ s.moving ∧ usableReply stallReply ∧
        overReply s.cfg stallReply ∧ s.act.ovlCnt + 1 = s.cfg.validCount ∧ ¬ EchoPresent 8 s) ∧
    (let s := deaf (atReply .hostMode2 0);
      s.link.Quiet ∧ s.codec.seq = .settle ∧ s.codec.settleCnt = 0 ∧ s.codec.cont = .hostMode2 ∧
        s.codec.expN = 6 ∧ s.codec.rdN = 0 ∧ ¬ EchoPresent 9 s) ∧
    (([0xFF, 0xFF, 0x01, 0x02, 0x00, 0xFC] : List Byte).length = 6 ∧
      ([0xFF, 0xFF, 0x01, 0x02, 0x00, 0xFC] : List Byte).getD 4 0 = 0) :=
  ⟨⟨quiet_of (by decide), by decide, by decide, missing_of (by decide)⟩,
    ⟨quiet_of (by decide), by decide, Or.inl rfl, missing_of (by decide)⟩,
    ⟨quiet_of (by decide), by decide, by decide, by decide, by decide, by decide, Or.inl rfl, by decide,
      by decide, by decide, missing_of (by decide)⟩,
    ⟨quiet_of (by decide), by decide, by decide, by decide, by decide, by decide, missing_of (by decide)⟩,
    by decide⟩

theorem witness_StuckUntilReset :
    ({ State.reset with link := { State.reset.link with lineDir := .output } } : State).stuck = true := by
  decide

theorem witness_RxAvailable :
    (State.reset.AtRest ∧ State.reset.link.Holds State.reset.cfg.rxqDepth []) ∧
    ((heard [0x12]).AtRest ∧ (heard [0x12]).link.Holds (heard [0x12]).cfg.rxqDepth [0x12]) :=
  ⟨⟨reset_atRest, holds_of (by decide)⟩, atRest_of (by decide), holds_of (by decide)⟩

theorem witness_RxByteTakesOldest :
    (State.reset.AtRest ∧ State.reset.link.Holds State.reset.cfg.rxqDepth []) ∧
    ((heard (List.replicate 16 0xFF)).AtRest ∧
      (heard (List.replicate 16 0xFF)).link.Holds 16 (0xFF :: List.replicate 15 0xFF)) :=
  ⟨⟨reset_atRest, holds_of (by decide)⟩, atRest_of (by decide), holds_of (by decide)⟩

theorem witness_ReinitRebuilds : State.reset.AtRest ∧
    ¬ ((0x00 : Byte) = 0 ∧ (0x00 : Byte) = 0 ∧ (0x00 : Byte) = 0 ∧ (0x01 : Byte) = 0) :=
  ⟨reset_atRest, by decide⟩

theorem witness_LineByteCaptured :
    (State.reset.link.Quiet ∧ State.reset.link.Holds State.reset.cfg.rxqDepth []) ∧
    ((heard (List.replicate 16 0x01)).link.Quiet ∧
      (heard (List.replicate 16 0x01)).link.Holds 16 (List.replicate 16 0x01)) :=
  ⟨⟨quiet_of (by decide), holds_of (by decide)⟩, quiet_of (by decide), holds_of (by decide)⟩

theorem witness_CaptureQueueIsFifo : vectorParams.Valid := valid_params

theorem witness_WriteCommands : State.reset.AtRest ∧ State.reset.sup.evq = [] ∧
    (∀ id ∈ ([0x00, 0xFD, 0xFE] : List Byte), id ≠ 0xFF) ∧
    ∀ n ∈ ([0x01, 0x08] : List Byte), 1 ≤ n.toNat ∧ n.toNat ≤ State.reset.cfg.maxp ∧
      (List.replicate n.toNat (0xFF : Byte)).length = n.toNat ∧ EchoPresent (n.toNat + 7) State.reset := by
  refine ⟨reset_atRest, rfl, by decide, fun n hn => ?_⟩
  simp only [List.mem_cons, List.not_mem_nil, or_false] at hn
  rcases hn with rfl | rfl <;> exact ⟨by decide, by decide, by decide, reset_present _⟩

theorem witness_ReadCommand : State.reset.AtRest ∧ EchoPresent 8 State.reset ∧
    ((0xFD : Byte) ≠ 0xFF ∧ (0xFD : Byte) ≠ 0xFE) ∧
    ∀ n ∈ ([0x01, 0x08] : List Byte), 1 ≤ n.toNat ∧ n.toNat ≤ State.reset.cfg.maxp :=
  ⟨reset_atRest, reset_present 8, by decide, by decide⟩

theorem witness_ActionCommand : State.reset.AtRest ∧ State.reset.sup.evq = [] ∧ (0xFE : Byte) ≠ 0xFF ∧
    EchoPresent 6 State.reset :=
  ⟨reset_atRest, rfl, by decide, reset_present 6⟩

theorem witness_DerivedWrites : State.reset.AtRest ∧ State.reset.sup.evq = [] ∧
    ((0x00 : Byte) ≠ 0xFF ∧ (0xFE : Byte) ≠ 0xFF) ∧
    ((0x01 : Byte).toNat ≤ 1 ∧ (0x07 : Byte).toNat ≤ 0x07 ∧ (0x03 : Byte).toNat ≤ 0x03) ∧
    EchoPresent 8 State.reset ∧ EchoPresent 9 State.reset :=
  ⟨reset_atRest, rfl, by decide, by decide, reset_present 8, reset_present 9⟩

theorem witness_DerivedReads : State.reset.AtRest ∧ ((0xFD : Byte) ≠ 0xFF ∧ (0xFD : Byte) ≠ 0xFE) ∧
    EchoPresent 8 State.reset :=
  ⟨reset_atRest, by decide, reset_present 8⟩

theorem witness_DerivedAreExpansions :
    (State.reset.cfg.Valid ∧
      (0x01 : Byte).toNat ≤ 1 ∧ (0x07 : Byte).toNat ≤ 0x07 ∧ (0x03 : Byte).toNat ≤ 0x03) ∧
    (let s : State := { State.reset with link := { State.reset.link with lineDir := .output } };
      s.cfg.Valid ∧ s.stuck = true) ∧
    ((inFlight .host 0 []).cfg.Valid ∧ (inFlight .host 0 []).busy = true) ∧
    (State.reset.stuck = false ∧ State.reset.busy = false ∧ State.reset.sup.evq = [] ∧
      (0xFD : Byte) ≠ 0xFF ∧ (0xFD : Byte) ≠ 0xFE) ∧
    ((atReply .hostMode2 0).cfg.Valid ∧ (atReply .hostMode2 0).stuck = false ∧
      (atReply .hostMode2 0).codec.seq = .settle ∧ (atReply .hostMode2 0).codec.settleCnt = 0 ∧
      (atReply .hostMode2 0).codec.cont = .hostMode2 ∧ (atReply .hostMode2 0).codec.expN = 6 ∧
      (atReply .hostMode2 0).act.motion = .idle ∧ (atReply .hostMode2 0).codec.hostId ≠ 0xFF ∧
      (atReply .hostMode2 0).codec.hostId ≠ 0xFE) ∧
    (([0xFF, 0xFF, 0x01, 0x02, 0x00, 0xFC] : List Byte).length = 6 ∧
      ([0xFF, 0xFF, 0x01, 0x02, 0x00, 0xFC] : List Byte).getD 4 0 = 0) :=
  ⟨⟨valid_params, by decide⟩, ⟨valid_params, by decide⟩, ⟨valid_params, by decide⟩, by decide,
    ⟨valid_params, by decide⟩, by decide⟩

theorem witness_ModeContBegins : State.reset.AtRest ∧ State.reset.sup.evq = [] ∧
    ((0xFD : Byte) ≠ 0xFF ∧ (0xFD : Byte) ≠ 0xFE) ∧ EchoPresent 9 State.reset ∧
    EchoPresent 18 State.reset :=
  ⟨reset_atRest, rfl, by decide, reset_present 9, reset_present 18⟩

theorem witness_AcceptanceOrder : State.reset.AtRest ∧
    refusalOf State.reset.cfg (.cmdReserved 0x00) = some .opcode ∧
    refusalOf State.reset.cfg (.cWrite 0xFF 0x18 0x00 []) = some .ident ∧
    refusalOf State.reset.cfg (.cWrite 0xFE 0x18 0x09 []) = some .len ∧
    refusalOf State.reset.cfg (.cRead 0xFE 0x28 0x01) = some .ident ∧
    refusalOf State.reset.cfg (.readTemp 0xFE) = some .ident ∧
    refusalOf State.reset.cfg (.cAction 0xFF) = some .ident ∧
    refusalOf State.reset.cfg (.torqueEn 0x01 0x02) = some .operand ∧
    refusalOf State.reset.cfg (.setSpeed 0x01 0xFF 0x08) = some .operand ∧
    refusalOf State.reset.cfg (.setCcwLimit 0x01 0xFF 0x04) = some .operand ∧
    refusalOf State.reset.cfg (.tReinit 0 0 0 0) = some .operand :=
  ⟨reset_atRest, by decide, by decide, by decide, by decide, by decide, by decide, by decide, by decide,
    by decide, by decide⟩

theorem witness_BusyRefusesEveryCommand :
    ((inFlight .host 0 []).stuck = false ∧ (inFlight .host 0 []).codec.seq = .settle ∧
      isCommand (.tSend 0x00) = true) ∧
    ((inMotion .closing 24 4 0 State.reset).stuck = false ∧
      (inMotion .closing 24 4 0 State.reset).act.motion ≠ .idle ∧
      isCommand (.cmdReserved 0xFF) = true) := by decide

theorem witness_HostReply :
    ((atReply .host 8).link.Quiet ∧ (atReply .host 8).codec.seq = .settle ∧
      (atReply .host 8).codec.settleCnt = 0 ∧ (atReply .host 8).codec.cont = .host ∧
      (atReply .host 8).sup.evq = [] ∧
      (atReply .host 8).codec.expN = 6 + (atReply .host 8).codec.rdN ∧
      (List.replicate 14 (0x05 : Byte)).length = (atReply .host 8).codec.expN ∧
      (List.replicate 13 (0x05 : Byte)).length < (atReply .host 8).codec.expN ∧
      (atReply .host 8).codec.expN ≤ (List.replicate 15 (0x05 : Byte)).length) ∧
    State.reset.codec.seq = .idle ∧ 1 ≤ (inFlight .host 0 []).codec.settleCnt :=
  ⟨⟨quiet_of (by decide), by decide⟩, by decide⟩

theorem witness_ModeContContinues :
    ((atReply .hostMode2 0).link.Quiet ∧ (atReply .hostMode2 0).codec.seq = .settle ∧
      (atReply .hostMode2 0).codec.settleCnt = 0 ∧ (atReply .hostMode2 0).codec.cont = .hostMode2 ∧
      (atReply .hostMode2 0).codec.expN = 6 ∧ (atReply .hostMode2 0).codec.rdN = 0 ∧
      (atReply .hostMode2 0).sup.evq = [] ∧ (atReply .hostMode2 0).codec.hostId ≠ 0xFE) ∧
    EchoPresent 9 (atReply .hostMode2 0) ∧
    (([0xFF, 0xFF, 0x01, 0x02, 0x00, 0xFC] : List Byte).length = 6 ∧
      ([0xFF, 0xFF, 0x01, 0x02, 0x00, 0xFC] : List Byte).getD 4 0 = 0) ∧
    (([0xFF, 0xFF, 0x01, 0x02, 0x08, 0xF4] : List Byte).length = 6 ∧
      ([0xFF, 0xFF, 0x01, 0x02, 0x08, 0xF4] : List Byte).getD 4 0 ≠ 0) ∧
    ([0xFF, 0xFF, 0x01, 0x02, 0x00] : List Byte).length < 6 :=
  ⟨⟨quiet_of (by decide), by decide⟩, present_of (by decide), by decide, by decide, by decide⟩

theorem witness_BlindContinuations : ∀ k ∈ [Cont.start, .stop, .emerg],
    (atReply k 0).link.Quiet ∧ (atReply k 0).codec.seq = .settle ∧ (atReply k 0).codec.settleCnt = 0 ∧
      (atReply k 0).sup.evq = [] ∧ (atReply k 0).codec.cont = k := by
  intro k hk
  simp only [List.mem_cons, List.not_mem_nil, or_false] at hk
  rcases hk with rfl | rfl | rfl <;> exact ⟨quiet_of (by decide), by decide⟩

/-- The threshold is 511: the words 511 and 512, a reply with an error byte, and a short reply. -/
theorem witness_SampleContinues :
    (∀ ovl ∈ [0, 2], (sampling ovl).link.Quiet ∧ (sampling ovl).codec.seq = .settle ∧
      (sampling ovl).codec.settleCnt = 0 ∧ (sampling ovl).codec.cont = .sample ∧
      (sampling ovl).codec.expN = 8 ∧ (sampling ovl).codec.rdN = 2 ∧ (sampling ovl).moving ∧
      (sampling ovl).sup.evq = [] ∧ 1 ≤ (sampling ovl).cfg.validCount ∧ EchoPresent 8 (sampling ovl)) ∧
    ((sampling 0).act.ovlCnt + 1 ≠ (sampling 0).cfg.validCount ∧
      (sampling 2).act.ovlCnt + 1 = (sampling 2).cfg.validCount) ∧
    (∀ hi lo : Byte, (hi = 0x01 ∧ lo = 0xFF) ∨ (hi = 0x02 ∧ lo = 0x00) →
      let r : List Byte := [0xFF, 0xFF, 0x01, 0x04, 0x00, lo, hi, 0x00];
      r.length = 8 ∧ r.getD 4 0 = 0 ∧ 4 ≤ (r.getD 3 0).toNat) ∧
    (((0xFF : Byte).toNat + 256 * (0x01 : Byte).toNat) % 1024 ≤ 1023 * 1 / 2 ∧
      1023 * 1 / 2 < ((0x00 : Byte).toNat + 256 * (0x02 : Byte).toNat) % 1024) ∧
    (∀ r ∈ ([[0xFF, 0xFF, 0x01, 0x04, 0x20, 0xFF, 0x03, 0xD8], [0xFF, 0xFF, 0x01, 0x03, 0x00, 0x20, 0xDB, 0x00],
        [0xFF]] : List (List Byte)), r.length ≤ 8 ∧
      ¬ (r.length = 8 ∧ r.getD 4 0 = 0 ∧ 4 ≤ (r.getD 3 0).toNat)) := by
  refine ⟨fun ovl ho => ?_, by decide, ?_, by decide, by decide⟩
  · simp only [List.mem_cons, List.not_mem_nil, or_false] at ho
    rcases ho with rfl | rfl <;>
      exact ⟨quiet_of (by decide), by decide, by decide, by decide, by decide, by decide, Or.inl rfl,
        by decide, by decide, present_of (by decide)⟩
  · rintro hi lo (⟨rfl, rfl⟩ | ⟨rfl, rfl⟩) <;> decide

/-- A load read that ends with the events `evs` pending, `ovl` hits counted. -/
def tie (ovl : Nat) (evs : List CtrlEv) : State :=
  { sampling ovl with sup := { (sampling ovl).sup with evq := evs } }

/-- C8 of `90_conflicts.md`: the read completes with a load read pending before the deadline; the deadline is
dispatched in this step. -/
theorem test_deadline_passes_sample : outcome (fun t => (t.act.motion, t.sup.evq, t.ports.wireTx))
    (.pktStatus [0xFF]) (tie 0 [.sample, .deadline]) =
    some (.emergency, [], [0xFF, 0xFF, 0x01, 0x04, 0x03, 0x18, 0x00, 0xDF]) := by decide

/-- A reply that confirms, and for each reason why a reply does not one that does not: too short, an error
byte, one valid byte, within the threshold; and the confirming one with the count not reached. -/
theorem witness_StallBeatsDeadline :
    (∀ ovl ∈ [0, 2], ∀ evs ∈ [[CtrlEv.deadline], [.sample, .deadline], [.openEv, .deadline]],
      (tie ovl evs).link.Quiet ∧ (tie ovl evs).codec.seq = .settle ∧ (tie ovl evs).codec.settleCnt = 0 ∧
        (tie ovl evs).codec.cont = .sample ∧ (tie ovl evs).codec.expN = 8 ∧
        (tie ovl evs).codec.rdN = 2 ∧ (tie ovl evs).moving ∧ 1 ≤ (tie ovl evs).cfg.validCount ∧
        .deadline ∈ (tie ovl evs).sup.evq ∧ .closeEv ∉ (tie ovl evs).sup.evq ∧
        EchoPresent 8 (tie ovl evs)) ∧
    (usableReply stallReply ∧ overReply (tie 2 []).cfg stallReply ∧
      (tie 2 []).act.ovlCnt + 1 = (tie 2 []).cfg.validCount ∧ stallReply.length ≤ 8) ∧
    (∀ r ∈ ([[0xFF, 0xFF, 0x01, 0x04, 0x00, 0x00, 0x02], [0xFF, 0xFF, 0x01, 0x04, 0x20, 0x00, 0x02, 0xD8],
        [0xFF, 0xFF, 0x01, 0x03, 0x00, 0x00, 0x02, 0xF9], [0xFF, 0xFF, 0x01, 0x04, 0x00, 0xFF, 0x01, 0xFA]] :
          List (List Byte)), r.length ≤ 8 ∧
      ¬ (usableReply r ∧ overReply (tie 2 []).cfg r ∧
        (tie 2 []).act.ovlCnt + 1 = (tie 2 []).cfg.validCount)) ∧
    (tie 0 []).act.ovlCnt + 1 ≠ (tie 0 []).cfg.validCount := by
  refine ⟨fun ovl ho evs he => ?_, by decide, by decide, by decide⟩
  simp only [List.mem_cons, List.not_mem_nil, or_false] at ho he
  rcases ho with rfl | rfl <;> rcases he with rfl | rfl | rfl <;>
    exact ⟨quiet_of (by decide), by decide, by decide, by decide, by decide, by decide, Or.inl rfl,
      by decide, by decide, by decide, present_of (by decide)⟩

/-- A transaction that ends with an intent pending, pressed while it was in flight: the hypotheses of
`HostReply`, `ModeContContinues` and `BlindContinuations` leave the queue open. -/
theorem witness_replies_with_events : ∀ k ∈ [Cont.host, .hostMode2, .start, .stop, .emerg],
    let s : State := { atReply k 0 with sup := { (atReply k 0).sup with evq := [.openEv] } }
    s.link.Quiet ∧ s.codec.seq = .settle ∧ s.codec.settleCnt = 0 ∧ s.codec.cont = k ∧
      s.codec.expN = 6 ∧ s.codec.rdN = 0 := by
  intro k hk
  simp only [List.mem_cons, List.not_mem_nil, or_false] at hk
  rcases hk with rfl | rfl | rfl | rfl | rfl <;> exact ⟨quiet_of (by decide), by decide⟩

/-- An over-threshold sample, an unusable one, and one within the threshold. -/
def overHit : Result := ⟨.reply, 0, 2, [0x00, 0x02], true, true⟩
def missed : Result := ⟨.noReply, 0, 0, [], true, false⟩
def within : Result := ⟨.reply, 0, 2, [0xFF, 0x01], true, true⟩

theorem witness_StallCountsConsecutive :
    (inMotion .closing 20 4 0 State.reset).moving ∧ (inMotion .closing 20 4 0 State.reset).act.ovlCnt = 0 ∧
    (∀ pre, pre <+: [overHit, within, overHit, missed, overHit] →
      overRun (inMotion .closing 20 4 0 State.reset).cfg pre <
        (inMotion .closing 20 4 0 State.reset).cfg.validCount) ∧
    overHit.usable = true ∧
    overRun (inMotion .closing 20 4 0 State.reset).cfg [overHit, within, overHit, missed, overHit, overHit] =
      (inMotion .closing 20 4 0 State.reset).cfg.validCount := by
  refine ⟨Or.inr rfl, rfl, fun pre h => ?_, by decide, by decide⟩
  have h2 : pre ∈ [overHit, within, overHit, missed, overHit].inits := (List.mem_inits pre _).mpr h
  clear h
  revert pre
  decide

theorem witness_TickCounts :
    ((State.reset.stuck = false ∧ State.reset.codec.seq = .idle ∧ State.reset.sup.evq = [] ∧
      tickEvents State.reset = [])) ∧
    (let s := { inFlight .host 0 [] with codec := { (inFlight .host 0 []).codec with settleCnt := 2 } };
      s.stuck = false ∧ s.codec.seq = .settle ∧ 2 ≤ s.codec.settleCnt) ∧
    tickEvents (inMotion .closing 1 1 0 State.reset) = [.deadline, .sample] := by decide

theorem witness_TickTakesReply :
    (inFlight .host 2 [0xFF, 0x01]).stuck = false ∧ (inFlight .host 2 [0xFF, 0x01]).codec.seq = .settle ∧
    (inFlight .host 2 [0xFF, 0x01]).codec.settleCnt = 1 ∧
    (inFlight .host 2 [0xFF, 0x01]).link.Holds (inFlight .host 2 [0xFF, 0x01]).cfg.rxqDepth [0xFF, 0x01] :=
  ⟨by decide, by decide, by decide, holds_of (by decide)⟩

theorem witness_SettleIntervalExact :
    (∀ bs ∈ ([List.replicate 6 0xFF, List.replicate 5 0xFF] : List (List Byte)),
      (inFlight .host 0 bs).link.Quiet ∧
      (inFlight .host 0 bs).link.Holds (inFlight .host 0 bs).cfg.rxqDepth bs ∧
      (inFlight .host 0 bs).codec.seq = .settle ∧ 1 ≤ (inFlight .host 0 bs).codec.settleCnt ∧
      (inFlight .host 0 bs).codec.cont = .host ∧ (inFlight .host 0 bs).codec.expN = 6) := by
  intro bs hb
  simp only [List.mem_cons, List.not_mem_nil, or_false] at hb
  rcases hb with rfl | rfl <;> exact ⟨quiet_of (by decide), holds_of (by decide), by decide⟩

theorem witness_EdgePressed :
    (State.reset.stuck = false ∧ State.reset.sup.openBtn.held = false ∧
      State.reset.sup.closeBtn.held = false ∧ 1 ≤ State.reset.cfg.holdTicks) ∧
    (let s : State := { State.reset with cfg := { vectorParams with holdTicks := 0 } };
      s.stuck = false ∧ s.sup.openBtn.held = false ∧ s.sup.closeBtn.held = false ∧
        s.cfg.holdTicks = 0) ∧
    (let s : State := { State.reset with sup := ⟨[], .off, ⟨true, 1, false⟩, ⟨true, 2, true⟩⟩ };
      s.stuck = false ∧ s.sup.openBtn.held = true ∧ s.sup.closeBtn.held = true) := by decide

theorem witness_EdgeReleased : State.reset.stuck = false ∧
    ({ State.reset with sup := ⟨[], .off, ⟨true, 1, false⟩, ⟨true, 2, true⟩⟩ } : State).stuck = false := by
  decide

theorem witness_HoldQualifiesOnce : 1 ≤ vectorParams.holdTicks ∧ 1 ≤ 1 := by decide

/-- Both buttons held, one tick before they qualify. -/
def bothHeld : State := { State.reset with sup := ⟨[], .off, ⟨true, 1, false⟩, ⟨true, 1, false⟩⟩ }

theorem witness_CloseWinsTie : bothHeld.AtRest ∧ EchoPresent 9 bothHeld ∧
    (bothHeld.sup.evq = [] ∧ bothHeld.act.timersOn = false ∧ bothHeld.sup.closeBtn.held = true ∧
      bothHeld.sup.closeBtn.fired = false ∧ bothHeld.cfg.holdTicks ≤ bothHeld.sup.closeBtn.cnt + 1 ∧
      bothHeld.sup.openBtn.held = true ∧ bothHeld.sup.openBtn.fired = false ∧
      bothHeld.cfg.holdTicks ≤ bothHeld.sup.openBtn.cnt + 1) :=
  ⟨atRest_of (by decide), present_of (by decide), by decide⟩

theorem witness_MotionBegins :
    (State.reset.link.Quiet ∧ State.reset.codec.seq = .idle ∧ State.reset.act.motion = .idle ∧
      EchoPresent 9 State.reset) ∧
    ((inMotion .opening 24 4 0 State.reset).link.Quiet ∧
      (inMotion .opening 24 4 0 State.reset).codec.seq = .idle ∧
      (inMotion .opening 24 4 0 State.reset).act.motion ≠ .idle) :=
  ⟨⟨quiet_of (by decide), by decide, by decide, reset_present 9⟩, quiet_of (by decide), by decide⟩

theorem witness_SampleReads :
    ((inMotion .opening 24 4 0 State.reset).link.Quiet ∧
      (inMotion .opening 24 4 0 State.reset).codec.seq = .idle ∧
      (inMotion .opening 24 4 0 State.reset).moving ∧
      EchoPresent 8 (inMotion .opening 24 4 0 State.reset)) ∧
    (State.reset.link.Quiet ∧ State.reset.codec.seq = .idle ∧ ¬ State.reset.moving) :=
  ⟨⟨quiet_of (by decide), by decide, Or.inl rfl, present_of (by decide)⟩, quiet_of (by decide), by decide,
    fun h => by rcases h with h | h <;> exact absurd h (by decide)⟩

theorem witness_DeadlineEmergency :
    ((inMotion .closing 0 4 2 State.reset).link.Quiet ∧
      (inMotion .closing 0 4 2 State.reset).codec.seq = .idle ∧
      (inMotion .closing 0 4 2 State.reset).moving ∧
      EchoPresent 8 (inMotion .closing 0 4 2 State.reset)) ∧
    (State.reset.link.Quiet ∧ State.reset.codec.seq = .idle ∧ ¬ State.reset.moving) :=
  ⟨⟨quiet_of (by decide), by decide, Or.inr rfl, present_of (by decide)⟩, witness_SampleReads.2⟩

theorem witness_EventsWait :
    (inFlight .start 0 []).stuck = false ∧ (inFlight .start 0 []).codec.seq = .settle := by decide

theorem witness_DispatchTakesEvents :
    State.reset.sup.evq = [] ∧
    (∀ evs ∈ [[CtrlEv.deadline, .sample], [.sample, .openEv], [.sample, .deadline],
        [.sample, .openEv, .deadline]],
      let s : State := { inMotion .opening 24 4 0 State.reset with
        sup := ⟨evs, .movingBlink, Button.released, Button.released⟩ }
      s.sup.evq = evs ∧ s.codec.seq = .idle ∧ s.stuck = false) ∧
    (CtrlEv.deadline ≠ .sample ∧ CtrlEv.deadline ∉ [CtrlEv.openEv]) ∧
    (CtrlEv.openEv ≠ .sample ∧ CtrlEv.deadline ∈ [CtrlEv.openEv, .deadline]) := by decide

/-- An instance whose settle interval is `settle` ticks, right after a `K_START`, on a healthy line. -/
def started (settle timeout deadline : Nat) : State :=
  { inMotion .opening deadline 4 0 State.reset with
    cfg := { vectorParams with settleTicks := settle, timeoutTicks := timeout }
    sup := ⟨[], .movingBlink, ⟨true, 2, true⟩, Button.released⟩ }

theorem started_inv {settle timeout deadline : Nat} (h1 : 1 ≤ settle) (h2 : 1 ≤ deadline)
    (h3 : deadline ≤ timeout) : (started settle timeout deadline).Inv := by
  have hm : (started settle timeout deadline).moving := Or.inl rfl
  have hnb : ∀ P : Prop, (started settle timeout deadline).codec.seq = .settle → P := by
    intro P h; cases (show Seq.idle = Seq.settle from h)
  refine ⟨⟨?_, ⟨[], ?_⟩, ?_⟩, fun h => absurd h (by show ¬ (false = true); decide), fun _ => ⟨?_, ?_, ?_⟩,
    fun _ h => absurd rfl h⟩
  · have := valid_params
    exact ⟨this.baud, this.servoId, this.torqueDen, this.torqueFrac, this.validCount,
      by show 1 ≤ timeout; omega, this.sampleTicks, h1, this.rxqDepth, this.maxpLow, this.maxpHigh,
      this.nVolt, this.nTemp⟩
  · exact (holds_of (by decide) : State.reset.link.Holds 16 [])
  · refine ⟨Nat.zero_le _, by show 0 ≤ 8; decide, by show 0 ≤ 8; decide, rfl,
      Nat.zero_le _, h3, by show 4 ≤ 4; decide, List.nodup_nil, ⟨?_, by show 2 ≤ 2; decide, ?_⟩,
      ⟨fun _ => ⟨rfl, rfl⟩, Nat.zero_le _, ?_⟩⟩
    · intro h; cases (show true = false from h)
    · intro _ h; cases (show true = false from h)
    · intro h; cases (show false = true from h)
  · exact quiet_of (by show _ = true ∧ _ = _ ∧ _ = _; exact ⟨rfl, rfl, rfl⟩)
  · exact ⟨hnb _, hnb _, hnb _, hnb _, hnb _, hnb _,
      fun h => by cases (show Motion.opening = .emergency from h)⟩
  · refine ⟨fun _ => hm, fun _ => Or.inl rfl, ?_, fun _ => rfl, fun _ => by show 1 ≤ 4; decide, fun _ h => ?_,
      ?_, fun _ => by show 0 < 3; decide⟩
    · rintro (h | h) <;> exact absurd h List.not_mem_nil
    · change deadline = 0 at h; omega
    · intro h; exact absurd h List.not_mem_nil

/-- The same motion with a load read in flight, `k` ticks of its settle interval of 2 left. -/
def reading (k : Nat) : State :=
  { started 2 24 1 with codec := { State.reset.codec with
      seq := .settle, settleCnt := k, expN := 8, rdN := 2, cont := .sample } }

theorem reading_inv {k : Nat} (h1 : 1 ≤ k) (h2 : k ≤ 2) : (reading k).Inv := by
  obtain ⟨⟨hp, hq, hr⟩, -, hl, -⟩ := started_inv (settle := 2) (timeout := 24) (deadline := 1)
    (by decide) (by decide) (by decide)
  obtain ⟨hquiet, -, ht⟩ := hl (by decide)
  have hm : (reading k).moving := Or.inl rfl
  refine ⟨⟨hp, hq, ⟨h2, by show 2 ≤ 8; decide, hr.rspN, hr.rspData, hr.ovlCnt, hr.deadlineCnt, hr.sampleCnt,
      hr.evq, hr.openBtn, hr.closeBtn⟩⟩, fun h => absurd h (by show ¬ (false = true); decide),
    fun _ => ⟨hquiet, ⟨fun _ => h1, fun _ => rfl, ?_, fun _ _ => ⟨hm, rfl, rfl⟩, ?_, ?_, ?_⟩,
      ⟨fun _ => hm, fun _ => Or.inl rfl, ht.events, ht.counts, ht.running, ht.deadline, ht.expired, ht.hits⟩⟩,
    fun _ _ => rfl⟩
  · intro _ h; cases (show Cont.sample = .start from h)
  · intro _ h; cases (show Cont.sample = .emerg from h)
  · rintro _ (h | h | h)
    · cases (show Cont.sample = .host from h)
    · cases (show Cont.sample = .hostMode2 from h)
    · cases (show Cont.sample = .stop from h)
  · intro h; cases (show Motion.opening = .emergency from h)

/-- The deadline reached with no transaction in flight, before the last tick of a settle interval and in it;
and one tick before it. -/
theorem witness_DeadlineDispatched :
    (∀ s ∈ [started 2 24 1, reading 2, reading 1, started 2 24 2],
      s.Inv ∧ s.stuck = false ∧ s.moving ∧ s.act.timersOn = true ∧ s.sup.closeBtn.held = false ∧
        .closeEv ∉ s.sup.evq ∧ none ∉ s.ports.echoes) ∧
    ((started 2 24 1).codec.seq = .idle ∧ (started 2 24 1).act.deadlineCnt = 1) ∧
    (∀ k ∈ [1, 2], (reading k).codec.seq = .settle ∧ (reading k).codec.settleCnt = k ∧
      (reading k).act.deadlineCnt ≤ 1) ∧
    (2 ≤ (started 2 24 2).act.deadlineCnt ∧ ∃ t, exec .tick (started 2 24 2) = .next t) := by
  refine ⟨fun s hs => ?_, by decide, by decide, by decide, _, rfl⟩
  simp only [List.mem_cons, List.not_mem_nil, or_false] at hs
  rcases hs with rfl | rfl | rfl | rfl
  · exact ⟨started_inv (by decide) (by decide) (by decide), by decide, Or.inl rfl, by decide⟩
  · exact ⟨reading_inv (by decide) (by decide), by decide, Or.inl rfl, by decide⟩
  · exact ⟨reading_inv (by decide) (by decide), by decide, Or.inl rfl, by decide⟩
  · exact ⟨started_inv (by decide) (by decide) (by decide), by decide, Or.inl rfl, by decide⟩

theorem witness_EmergencyOnlyByDeadline : (started 2 24 1).Inv ∧
    (∃ p bs, decode (.ext p) bs = .ok .tick) ∧
    ∃ t, exec .tick (started 2 24 1) = .next t ∧ (started 2 24 1).act.motion ≠ .emergency ∧
      t.act.motion = .emergency :=
  ⟨started_inv (by decide) (by decide) (by decide), ⟨.tick, [], rfl⟩, _, rfl, by decide, by decide⟩

/-- A settle interval of 4 ticks, the sample period, and one of 5, longer than it: the bound is the same. -/
theorem witness_MotionBounded : ∀ settle ∈ [4, 5],
    (started settle 24 24).Inv ∧ (started settle 24 24).stuck = false ∧ (started settle 24 24).moving ∧
    (started settle 24 24).codec.seq = .idle ∧ (started settle 24 24).act.timersOn = true ∧
    (started settle 24 24).act.deadlineCnt = (started settle 24 24).cfg.timeoutTicks ∧
    (started settle 24 24).act.sampleCnt = (started settle 24 24).cfg.sampleTicks ∧
    none ∉ (started settle 24 24).ports.echoes ∧
    ((started settle 24 24).sup.closeBtn.held = false ∨ (started settle 24 24).sup.closeBtn.fired = true) ∧
    (∀ i ∈ List.replicate 28 Instr.tick, NoClose i) ∧
    (started settle 24 24).cfg.timeoutTicks + (started settle 24 24).cfg.settleTicks - 1 ≤
      (List.replicate 28 Instr.tick).count .tick := by
  intro settle hs
  simp only [List.mem_cons, List.not_mem_nil, or_false] at hs
  have htick : ∀ i ∈ List.replicate 28 Instr.tick, NoClose i := fun i hi =>
    Or.inr (Or.inl (by rw [(List.mem_replicate.mp hi).2]; exact List.mem_cons_self))
  rcases hs with rfl | rfl <;>
    exact ⟨started_inv (by decide) (by decide) (by decide), by decide, Or.inl rfl, by decide, by decide,
      by decide, by decide, by decide, by decide, htick, by decide⟩

theorem reset_inv : State.reset.Inv := by
  have hnb : ∀ P : Prop, State.reset.codec.seq = .settle → P := fun P h => absurd h (by decide)
  refine ⟨⟨valid_params, ⟨[], holds_of (by decide)⟩, ?_⟩, fun h => absurd h (by decide), fun _ => ⟨?_, ?_, ?_⟩,
    fun _ h => absurd rfl h⟩
  · exact ⟨by decide, by decide, by decide, by decide, by decide, by decide, by decide, by decide,
      ⟨fun _ => by decide, by decide, fun h => absurd h (by decide)⟩,
      ⟨fun _ => by decide, by decide, fun h => absurd h (by decide)⟩⟩
  · exact quiet_of (by decide)
  · exact ⟨hnb _, hnb _, hnb _, hnb _, hnb _, hnb _, fun h => absurd h (by decide)⟩
  · refine ⟨fun h => absurd h (by decide), ?_, by decide, by decide, fun h => absurd h (by decide),
      fun h => absurd h (by decide), by decide, fun h => absurd h (by decide)⟩
    rintro (h | h) <;> exact absurd h (by decide)

theorem witness_InvAtReset : vectorParams.Valid := valid_params

/-- The reset state with one command record presented, and a started motion with a tick presented. -/
theorem witness_InvKept : State.reset.Inv ∧ (∃ t, step State.reset = .next t) ∧
    (started 2 24 1).Inv ∧
    ∃ t, step { started 2 24 1 with ports := ⟨[⟨.tick, []⟩], [], [], false⟩ } = .next t ∧
      t.act.motion = .emergency :=
  ⟨reset_inv, ⟨_, rfl⟩, started_inv (by decide) (by decide) (by decide), _, rfl, by decide⟩

theorem witness_TimerPair : vectorParams.Valid ∧
    ∃ t, Host.Core.run Sys2Proof.core 1
      (State.resetWith { vectorParams with holdTicks := 0 } ⟨[⟨.edge, [0x00]⟩], [], [], false⟩) = .next t ∧
      t.stuck = false ∧ t.act.motion = .opening :=
  ⟨valid_params, _, rfl, by decide, by decide⟩

theorem witness_NotBusyIsAtRest : State.reset.Inv ∧ State.reset.stuck = false ∧ State.reset.busy = false :=
  ⟨reset_inv, by decide, by decide⟩

theorem witness_ConfigurationKept :
    (∃ t, exec (.tReinit 0x00 0xE1 0x00 0x00) State.reset = .next t ∧ t.link.baud = 57600) ∧
    (Instr.tick ≠ .reset ∧ (∀ d0 d1 d2 d3, Instr.tick ≠ .tReinit d0 d1 d2 d3) ∧
      ∃ t, exec .tick State.reset = .next t) :=
  ⟨⟨_, rfl, by decide⟩, by decide, (fun _ _ _ _ h => Instr.noConfusion h), _, rfl⟩

theorem witness_SpeedRoundTrip : (-1 : ℚ) ≤ -1 ∧ (-1 : ℚ) ≤ 1 ∧ (1 : ℚ) ≤ 1 := by norm_num

theorem witness_ThresholdExact : vectorParams.Valid := valid_params

theorem witness_ConversionsSaturate : (1 : ℚ) ≤ 1 ∧ (-1 : ℚ) ≤ -1 ∧ ((0 : ℚ) ≤ 300 ∧ (300 : ℚ) ≤ 300) ∧
    (0 : ℚ) ≤ 0 ∧ 1023 ≤ 1023 := by norm_num

end Sys2Proof.Tests
end

/-! # The scope statements: configuration, threshold, step and reset (`00_scope.md`) -/

namespace Sys2Proof.Machine

/-! ## What no operation but a reset or a reconstruction of the link changes -/

/-- `t` has the parameters, the events to come and the baud rate of `s` (R9, R26, R46). -/
structure KeepsConfig (s t : State) : Prop where
  cfg : t.cfg = s.cfg
  inbox : t.ports.inbox = s.ports.inbox
  baud : t.link.baud = s.link.baud

theorem KeepsConfig.refl (s : State) : KeepsConfig s s := ⟨rfl, rfl, rfl⟩

theorem KeepsConfig.trans {s t u : State} (h : KeepsConfig s t) (g : KeepsConfig t u) :
    KeepsConfig s u :=
  ⟨g.cfg.trans h.cfg, g.inbox.trans h.inbox, g.baud.trans h.baud⟩

theorem SendKeeps.keepsConfig {s t : State} (h : SendKeeps s t) : KeepsConfig s t :=
  ⟨h.cfg, h.inbox, h.baud⟩

theorem sendFrame_keepsConfig (id op : Byte) (ps : List Byte) (s : State) :
    KeepsConfig s (sendFrame id op ps s) := (sendFrame_keeps id op ps s).keepsConfig

theorem respond_keepsConfig (r : Result) (s : State) : KeepsConfig s (respond r s) := ⟨rfl, rfl, rfl⟩

theorem settleFor_keepsConfig (rn : Nat) (k : Cont) (s : State) : KeepsConfig s (settleFor rn k s) :=
  ⟨rfl, rfl, rfl⟩

theorem enqueue_keepsConfig (e : CtrlEv) (s : State) : KeepsConfig s (enqueue e s) := ⟨rfl, rfl, rfl⟩

theorem enqueueIf_keepsConfig (q : Bool) (e : CtrlEv) (s : State) :
    KeepsConfig s (enqueueIf q e s) := by
  cases q
  · exact .refl s
  · exact enqueue_keepsConfig e s

/-- A link replaced by one of the same rate. -/
theorem withLink_keepsConfig {l : Link} {s : State} (h : l.baud = s.link.baud) :
    KeepsConfig s { s with link := l } := ⟨rfl, rfl, h⟩

/-! ### Transactions, transitions and `dispatch` -/

theorem beginWait_keepsConfig (id op : Byte) (ps : List Byte) (rn : Nat) (k : Cont) (s : State) :
    KeepsConfig s (beginWait id op ps rn k s) := by
  have hsend := sendFrame_keepsConfig id op ps s
  unfold beginWait
  split
  · exact hsend
  · exact hsend.trans (settleFor_keepsConfig rn k _)

/-- A host transaction keeps the configuration when what is done at once with its result does. -/
theorem beginTxn_keepsConfig {finish : Result → State → State}
    (hfin : ∀ r t, KeepsConfig t (finish r t)) (id op : Byte) (ps : List Byte) (rn : Nat) (wait : Bool)
    (k : Cont) (s : State) : KeepsConfig s (beginTxn finish id op ps rn wait k s) := by
  have hsend := sendFrame_keepsConfig id op ps s
  unfold beginTxn
  split
  · exact hsend
  · split
    · exact hsend.trans (settleFor_keepsConfig rn k _)
    · exact hsend.trans (hfin _ _)

theorem beginMotion_keepsConfig (m : Motion) (s : State) : KeepsConfig s (beginMotion m s) :=
  have hset : KeepsConfig s (setMotion m (cancelTimers s)) := ⟨rfl, rfl, rfl⟩
  hset.trans (beginWait_keepsConfig _ _ _ _ _ _)

theorem enterEmergency_keepsConfig (s : State) : KeepsConfig s (enterEmergency s) :=
  have hset : KeepsConfig s (setEmergency (cancelTimers s)) := ⟨rfl, rfl, rfl⟩
  hset.trans (beginWait_keepsConfig _ _ _ _ _ _)

theorem confirmStall_keepsConfig (s : State) : KeepsConfig s (confirmStall s) :=
  have hset : KeepsConfig s (setStalled (cancelTimers s)) := ⟨rfl, rfl, rfl⟩
  hset.trans (beginWait_keepsConfig _ _ _ _ _ _)

theorem onOpen_keepsConfig (s : State) : KeepsConfig s (onOpen s) := by
  unfold onOpen
  cases s.act.motion with
  | idle => exact beginMotion_keepsConfig _ s
  | opening | closing | emergency => exact .refl s

theorem onClose_keepsConfig (s : State) : KeepsConfig s (onClose s) := by
  unfold onClose
  cases s.act.motion <;> exact beginMotion_keepsConfig _ s

theorem onSample_keepsConfig (s : State) : KeepsConfig s (onSample s) := by
  unfold onSample
  cases s.act.motion with
  | opening | closing => exact beginWait_keepsConfig _ _ _ _ _ s
  | idle | emergency => exact .refl s

theorem onDeadline_keepsConfig (s : State) : KeepsConfig s (onDeadline s) := by
  unfold onDeadline
  cases s.act.motion with
  | opening | closing => exact enterEmergency_keepsConfig s
  | idle | emergency => exact .refl s

theorem transition_keepsConfig (e : CtrlEv) (s : State) : KeepsConfig s (transition e s) := by
  cases e with
  | deadline => exact onDeadline_keepsConfig s
  | closeEv => exact onClose_keepsConfig s
  | openEv => exact onOpen_keepsConfig s
  | sample => exact onSample_keepsConfig s

theorem dispatch_keepsConfig (s : State) : KeepsConfig s (dispatch s) := by
  refine dispatch_induct (P := KeepsConfig s) (fun t e _ _ ht => ?_) s (.refl s)
  have hdrop : KeepsConfig t (dropEvent e t) := ⟨rfl, rfl, rfl⟩
  exact (ht.trans hdrop).trans (transition_keepsConfig e _)

/-! ### Completions and the tick -/

theorem completeHost_keepsConfig (r : Result) (s : State) : KeepsConfig s (completeHost r s) :=
  (respond_keepsConfig r s).trans (dispatch_keepsConfig _)

theorem contMode2_keepsConfig (r : Result) (s : State) : KeepsConfig s (contMode2 r s) := by
  unfold contMode2
  split
  · exact respond_keepsConfig r s
  · exact beginTxn_keepsConfig completeHost_keepsConfig _ _ _ _ _ _ s

theorem contSample_keepsConfig (r : Result) (s : State) : KeepsConfig s (contSample r s) := by
  have hcount : KeepsConfig s (countHit (overThreshold s.cfg r.loadWord) s) := ⟨rfl, rfl, rfl⟩
  unfold contSample
  split
  · split
    · exact hcount.trans (confirmStall_keepsConfig _)
    · exact hcount
  · exact .refl s

theorem continueWith_keepsConfig (k : Cont) (r : Result) (s : State) :
    KeepsConfig s (continueWith k r s) := by
  cases k with
  | host => exact respond_keepsConfig r s
  | hostMode2 => exact contMode2_keepsConfig r s
  | start => exact ⟨rfl, rfl, rfl⟩
  | sample => exact contSample_keepsConfig r s
  | stop => exact .refl s
  | emerg => exact ⟨rfl, rfl, rfl⟩

theorem complete_keepsConfig (k : Cont) (r : Result) (s : State) : KeepsConfig s (complete k r s) :=
  (continueWith_keepsConfig k r s).trans (dispatch_keepsConfig _)

theorem finishTxn_keepsConfig (r : List Byte) (s : State) : KeepsConfig s (finishTxn r s) :=
  have hidle : KeepsConfig s { s with codec := { s.codec with seq := .idle } } := ⟨rfl, rfl, rfl⟩
  hidle.trans (complete_keepsConfig _ _ _)

theorem settlePart_keepsConfig (s : State) : KeepsConfig s (settlePart s) := by
  have hcount : KeepsConfig s (countSettle s) := ⟨rfl, rfl, rfl⟩
  have htake : (collected (countSettle s)).2.baud = (countSettle s).link.baud :=
    (Link.takeBytes_frame _ _ _).1
  unfold settlePart
  split
  · split
    · exact (hcount.trans (withLink_keepsConfig htake)).trans (finishTxn_keepsConfig _ _)
    · exact hcount
  · exact .refl s

theorem countParts_keepsConfig (s : State) : KeepsConfig s (countParts s) := by
  rw [countParts_counted]
  exact ⟨rfl, rfl, rfl⟩

theorem tickEvent_keepsConfig (s : State) : KeepsConfig s (tickEvent s) :=
  ((countParts_keepsConfig s).trans (settlePart_keepsConfig _)).trans (dispatch_keepsConfig _)

/-! ### The meanings of the instructions -/

theorem arrive_baud (depth : Nat) (b : Byte) (l : Link) : (l.arrive depth b).baud = l.baud := by
  unfold Link.arrive
  dsimp only
  split
  · exact (Link.foldl_capture_frame depth _ _).1
  · rfl

theorem pressOpen_keepsConfig (s : State) : KeepsConfig s (pressOpen s) :=
  have hbtn : KeepsConfig s (withOpenBtn (s.sup.openBtn.press s.cfg.holdTicks) s) := ⟨rfl, rfl, rfl⟩
  hbtn.trans (enqueueIf_keepsConfig _ _ _)

theorem pressClose_keepsConfig (s : State) : KeepsConfig s (pressClose s) :=
  have hbtn : KeepsConfig s (withCloseBtn (s.sup.closeBtn.press s.cfg.holdTicks) s) := ⟨rfl, rfl, rfl⟩
  hbtn.trans (enqueueIf_keepsConfig _ _ _)

theorem sendCommand_keepsConfig (b : Byte) (s : State) : KeepsConfig s (sendCommand b s) := by
  have hsend := (sendByte_keeps b s).keepsConfig
  unfold sendCommand
  split
  · exact hsend
  · exact hsend.trans (respond_keepsConfig _ _)

theorem rxByte_keepsConfig (s : State) :
    KeepsConfig s (respond (transportResult (slotData (s.link.receiveByte s.cfg.rxqDepth).1) true)
      { s with link := (s.link.receiveByte s.cfg.rxqDepth).2 }) :=
  (withLink_keepsConfig (Link.receiveByte_frame _ _).1).trans (respond_keepsConfig _ _)

theorem hostWrite_keepsConfig (op id addr : Byte) (data : List Byte) (s : State) :
    KeepsConfig s (hostWrite op id addr data s) :=
  beginTxn_keepsConfig (complete_keepsConfig .host) _ _ _ _ _ _ s

theorem hostRead_keepsConfig (id addr n : Byte) (s : State) :
    KeepsConfig s (hostRead id addr n s) :=
  beginTxn_keepsConfig (complete_keepsConfig .host) _ _ _ _ _ _ s

theorem beginModeCont_keepsConfig (id : Byte) (s : State) : KeepsConfig s (beginModeCont id s) :=
  have hset : KeepsConfig s (setHostId id s) := ⟨rfl, rfl, rfl⟩
  hset.trans (beginTxn_keepsConfig (complete_keepsConfig .hostMode2) _ _ _ _ _ _ _)

theorem emitPacket_keepsConfig (id op : Byte) (ps : List Byte) (s : State) :
    KeepsConfig s (emitPacket id op ps s) := by
  unfold emitPacket
  split
  · exact sendFrame_keepsConfig id op ps s
  · exact .refl s

theorem takeReply_keepsConfig (r : List Byte) (s : State) : KeepsConfig s (takeReply r s) := by
  unfold takeReply
  split
  · exact finishTxn_keepsConfig r s
  · exact .refl s

/-- A controller event waits in `evq` or makes its transition; either keeps the configuration. -/
theorem takeEvent_keepsConfig {apply : State → State} (e : CtrlEv) {s : State}
    (h : KeepsConfig s (apply s)) : KeepsConfig s (takeEvent e apply s) := by
  unfold takeEvent
  split
  · exact h
  · exact enqueue_keepsConfig e s

/-- An event leaves the stuck state as it is, and otherwise keeps what its rule keeps (R123). -/
theorem live_keepsConfig {f : State → State} {s t : State} (h : live f s = .next t)
    (hf : KeepsConfig s (f s)) : KeepsConfig s t := by
  obtain rfl : (if s.stuck then s else f s) = t := Host.Outcome.next.inj h
  split
  · exact .refl s
  · exact hf

/-- A refusal writes the response alone, so a command keeps what its rule keeps (R98, R103). -/
theorem command_keepsConfig {tests : List (Bool × Reason)} {body : State → State} {s t : State}
    (h : command tests body s = .next t) (hbody : KeepsConfig s (body s)) : KeepsConfig s t := by
  refine live_keepsConfig h ?_
  rcases accept_cases tests body s with ⟨why, hrefuse⟩ | ⟨-, -, hbodyRuns⟩
  · rw [hrefuse]; exact respond_keepsConfig _ s
  · rw [hbodyRuns]; exact hbody

/-- The frame of every instruction but `RESET` and `T_REINIT`. -/
theorem exec_keepsConfig {i : Instr} {s t : State} (h : exec i s = .next t) (hreset : i ≠ .reset)
    (hreinit : ∀ d0 d1 d2 d3, i ≠ .tReinit d0 d1 d2 d3) : KeepsConfig s t := by
  cases i with
  | tSend d0 => exact command_keepsConfig h (sendCommand_keepsConfig d0 s)
  | tRxavail => exact command_keepsConfig h (respond_keepsConfig _ s)
  | tRxbyte => exact command_keepsConfig h (rxByte_keepsConfig s)
  | tReinit d0 d1 d2 d3 => exact absurd rfl (hreinit d0 d1 d2 d3)
  | cWrite | cRegwrite | torqueEn | setSpeed | setCwLimit | setCcwLimit | setId | setBaudcode =>
    exact command_keepsConfig h (hostWrite_keepsConfig _ _ _ _ s)
  | cRead | readLoad | readTemp | readVolt =>
    exact command_keepsConfig h (hostRead_keepsConfig _ _ _ s)
  | cAction id =>
    exact command_keepsConfig h (beginTxn_keepsConfig (complete_keepsConfig .host) _ _ _ _ _ _ s)
  | setModeCont id => exact command_keepsConfig h (beginModeCont_keepsConfig id s)
  | cmdReserved op => exact command_keepsConfig h (.refl s)
  | pktRead | pktWrite | pktRegwrite | pktAction =>
    exact live_keepsConfig h (emitPacket_keepsConfig _ _ _ s)
  | pktStatus r => exact live_keepsConfig h (takeReply_keepsConfig r s)
  | reset => exact absurd rfl hreset
  | tick => exact live_keepsConfig h (tickEvent_keepsConfig s)
  | lineByte b => exact live_keepsConfig h (withLink_keepsConfig (arrive_baud _ b _))
  | edgeOpenPressed =>
    exact live_keepsConfig (f := fun s => dispatch (pressOpen s)) h
      ((pressOpen_keepsConfig s).trans (dispatch_keepsConfig _))
  | edgeClosePressed =>
    exact live_keepsConfig (f := fun s => dispatch (pressClose s)) h
      ((pressClose_keepsConfig s).trans (dispatch_keepsConfig _))
  | edgeOpenReleased | edgeCloseReleased => exact live_keepsConfig h ⟨rfl, rfl, rfl⟩
  | evDeadline => exact live_keepsConfig h (takeEvent_keepsConfig _ (onDeadline_keepsConfig s))
  | evClose => exact live_keepsConfig h (takeEvent_keepsConfig _ (onClose_keepsConfig s))
  | evOpen => exact live_keepsConfig h (takeEvent_keepsConfig _ (onOpen_keepsConfig s))
  | evSample => exact live_keepsConfig h (takeEvent_keepsConfig _ (onSample_keepsConfig s))

theorem exec_reset_keeps {s t : State} (h : exec .reset s = .next t) :
    t.cfg = s.cfg ∧ t.ports.inbox = s.ports.inbox := by
  obtain rfl : State.resetWith s.cfg s.ports = t := Host.Outcome.next.inj h
  exact ⟨rfl, rfl⟩

/-- `T_REINIT` is refused, ignored in the stuck state, or carried out on the link alone (R134). -/
theorem exec_tReinit_keeps {d0 d1 d2 d3 : Byte} {s t : State}
    (h : exec (.tReinit d0 d1 d2 d3) s = .next t) :
    t.cfg = s.cfg ∧ t.ports.inbox = s.ports.inbox := by
  obtain rfl := Host.Outcome.next.inj h
  split
  · exact ⟨rfl, rfl⟩
  · rcases accept_cases [baudTest d0 d1 d2 d3] (fun s => respond (transportResult [] true)
      (s.onLink (Link.rebuild s.cfg.rxqDepth (baudOf d0 d1 d2 d3)))) s with ⟨why, he⟩ | ⟨-, -, he⟩
    all_goals rw [he]; exact ⟨rfl, rfl⟩

/-- Settles O54: `RESET` and `T_REINIT` apart, every instruction is built of operations that keep the
configuration. -/
theorem configurationKept : Obligations.ConfigurationKept := by
  intro i s t h
  by_cases hreset : i = .reset
  · subst hreset
    obtain ⟨hcfg, hinbox⟩ := exec_reset_keeps h
    exact ⟨hcfg, hinbox, fun hne => absurd rfl hne⟩
  by_cases hreinit : ∃ d0 d1 d2 d3, i = .tReinit d0 d1 d2 d3
  · obtain ⟨d0, d1, d2, d3, rfl⟩ := hreinit
    obtain ⟨hcfg, hinbox⟩ := exec_tReinit_keeps h
    exact ⟨hcfg, hinbox, fun _ hne => absurd rfl (hne d0 d1 d2 d3)⟩
  · have hkeeps := exec_keepsConfig h hreset (fun d0 d1 d2 d3 he => hreinit ⟨d0, d1, d2, d3, he⟩)
    exact ⟨hkeeps.cfg, hkeeps.inbox, fun _ _ => hkeeps.baud⟩

/-! ## The stall threshold -/

/-- The sign of a load word does not reach its absolute value (R92, R207). -/
theorem abs_decWord (w : Word16) : |decWord w| = ((magOf w).toNat : ℚ) / 1023 := by
  have hnonneg : (0 : ℚ) ≤ ((magOf w).toNat : ℚ) / 1023 := by positivity
  unfold decWord
  split
  · rw [abs_neg, abs_of_nonneg hnonneg]
  · exact abs_of_nonneg hnonneg

/-- The floor in `P_TORQUE_THRESH` cleared from the test (R9, R248). -/
theorem overThreshold_iff {p : Params} (hden : 0 < p.torqueDen) (w : Word16) :
    overThreshold p w = true ↔ 1023 * p.torqueNum < (magOf w).toNat * p.torqueDen := by
  rw [overThreshold, decide_eq_true_eq, torqueThresh, Nat.div_lt_iff_lt_mul hden]

/-- Settles O56: both sides say `1023 * num < mag * den`. -/
theorem thresholdExact : Obligations.ThresholdExact := by
  intro p w hp
  have hden : (0 : ℚ) < p.torqueDen := Nat.cast_pos.mpr hp.torqueDen
  rw [overThreshold_iff hp.torqueDen, abs_decWord, div_lt_div_iff₀ hden (by norm_num),
    mul_comm (p.torqueNum : ℚ)]
  exact_mod_cast Iff.rfl

/-! ## One step -/

theorem step_idle {s : State} (h : s.ports.inbox = []) :
    step s = .next { s with ports := ⟨[], s.ports.echoes, [], false⟩ } := by
  simp [step, h, State.beginStep]

/-- A step with an event presented runs it with the event taken and the outputs cleared (R8). -/
theorem step_event {s : State} {e : Stim} {rest : List Stim} (h : s.ports.inbox = e :: rest) :
    step s = runEvent e { s with ports := ⟨rest, s.ports.echoes, [], false⟩ } := by
  unfold step
  rw [h]
  rfl

theorem runEvent_ok {e : Stim} {i : Instr} {s : State} (hd : decode (.ext e.port) e.bytes = .ok i)
    (hwf : i.wf s.cfg = true) : runEvent e s = endOfEvent (exec i s) := by
  simp [runEvent, hd, hwf]

theorem runEvent_short {e : Stim} {i : Instr} {s : State} (hd : decode (.ext e.port) e.bytes = .ok i)
    (hwf : i.wf s.cfg = false) : runEvent e s = .refused .recordTooShort := by
  simp [runEvent, hd, hwf]

theorem runEvent_rejected {e : Stim} {why : Reject} {s : State}
    (hd : decode (.ext e.port) e.bytes = .error why) : runEvent e s = .refused (.notAnEvent why) := by
  simp [runEvent, hd]

/-- A step whose presentation decodes to a well-formed instruction (R8, R234). -/
theorem step_decoded {s : State} {e : Stim} {rest : List Stim} {i : Instr}
    (h : s.ports.inbox = e :: rest) (hd : decode (.ext e.port) e.bytes = .ok i)
    (hwf : i.wf s.cfg = true) :
    step s = endOfEvent (exec i { s with ports := ⟨rest, s.ports.echoes, [], false⟩ }) :=
  (step_event h).trans (runEvent_ok hd hwf)

/-- Settles O1, by the cases of the presentation. -/
theorem stepRunsDecodedEvent : Obligations.StepRunsDecodedEvent := by
  intro s
  refine ⟨fun e rest i h hd hwf => ?decoded, fun e rest why h hd => ?rejected,
    fun e rest i h hd hwf => ?short, step_idle⟩
  case decoded =>
    have hstep := step_decoded h hd hwf
    exact ⟨hstep, fun t ht => by rw [hstep, ht]; rfl⟩
  case rejected => exact (step_event h).trans (runEvent_rejected hd)
  case short => exact (step_event h).trans (runEvent_short hd hwf)

theorem decode_of_decodeTableWord {nbits w : Nat} {i : Instr} (h : decodeTableWord nbits w = some i) :
    decode (.ext .cmd) (recordOfWord nbits w) = .ok i := by
  unfold decodeTableWord at h
  cases hd : decode (.ext .cmd) (recordOfWord nbits w) with
  | error why => simp [hd, Except.toOption] at h
  | ok j => simpa [hd, Except.toOption] using h

/-- Settles O2: the record presented is the one `decodeTableWord` reads. -/
theorem fetchWordRuns : Obligations.FetchWordRuns := by
  intro s nbits w i h hwf
  exact step_decoded (s := s.withFetchWord nbits w) rfl (decode_of_decodeTableWord h) hwf

/-! ## The state after reset -/

/-- Nothing is pending after reset (R320), so the invariant's parts are all of it. -/
theorem resetWith_inv {p : Params} (hp : p.Valid) (io : Ports) : (State.resetWith p io).Inv := by
  obtain ⟨halways, hmasked, hlive⟩ := resetWith_mid hp io
  exact ⟨halways, hmasked, hlive, fun _ hpending => absurd rfl hpending⟩

/-- The values of `95_test_vectors.md` meet the constraints of R9. -/
theorem vectorParams_valid : vectorParams.Valid := by constructor <;> decide

/-- Settles O50. -/
theorem invAtReset : Obligations.InvAtReset :=
  ⟨fun _ io hp => resetWith_inv hp io, resetWith_inv vectorParams_valid _⟩

end Sys2Proof.Machine

/-! # The state statements: the frame's echoes, the capture queue, the outputs and the invariant
(`10_state.md`) -/

namespace Sys2Proof.Machine

/-! ## The echo of a frame -/

/-- The verdict on a frame, byte by byte (R36, R160): draws past the end of the given ones are healthy. -/
theorem echoesMatch_iff : ∀ (bs : List Byte) (ds : List Echo), echoesMatch bs ds = true ↔
    ∀ j, j < bs.length → j < ds.length → ds[j]? = some bs[j]?
  | [], ds => by simp [echoesMatch]
  | b :: bs, [] => by simp [echoesMatch]
  | b :: bs, d :: ds => by
    have hhead : (d == some b) = true ↔ d = some b := beq_iff_eq
    rw [echoesMatch, Bool.and_eq_true, hhead, echoesMatch_iff bs ds]
    constructor
    · rintro ⟨hd, htail⟩ j hj hj'
      cases j with
      | zero => simp [hd]
      | succ j => simpa using htail j (by simpa using hj) (by simpa using hj')
    · intro h
      refine ⟨by simpa using h 0 (by simp) (by simp), fun j hj hj' => ?_⟩
      simpa using h (j + 1) (by simpa using hj) (by simpa using hj')

/-- Settles O9: the whole effect of the frame holds the verdict `echoesMatch`. -/
theorem echoOkMeansUnchanged : Obligations.EchoOkMeansUnchanged := by
  intro s id op ps hq hp
  have hlen : (frame id op ps).length = ps.length + 6 := frame_length id op ps
  rw [sendFrame_quiet hq (by rwa [hlen]), ← hlen]
  exact echoesMatch_iff (frame id op ps) s.ports.echoes

/-! ## The capture queue -/

/-- `receive_available()` tells whether the queue holds a byte (R130). -/
theorem Link.Holds.available {depth : Nat} {l : Link} {bs : List Byte} (h : l.Holds depth bs) :
    l.available = !bs.isEmpty := by
  rw [Link.available, h.slot_rd]
  cases bs with
  | nil => rfl
  | cons b bs => simpa using setWidth_ne_empty b

/-- Settles O14: the slot `rx_rd` is the sentinel exactly when the queue is empty. -/
theorem rxAvailable : Obligations.RxAvailable := by
  intro s bs hrest hb
  have hdata : availByte s.link.available = if bs = [] then 0x00 else 0x01 := by
    rw [hb.available]
    cases bs <;> rfl
  rw [← hdata, ← respond_transport]
  exact command_accepted hrest rfl

theorem slotData_setWidth (b : Byte) : slotData (b.setWidth 9) = [b] := by
  rw [slotData, if_neg (setWidth_ne_empty b), slotByte_setWidth]

/-- The read of a byte moves `rx_rd` one further (R131). -/
theorem Link.Holds.receive_rxRd {depth : Nat} {l : Link} {b : Byte} {bs : List Byte}
    (h : l.Holds depth (b :: bs)) : (l.receiveByte depth).2.rxRd = (l.rxRd + 1) % depth := by
  have hslot : l.slot l.rxRd ≠ emptySlot := by
    rw [h.slot_rd]
    exact setWidth_ne_empty b
  simp [Link.receiveByte, hslot, nextIndex]

theorem Link.Quiet.receiveByte {l : Link} (hq : l.Quiet) (depth : Nat) :
    (l.receiveByte depth).2.Quiet := by
  obtain ⟨-, hirq, hdir, hbuf, -⟩ := Link.receiveByte_frame depth l
  exact ⟨hirq.trans hq.irqEn, hdir.trans hq.lineDir, hbuf.trans hq.hwRx⟩

/-- `T_RXBYTE` of a block at rest, by what `receive_byte()` returns (R132). -/
theorem execTRxbyte_rest {s : State} (h : s.AtRest) :
    exec .tRxbyte s = .next (answered .noWait 0x00
      (slotData (s.link.receiveByte s.cfg.rxqDepth).1) true false
      { s with link := (s.link.receiveByte s.cfg.rxqDepth).2 }) :=
  command_accepted h rfl

/-- Settles O15, by what `receive_byte()` does to an empty queue and to one that holds a byte. -/
theorem rxByteTakesOldest : Obligations.RxByteTakesOldest := by
  intro s hrest
  refine ⟨fun hb => ?empty, fun b bs hb => ?oldest⟩
  case empty => rw [execTRxbyte_rest hrest, hb.receive_nil]; rfl
  case oldest =>
    obtain ⟨hbyte, hleft⟩ := hb.receive_cons
    obtain ⟨hbaud, -, -, -, hwr⟩ := Link.receiveByte_frame s.cfg.rxqDepth s.link
    refine ⟨_, hleft, hrest.quiet.receiveByte _, hbaud, hwr, hb.receive_rxRd, ?_⟩
    rw [execTRxbyte_rest hrest, hbyte, slotData_setWidth]

/-- The handler empties the hardware buffer, so the line stays quiet (R121, R128). -/
theorem Link.Quiet.arrive {l : Link} (hq : l.Quiet) (depth : Nat) (b : Byte) :
    (l.arrive depth b).Quiet := by
  obtain ⟨-, hirq, hdir, hbuf, -⟩ := Link.capture_frame depth l b
  rw [Link.arrive_eq hq]
  exact ⟨hirq.trans hq.irqEn, hdir.trans hq.lineDir, hbuf.trans hq.hwRx⟩

/-- A byte more and the oldest `depth` of them kept: it is dropped exactly when the queue is full. -/
theorem take_capture (depth : Nat) (held bs : List Byte) (b : Byte) (hb : held.length ≤ depth) :
    ((if held.length < depth then held ++ [b] else held) ++ bs).take depth =
      (held ++ b :: bs).take depth := by
  split
  · simp
  · have hfull : depth = held.length := by omega
    simp [hfull]

/-- Bytes that arrive on a quiet line stand behind those held, as far as they fit (R32, R128, R129). -/
theorem Link.Holds.foldl_arrive {depth : Nat} (bs : List Byte) : ∀ {l : Link} {held : List Byte},
    l.Quiet → l.Holds depth held →
    (bs.foldl (fun l b => l.arrive depth b) l).Holds depth ((held ++ bs).take depth) := by
  induction bs with
  | nil =>
    intro l held _ hb
    rw [List.append_nil, List.take_of_length_le hb.bound]
    exact hb
  | cons b bs ih =>
    intro l held hq hb
    have hcaptured := hb.capture b
    rw [← Link.arrive_eq hq] at hcaptured
    rw [← take_capture depth held bs b hb.bound]
    exact ih (hq.arrive depth b) hcaptured

theorem Link.fresh_quiet (p : Params) (baud : Nat) : (Link.fresh p baud).Quiet := ⟨rfl, rfl, rfl⟩

theorem Link.fresh_holds {p : Params} (hp : p.Valid) (baud : Nat) :
    (Link.fresh p baud).Holds p.rxqDepth [] :=
  Link.holds_empty (by have := hp.rxqDepth; omega) rfl rfl rfl

/-- Settles O18: the queue holds the first bytes that arrived, and the collection and the waiting bytes are
what it holds. -/
theorem captureQueueIsFifo : Obligations.CaptureQueueIsFifo := by
  intro p baud count bs hp
  have hb := (Link.fresh_holds hp baud).foldl_arrive bs (Link.fresh_quiet p baud)
  rw [List.nil_append] at hb
  exact ⟨(hb.takeBytes count).1, hb.waiting⟩

/-! ## The outputs -/

theorem busyOut_iff (s : State) :
    s.busyOut = 1 ↔ s.codec.seq ≠ .idle ∨ s.act.motion ≠ .idle := by
  rw [State.busyOut, State.busy, busyFlag]
  cases s.codec.seq <;> cases s.act.motion <;> decide

theorem emergencyOut_iff (s : State) : s.emergencyOut = 1 ↔ s.act.emergency = true := by
  rw [State.emergencyOut]
  cases s.act.emergency <;> decide

theorem replyResult_status (c : Codec) (r : List Byte) :
    (replyResult c r).status = if c.expN ≤ r.length then .reply else .noReply := by
  rcases Nat.lt_or_ge r.length c.expN with hshort | hfull
  · rw [replyResult_short hshort, if_neg (Nat.not_le.mpr hshort)]; rfl
  · rw [← replyResult_take hfull, replyResult_full (by simpa using hfull), if_pos hfull]; rfl

/-- The error byte is the fifth of the reply, which every expected length takes in (R164). -/
theorem replyResult_err {c : Codec} (hc : 6 ≤ c.expN) (r : List Byte) :
    (replyResult c r).err = if c.expN ≤ r.length then r.getD 4 0 else 0x00 := by
  rcases Nat.lt_or_ge r.length c.expN with hshort | hfull
  · rw [replyResult_short hshort, if_neg (Nat.not_le.mpr hshort)]; rfl
  · have herr : (r.take c.expN).getD 4 0 = r.getD 4 0 := by
      simp [show 4 < c.expN by omega]
    rw [← replyResult_take hfull, replyResult_full (by simpa using hfull), if_pos hfull, ← herr]
    rfl

/-- Settles O48: the codes case by case, the response status and error by the length of the reply. -/
theorem outputCodes : Obligations.OutputCodes := by
  intro s
  refine ⟨⟨?motion, ?ind, ?status, busyOut_iff s, emergencyOut_iff s⟩,
    fun why => ⟨by cases why <;> rfl, refuse_eq why s⟩,
    fun r hexp => ⟨replyResult_status _ r, replyResult_err hexp r, fun _ => ⟨rfl, rfl, rfl, rfl⟩⟩⟩
  case motion => rw [State.motionOut]; cases s.act.motion <;> rfl
  case ind => rw [State.indOut]; cases s.sup.ind <;> rfl
  case status => rw [State.statusOut]; cases s.rsp.status <;> rfl

/-! ## The invariant -/

theorem State.Inv.mid {s : State} (h : s.Inv) : s.MidOk := ⟨h.always, h.masked, h.live⟩

/-- Settles O53: with no transaction in flight nothing can be waiting for its end. -/
theorem notBusyIsAtRest : Obligations.NotBusyIsAtRest := by
  intro s h hns hbusy
  obtain ⟨hseq, hmotion⟩ := (busy_false_iff s).mp hbusy
  refine ⟨⟨(h.live hns).quiet, hseq, hmotion⟩, ?_⟩
  by_contra hpending
  have hsettle := h.waits hns hpending
  rw [hseq] at hsettle
  cases hsettle

/-- What the environment has to come and what stands on the outputs is no part of the invariant. -/
theorem withPorts_mid {s : State} (h : s.MidOk) (io : Ports) : ({ s with ports := io } : State).MidOk := by
  refine ⟨⟨h.always.params, h.always.queue, h.always.ranges.congr rfl rfl rfl rfl rfl rfl⟩, h.masked,
    fun hns => ?_⟩
  obtain ⟨hq, ht, hi⟩ := h.live hns
  exact ⟨hq, ⟨ht.settle, ht.count, ht.start, ht.sample, ht.emerg, ht.other, ht.inEmergency⟩,
    ⟨hi.on_moving, hi.moving_on, hi.events, hi.counts, hi.running, hi.deadline, hi.expired, hi.hits⟩⟩

/-- The `dispatch` that ends a step leaves an event pending only behind a transaction (R234). -/
theorem dispatch_inv {s : State} (h : s.MidOk) : (dispatch s).Inv := by
  obtain ⟨halways, hmasked, hlive⟩ := dispatch_mid h
  refine ⟨halways, hmasked, hlive, fun hns hpending => ?_⟩
  rcases dispatch_done s with hnil | hnotReady
  · exact absurd hnil hpending
  · cases hseq : (dispatch s).codec.seq with
    | settle => rfl
    | idle =>
      rw [(ready_iff _).mpr ⟨hseq, hns⟩] at hnotReady
      cases hnotReady

/-! ### What an input can present -/

/-- The instructions that the inputs of the block can present: the commands and the events of R8. -/
inductive ExternalEvent : Instr → Prop where
  | command {i : Instr} (h : isCommand i = true) : ExternalEvent i
  | reset : ExternalEvent .reset
  | tick : ExternalEvent .tick
  | lineByte (b : Byte) : ExternalEvent (.lineByte b)
  | openPressed : ExternalEvent .edgeOpenPressed
  | openReleased : ExternalEvent .edgeOpenReleased
  | closePressed : ExternalEvent .edgeClosePressed
  | closeReleased : ExternalEvent .edgeCloseReleased

theorem commandOf_isCommand {c : CmdOp} {id addr n : Byte} {data : List Byte} {i : Instr}
    (h : commandOf c id addr n data = .ok i) : isCommand i = true := by
  unfold commandOf at h
  split at h <;> cases h <;> rfl

theorem decodeCmd_isCommand {bs : List Byte} {i : Instr} (h : decodeCmd bs = .ok i) :
    isCommand i = true := by
  unfold decodeCmd at h
  split at h
  · split at h
    · exact commandOf_isCommand h
    · cases h; rfl
  · cases h

theorem decodeEdge_external {bs : List Byte} {i : Instr} (h : decodeEdge bs = .ok i) :
    ExternalEvent i := by
  unfold decodeEdge at h
  split_ifs at h <;> cases h
  · exact .openPressed
  · exact .openReleased
  · exact .closePressed
  · exact .closeReleased

/-- An input presents no packet and no controller event. -/
theorem decode_external {p : Port} {bs : List Byte} {i : Instr} (h : decode (.ext p) bs = .ok i) :
    ExternalEvent i := by
  cases p with
  | reset =>
    simp only [decode] at h
    split at h <;> cases h
    exact .reset
  | tick =>
    simp only [decode] at h
    split at h <;> cases h
    exact .tick
  | line =>
    simp only [decode] at h
    split at h <;> cases h
    exact .lineByte _
  | edge => exact decodeEdge_external h
  | cmd => exact .command (decodeCmd_isCommand h)

/-! ### The external events keep the parts of the invariant -/

theorem lenTest_passed {p : Params} {n : Byte} (h : (lenTest p n).1 = false) : n.toNat ≤ p.maxp := by
  simp only [lenTest, Bool.or_eq_false_iff, decide_eq_false_iff_not] at h
  exact Nat.le_of_not_lt h.2

theorem exec_command_mid {i : Instr} {s t : State} (h : s.MidOk) (hi : isCommand i = true)
    (he : exec i s = .next t) : t.MidOk := by
  have hp := h.always.params
  cases i with
  | tSend d0 => exact command_mid h (fun hr _ => sendCommand_mid hr) he
  | tRxavail =>
    refine command_mid h (fun hr _ => ?_) he
    have hone : 1 ≤ s.cfg.maxp := Nat.one_le_of_lt hp.maxpLow
    exact (respond_rest (r := transportResult [_] true) hr hone hone).mid
  | tRxbyte =>
    refine command_mid h (fun hr _ => ?_) he
    exact rxByte_mid hr
  | tReinit d0 d1 d2 d3 =>
    refine command_mid h (fun hr _ => ?_) he
    exact reinit_mid hr
  | cWrite | cRegwrite | torqueEn | setSpeed | setCwLimit | setCcwLimit | setId | setBaudcode =>
    refine command_mid h (fun hr _ => ?_) he
    exact hostWrite_mid hr
  | cRead id addr n =>
    refine command_mid h (fun hr hpassed => hostRead_mid hr (lenTest_passed ?_)) he
    simp only [List.all_cons, Bool.and_eq_true, Bool.not_eq_true'] at hpassed
    obtain ⟨-, -, hlen, -⟩ := hpassed
    exact hlen
  | cAction id => exact command_mid h (fun hr _ => action_mid hr) he
  | setModeCont id => exact command_mid h (fun hr _ => beginModeCont_mid hr) he
  | readLoad id =>
    refine command_mid h (fun hr _ => ?_) he
    exact hostRead_mid (n := 2) hr hp.maxpLow
  | readTemp id =>
    refine command_mid h (fun hr _ => ?_) he
    exact hostRead_mid hr (hp.nTemp.2.trans hp.maxpLow)
  | readVolt id =>
    refine command_mid h (fun hr _ => ?_) he
    exact hostRead_mid hr (hp.nVolt.2.trans hp.maxpLow)
  | cmdReserved op => exact command_mid h (fun hr _ => hr.mid) he
  | pktRead | pktWrite | pktRegwrite | pktAction | pktStatus | reset | tick | lineByte
  | edgeOpenPressed | edgeOpenReleased | edgeClosePressed | edgeCloseReleased
  | evDeadline | evClose | evOpen | evSample => cases hi

theorem exec_mid {i : Instr} {s t : State} (h : s.MidOk) (hi : ExternalEvent i)
    (he : exec i s = .next t) : t.MidOk := by
  cases hi with
  | command hcommand => exact exec_command_mid h hcommand he
  | reset =>
    obtain rfl : State.resetWith s.cfg s.ports = t := Host.Outcome.next.inj he
    exact resetWith_mid h.always.params s.ports
  | tick => exact live_mid h (fun hns => tickEvent_mid h hns) he
  | lineByte b => exact live_mid h (fun hns => arrive_mid h hns) he
  | openPressed =>
    exact live_mid (f := fun s => dispatch (pressOpen s)) h (fun _ => dispatch_mid (pressOpen_mid h)) he
  | openReleased => exact live_mid h (fun _ => releaseOpen_mid h) he
  | closePressed =>
    exact live_mid (f := fun s => dispatch (pressClose s)) h (fun _ => dispatch_mid (pressClose_mid h)) he
  | closeReleased => exact live_mid h (fun _ => releaseClose_mid h) he

/-! ### One step -/

/-- What one step can do: clear the outputs when nothing is presented, or run the event presented and
dispatch what is pending; a presentation that is refused has no next state (R8, R234, R323). -/
theorem step_cases {s t : State} (h : step s = .next t) :
    (s.ports.inbox = [] ∧ t = { s with ports := ⟨[], s.ports.echoes, [], false⟩ }) ∨
      ∃ e rest i u, s.ports.inbox = e :: rest ∧ decode (.ext e.port) e.bytes = .ok i ∧
        i.wf s.cfg = true ∧ exec i { s with ports := ⟨rest, s.ports.echoes, [], false⟩ } = .next u ∧
        t = dispatch u := by
  cases hin : s.ports.inbox with
  | nil => exact .inl ⟨rfl, (Host.Outcome.next.inj ((step_idle hin).symm.trans h)).symm⟩
  | cons e rest =>
    right
    cases hd : decode (.ext e.port) e.bytes with
    | error why => cases ((step_event hin).trans (runEvent_rejected hd)).symm.trans h
    | ok i =>
      cases hwf : i.wf s.cfg with
      | false => cases ((step_event hin).trans (runEvent_short hd hwf)).symm.trans h
      | true =>
        have hend := (step_decoded hin hd hwf).symm.trans h
        cases hexec : exec i { s with ports := ⟨rest, s.ports.echoes, [], false⟩ } with
        | next u =>
          rw [hexec] at hend
          exact ⟨e, rest, i, u, rfl, hd, hwf, hexec, (Host.Outcome.next.inj hend).symm⟩
        | fault why | refused why => rw [hexec] at hend; cases hend

/-- Settles O51: an external event keeps the parts of the invariant, and the `dispatch` that ends the step
restores the last. -/
theorem invKept : Obligations.InvKept := by
  intro s t h hstep
  rcases step_cases hstep with ⟨-, rfl⟩ | ⟨e, rest, i, u, -, hdecode, -, hexec, rfl⟩
  · obtain ⟨halways, hmasked, hlive⟩ := withPorts_mid h.mid ⟨[], s.ports.echoes, [], false⟩
    exact ⟨halways, hmasked, hlive, h.waits⟩
  · exact dispatch_inv (exec_mid (withPorts_mid h.mid _) (decode_external hdecode) hexec)

end Sys2Proof.Machine

/-! # The encoding statements: the round trip, frames, the acceptance of commands, the expansions of the
derived ones, packets and replies (`30_encoding.md`) -/

namespace Sys2Proof.Machine

/-! ## The round trip -/

/-- Settles O4, by the constructors of `Instr`: records are read by `decode_record`, packets by
`decode_frame`. -/
theorem decodeEncodeAgree : Obligations.DecodeEncodeAgree := by
  intro p i hp hwf
  cases i with
  | tSend d0 => exact Laws.roundTrip.tSend d0 p hp hwf
  | tRxavail => exact Laws.roundTrip.tRxavail p hp hwf
  | tRxbyte => exact Laws.roundTrip.tRxbyte p hp hwf
  | tReinit d0 d1 d2 d3 => exact Laws.roundTrip.tReinit d0 d1 d2 d3 p hp hwf
  | cWrite id addr n data => exact Laws.roundTrip.cWrite id addr n data p hp hwf
  | cRegwrite id addr n data => exact Laws.roundTrip.cRegwrite id addr n data p hp hwf
  | cRead id addr n => exact Laws.roundTrip.cRead id addr n p hp hwf
  | cAction id => exact Laws.roundTrip.cAction id p hp hwf
  | torqueEn id e => exact Laws.roundTrip.torqueEn id e p hp hwf
  | setSpeed id d0 d1 => exact Laws.roundTrip.setSpeed id d0 d1 p hp hwf
  | setCwLimit id d0 d1 => exact Laws.roundTrip.setCwLimit id d0 d1 p hp hwf
  | setCcwLimit id d0 d1 => exact Laws.roundTrip.setCcwLimit id d0 d1 p hp hwf
  | setId id newId => exact Laws.roundTrip.setId id newId p hp hwf
  | setBaudcode id code => exact Laws.roundTrip.setBaudcode id code p hp hwf
  | setModeCont id => exact Laws.roundTrip.setModeCont id p hp hwf
  | readLoad id => exact Laws.roundTrip.readLoad id p hp hwf
  | readTemp id => exact Laws.roundTrip.readTemp id p hp hwf
  | readVolt id => exact Laws.roundTrip.readVolt id p hp hwf
  | cmdReserved op => exact Laws.roundTrip.cmdReserved op p hp hwf
  | pktRead id addr n => exact Laws.roundTrip.pktRead id addr n p hp hwf
  | pktWrite id addr data => exact Laws.roundTrip.pktWrite id addr data p hp hwf
  | pktRegwrite id addr data => exact Laws.roundTrip.pktRegwrite id addr data p hp hwf
  | pktAction id => exact Laws.roundTrip.pktAction id p hp hwf
  | pktStatus r => exact Laws.roundTrip.pktStatus r p hp hwf
  | reset => exact Laws.roundTrip.reset p hp hwf
  | tick => exact Laws.roundTrip.tick p hp hwf
  | lineByte b => exact Laws.roundTrip.lineByte b p hp hwf
  | edgeOpenPressed => exact Laws.roundTrip.edgeOpenPressed p hp hwf
  | edgeOpenReleased => exact Laws.roundTrip.edgeOpenReleased p hp hwf
  | edgeClosePressed => exact Laws.roundTrip.edgeClosePressed p hp hwf
  | edgeCloseReleased => exact Laws.roundTrip.edgeCloseReleased p hp hwf
  | evDeadline => exact Laws.roundTrip.evDeadline p hp hwf
  | evClose => exact Laws.roundTrip.evClose p hp hwf
  | evOpen => exact Laws.roundTrip.evOpen p hp hwf
  | evSample => exact Laws.roundTrip.evSample p hp hwf

/-- Bytes that the encoder writes of an instruction decode to it, when it is well-formed with the parameters
of the test vectors. -/
theorem decode_of_encode {i : Instr} {src : Source} {bytes : List Byte}
    (henc : encode i = (src, bytes)) (hwf : i.wf vectorParams = true) : decode src bytes = .ok i := by
  have hround := decodeEncodeAgree vectorParams i vectorParams_valid hwf
  rwa [henc] at hround

/-- Settles O3: each word is what the encoder writes of its instruction. -/
theorem wordsDecode : Obligations.WordsDecode :=
  ⟨decode_of_encode rfl rfl, decode_of_encode rfl rfl, decode_of_encode rfl rfl,
    decode_of_encode rfl rfl, decode_of_encode rfl rfl, decode_of_encode rfl rfl,
    decode_of_encode rfl rfl, decode_of_encode rfl rfl, decode_of_encode rfl rfl,
    decode_of_encode rfl rfl⟩

/-! ## Frames -/

/-- The checksum of a frame over the true count of its parameters: the `len` byte wraps modulo 256, as the
sum does (R82, R83, R152). -/
theorem checksum_frame (id op : Byte) (ps : List Byte) :
    checksum ([id, lenField ps.length, op] ++ ps) = BitVec.ofNat 8
      (0xFF - (id.toNat + (ps.length + 2) + op.toNat + (ps.map BitVec.toNat).sum) % 256) := by
  have hsum : sum8 ([id, lenField ps.length, op] ++ ps) =
      (id.toNat + (ps.length + 2) + op.toNat + (ps.map BitVec.toNat).sum) % 256 := by
    simp only [sum8, lenField, List.map_append, List.map_cons, List.map_nil, List.sum_append,
      List.sum_cons, List.sum_nil, BitVec.toNat_ofNat]
    omega
  rw [checksum, hsum]

/-- The bytes of a frame, written out (R81 to R83, R154). -/
theorem frame_bytes (id op : Byte) (ps : List Byte) :
    frame id op ps = [0xFF, 0xFF, id, BitVec.ofNat 8 (ps.length + 2), op] ++ ps ++
      [BitVec.ofNat 8
        (0xFF - (id.toNat + (ps.length + 2) + op.toNat + (ps.map BitVec.toNat).sum) % 256)] := by
  rw [frame, checksum_frame]
  rfl

/-- Settles O8: up to 253 parameters the `len` byte does not wrap. -/
theorem frameLayout : Obligations.FrameLayout := by
  intro id op ps hps
  refine ⟨_, _, Laws.roundTrip.toNat_lenField hps, ?chk, frame_bytes id op ps, frame_length id op ps⟩
  case chk =>
    rw [BitVec.toNat_ofNat]
    omega

/-- A packet is its sync bytes, a target, the count of what follows and a right checksum: it is the frame of
its opcode and parameters (R81 to R83). -/
theorem frame_of_decodePacket {bytes : List Byte} {i : Instr} (h : decodePacket bytes = .ok i) :
    ∃ id op ps, bytes = frame id op ps ∧ packetOf id op ps = .ok i := by
  unfold decodePacket at h
  split at h
  case h_2 => cases h
  case h_1 s0 s1 id len op rest =>
    split_ifs at h with hsync hid hlen hchk
    obtain ⟨rfl, rfl⟩ := not_or.mp hsync |>.imp not_not.mp not_not.mp
    have hcount : rest.length = rest.dropLast.length + 1 := by
      have hpos := List.length_pos_of_mem (List.mem_of_getLast? (not_not.mp hchk))
      rw [List.length_dropLast]
      omega
    have hfield : len = lenField rest.dropLast.length := by
      apply BitVec.eq_of_toNat_eq
      have := len.isLt
      rw [lenField, BitVec.toNat_ofNat]
      omega
    refine ⟨id, op, rest.dropLast, ?_, h⟩
    have hrest := List.dropLast_append_getLast? _ (not_not.mp hchk)
    rw [frame, ← hfield]
    simp only [List.cons_append, List.nil_append, List.cons.injEq, true_and] at hrest ⊢
    exact hrest.symm

/-- What opcode and parameters make is encoded with that opcode and those parameters (R84). -/
theorem encode_of_packetOf {id op : Byte} {ps : List Byte} {i : Instr} (h : packetOf id op ps = .ok i) :
    encode i = (.txPacket, frame id op ps) := by
  unfold packetOf at h
  split_ifs at h with hread hwrite hreg
  all_goals subst op; split at h <;> cases h <;> rfl

/-- Settles O5: what decodes is a frame, and the encoder writes that frame. -/
theorem packetsAreFrames : Obligations.PacketsAreFrames := by
  intro bytes i h
  obtain ⟨id, op, ps, rfl, hpacket⟩ := frame_of_decodePacket h
  exact encode_of_packetOf hpacket

/-! ## The acceptance of a command -/

/-- The tests of R98 (2) to (5) that a command is put to, in their order. -/
def acceptanceTests (p : Params) : Instr → List (Bool × Reason)
  | .tReinit d0 d1 d2 d3 => [baudTest d0 d1 d2 d3]
  | .cWrite id _ n _ | .cRegwrite id _ n _ => [identTest id, lenTest p n]
  | .cRead id _ n => [identTest id, unicastTest id, lenTest p n]
  | .readLoad id | .readTemp id | .readVolt id => [identTest id, unicastTest id]
  | .cAction id | .setId id _ | .setBaudcode id _ | .setModeCont id => [identTest id]
  | .torqueEn id e => [identTest id, torqueTest e]
  | .setSpeed id _ d1 => [identTest id, speedTest d1]
  | .setCwLimit id _ d1 | .setCcwLimit id _ d1 => [identTest id, angleTest d1]
  | .cmdReserved _ => [(true, .opcode)]
  | _ => []

/-- A host command is put to its tests, and otherwise does what its rule, `body`, says (R98). -/
theorem exec_command (s : State) {i : Instr} (hi : isCommand i = true) :
    ∃ body, exec i s = command (acceptanceTests s.cfg i) body s := by
  cases i with
  | tSend | tRxavail | tRxbyte | tReinit | cWrite | cRegwrite | cRead | cAction | torqueEn | setSpeed
  | setCwLimit | setCcwLimit | setId | setBaudcode | setModeCont | readLoad | readTemp | readVolt
  | cmdReserved => exact ⟨_, rfl⟩
  | pktRead | pktWrite | pktRegwrite | pktAction | pktStatus | reset | tick | lineByte
  | edgeOpenPressed | edgeOpenReleased | edgeClosePressed | edgeCloseReleased
  | evDeadline | evClose | evOpen | evSample => cases hi

/-- The reason of the first test that fails. -/
def firstFailing (tests : List (Bool × Reason)) : Option Reason :=
  (tests.find? (fun t => t.1)).map (fun t => t.2)

@[simp] theorem firstFailing_nil : firstFailing [] = none := rfl

@[simp] theorem firstFailing_cons (fails : Bool) (why : Reason) (tests : List (Bool × Reason)) :
    firstFailing ((fails, why) :: tests) = if fails then some why else firstFailing tests := by
  cases fails <;> rfl

theorem identTest_eq (id : Byte) : identTest id = (decide (id = 0xFF), .ident) := rfl

theorem unicastTest_eq (id : Byte) : unicastTest id = (decide (id = 0xFE), .ident) := rfl

theorem lenTest_eq (p : Params) (n : Byte) :
    lenTest p n = (decide (n = 0 ∨ p.maxp < n.toNat), .len) := by
  have hzero : n.toNat = 0 ↔ n = 0 := BitVec.toNat_inj (y := 0)
  simp [lenTest, Bool.beq_eq_decide_eq, hzero]

theorem baudTest_eq (d0 d1 d2 d3 : Byte) :
    baudTest d0 d1 d2 d3 = (decide (d0 = 0 ∧ d1 = 0 ∧ d2 = 0 ∧ d3 = 0), .operand) := by
  simp [baudTest, Bool.beq_eq_decide_eq, Bool.and_assoc]

/-- The table of R98 (2) to (5) is what the tests of each command say. -/
theorem refusalOf_eq (p : Params) (i : Instr) : refusalOf p i = firstFailing (acceptanceTests p i) := by
  cases i with
  | cRead | readLoad | readTemp | readVolt =>
    simp [refusalOf, acceptanceTests, identTest_eq, unicastTest_eq, lenTest_eq, ite_or]
  | cWrite | cRegwrite => simp [refusalOf, acceptanceTests, identTest_eq, lenTest_eq]
  | cAction | setId | setBaudcode | setModeCont => simp [refusalOf, acceptanceTests, identTest_eq]
  | torqueEn => simp [refusalOf, acceptanceTests, identTest_eq, torqueTest]
  | setSpeed => simp [refusalOf, acceptanceTests, identTest_eq, speedTest]
  | setCwLimit | setCcwLimit => simp [refusalOf, acceptanceTests, identTest_eq, angleTest]
  | tReinit => simp [refusalOf, acceptanceTests, baudTest_eq]
  | cmdReserved | tSend | tRxavail | tRxbyte | pktRead | pktWrite | pktRegwrite | pktAction | pktStatus
  | reset | tick | lineByte | edgeOpenPressed | edgeOpenReleased | edgeClosePressed | edgeCloseReleased
  | evDeadline | evClose | evOpen | evSample => rfl

/-- Only a command is refused. -/
theorem isCommand_of_refusalOf {p : Params} {i : Instr} {why : Reason} (h : refusalOf p i = some why) :
    isCommand i = true := by
  cases i with
  | tSend | tRxavail | tRxbyte | tReinit | cWrite | cRegwrite | cRead | cAction | torqueEn | setSpeed
  | setCwLimit | setCcwLimit | setId | setBaudcode | setModeCont | readLoad | readTemp | readVolt
  | cmdReserved => rfl
  | pktRead | pktWrite | pktRegwrite | pktAction | pktStatus | reset | tick | lineByte
  | edgeOpenPressed | edgeOpenReleased | edgeClosePressed | edgeCloseReleased
  | evDeadline | evClose | evOpen | evSample => cases h

/-- Settles O26: the table of R98 names the first test that fails. -/
theorem acceptanceOrder : Obligations.AcceptanceOrder := by
  intro s i why hrest hwhy
  obtain ⟨body, hexec⟩ := exec_command s (isCommand_of_refusalOf hwhy)
  rw [refusalOf_eq, firstFailing, Option.map_eq_some_iff] at hwhy
  obtain ⟨⟨fails, reason⟩, hfirst, rfl⟩ := hwhy
  rw [hexec]
  exact command_refused hrest hfirst

/-- Settles O27: the test of `busy` comes before those of the command. -/
theorem busyRefusesEveryCommand : Obligations.BusyRefusesEveryCommand := by
  intro s i hns hbusy hi
  obtain ⟨body, hexec⟩ := exec_command s hi
  rw [hexec]
  refine command_busy hns (Bool.eq_true_of_not_eq_false fun hfree => ?_)
  obtain ⟨hseq, hmotion⟩ := (busy_false_iff s).mp hfree
  rcases hbusy with hsettle | hmoving
  · rw [hseq] at hsettle; cases hsettle
  · exact hmoving hmotion

/-! ## The reserved codes -/

/-- The codes of no command, as the ranges of R99. -/
theorem ofCode_none_iff (op : Byte) : CmdOp.ofCode op = none ↔
    op.toNat = 0x00 ∨ (0x05 ≤ op.toNat ∧ op.toNat ≤ 0x0F) ∨ (0x14 ≤ op.toNat ∧ op.toNat ≤ 0x1F) ∨
      0x2A ≤ op.toNat := by
  simp only [CmdOp.ofCode, CmdOp.all, CmdOp.code, List.find?_eq_none, List.mem_cons, List.not_mem_nil,
    forall_eq_or_imp, beq_iff_eq, ← BitVec.toNat_inj, BitVec.ofNat_eq_ofNat, BitVec.toNat_ofNat,
    Nat.reducePow, Nat.one_mod, Nat.reduceMod, IsEmpty.forall_iff, implies_true, and_true]
  omega

/-- A command that R97 names is not the reserved one. -/
theorem commandOf_ne_reserved (c : CmdOp) (id addr n op : Byte) (data : List Byte) :
    commandOf c id addr n data ≠ .ok (.cmdReserved op) := by
  unfold commandOf
  split <;> exact fun h => by cases h

/-- A record is the reserved command exactly when its code stands for none (R99). -/
theorem decode_reserved_iff (op id addr n : Byte) (data : List Byte) :
    decode (.ext .cmd) (op :: id :: addr :: n :: data) = .ok (.cmdReserved op) ↔
      CmdOp.ofCode op = none := by
  simp only [decode, decodeCmd]
  cases CmdOp.ofCode op with
  | none => simp
  | some c => simpa using commandOf_ne_reserved c id addr n op data

/-- Settles O6: the codes by the table of R97; the reserved command fails its one test. -/
theorem reservedCodes : Obligations.ReservedCodes :=
  ⟨fun op id addr n data => (decode_reserved_iff op id addr n data).trans (ofCode_none_iff op),
    fun op s hrest => acceptanceOrder s (.cmdReserved op) .opcode hrest rfl⟩

/-! ## Packets on the wire -/

/-- With no transaction in flight a packet is its frame sent (R154, R160). -/
theorem packet_idle {id op : Byte} {ps : List Byte} {s : State} (hq : s.link.Quiet)
    (hseq : s.codec.seq = .idle) (hp : EchoPresent (ps.length + 6) s) :
    live (emitPacket id op ps) s = .next (afterFrame (frame id op ps) s) := by
  rw [← frame_length id op ps] at hp
  simp [live, hq.not_stuck, emitPacket, hseq, sendFrame_quiet hq hp]

/-- In a settle interval no packet is begun (R158). -/
theorem packet_settle {s : State} (hseq : s.codec.seq = .settle) (id op : Byte) (ps : List Byte) :
    live (emitPacket id op ps) s = .next s := by
  simp [live, emitPacket, hseq]

/-- The frame of a write packet, of whichever of the two opcodes (R86, R87). -/
theorem frame_write (id op addr : Byte) (data : List Byte) :
    frame id op (addr :: data) = [0xFF, 0xFF, id, BitVec.ofNat 8 (data.length + 3), op, addr] ++ data ++
      [BitVec.ofNat 8 (0xFF - (id.toNat + (data.length + 3) + op.toNat + addr.toNat +
        (data.map BitVec.toNat).sum) % 256)] := by
  rw [frame_bytes]
  simp [Nat.add_assoc]

/-- The frame of a read packet (R85). -/
theorem frame_read (id addr n : Byte) :
    frame id opRead [addr, n] = [0xFF, 0xFF, id, 0x04, 0x02, addr, n,
      BitVec.ofNat 8 (0xFF - (id.toNat + 4 + 2 + addr.toNat + n.toNat) % 256)] := by
  rw [frame_bytes]
  simp [opRead, Nat.add_assoc]

/-- The frame of the trigger (R88). -/
theorem frame_action (id : Byte) :
    frame id opRegwrite [] = [0xFF, 0xFF, id, 0x02, 0x04,
      BitVec.ofNat 8 (0xFF - (id.toNat + 2 + 4) % 256)] := by
  rw [frame_bytes]
  rfl

/-- Settles O10: a packet is its frame on the wire, and nothing in a settle interval. -/
theorem packetsSent : Obligations.PacketsSent := by
  intro s hq
  refine ⟨fun hseq => ⟨fun id addr n hp => ?read, fun id addr data _ _ hp => ?write,
    fun id addr data _ _ hp => ?regwrite, fun id hp => ?action⟩, fun hseq id addr n data =>
    ⟨packet_settle hseq _ _ _, packet_settle hseq _ _ _, packet_settle hseq _ _ _,
      packet_settle hseq _ _ _⟩⟩
  case read => rw [← frame_read]; exact packet_idle hq hseq hp
  case write => exact frame_write id opWrite addr data ▸ packet_idle hq hseq hp
  case regwrite => exact frame_write id opRegwrite addr data ▸ packet_idle hq hseq hp
  case action => rw [← frame_action]; exact packet_idle hq hseq hp

/-! ## The Transport commands -/

/-- The echo of the premise is the draw that `send` takes, and the rest of the draws stay (R108, R123). -/
theorem drawEcho_eq {b e : Byte} {ds : List Echo}
    (h : ds.head? = some (some e) ∨ (ds = [] ∧ e = b)) : drawEcho b ds = (some e, ds.tail) := by
  rcases h with hhead | ⟨rfl, rfl⟩
  · cases ds with
    | nil => cases hhead
    | cons d ds => cases hhead; rfl
  · rfl

/-- Settles O11: the byte read back on a quiet line is the draw. (The obligation's own name is taken by the
operation `sendCommand` of the model.) -/
theorem sendCommand_answers_echo : Obligations.SendCommand := by
  intro s b e hrest hecho
  have hdraw := drawEcho_eq hecho
  have hsend := sendByte_quiet hrest.quiet (b := b) (e := e) (by rw [hdraw])
  have hbody : sendCommand b s = answered .noWait 0x00 [e] (decide (e = b)) false
      { s with ports := { s.ports with
          wireTx := s.ports.wireTx ++ [b], echoes := s.ports.echoes.tail } } := by
    rw [sendCommand, hsend, hdraw, ← respond_transport]
    rfl
  rw [← hbody]
  exact command_accepted hrest rfl

/-- A byte put below the bits there are. -/
theorem toNat_append_byte {w : Nat} (x : BitVec w) (b : Byte) :
    (x ++ b).toNat = 256 * x.toNat + b.toNat := by
  rw [BitVec.toNat_append, ← Nat.shiftLeft_add_eq_or_of_lt b.isLt, Nat.shiftLeft_eq, Nat.mul_comm]

/-- The operand of `T_REINIT`, byte by byte (R134). -/
theorem baudOf_eq (d0 d1 d2 d3 : Byte) :
    baudOf d0 d1 d2 d3 = d0.toNat + 256 * d1.toNat + 65536 * d2.toNat + 16777216 * d3.toNat := by
  simp only [baudOf, toNat_append_byte]
  omega

/-- Settles O16: with the operand test passed the link is rebuilt at the operand's rate. -/
theorem reinitRebuilds : Obligations.ReinitRebuilds := by
  intro s d0 d1 d2 d3 hrest
  refine ⟨fun hrate => ?rebuilt, fun h0 h1 h2 h3 => ?refused⟩
  case rebuilt =>
    rw [← baudOf_eq]
    refine command_accepted hrest ?_
    rw [baudTest_eq, decide_eq_false hrate]
    rfl
  case refused =>
    exact acceptanceOrder s (.tReinit d0 d1 d2 d3) .operand hrest (if_pos ⟨h0, h1, h2, h3⟩)

/-! ## The reply of a host transaction -/

/-- A status packet in its turn, for a host transaction: the response, then `dispatch` (R166). -/
theorem execPktStatus_host {r : List Byte} {s : State} (hq : s.link.Quiet) (hseq : s.codec.seq = .settle)
    (hcnt : s.codec.settleCnt = 0) (hcont : s.codec.cont = .host) :
    exec (.pktStatus r) s = .next (dispatch (respond (replyResult s.codec r)
      { s with codec := { s.codec with seq := .idle } })) := by
  refine (execPktStatus_turn hq.not_stuck hseq hcnt).trans ?_
  rw [finishTxn_eq, hcont]
  rfl

theorem respond_noReply (echoOk : Bool) (s : State) :
    respond (noReplyResult echoOk) s = answered .noReply 0x00 [] echoOk false s := rfl

/-- A reply of the length expected, as a response: `n` is the count of its valid bytes, all of them there
(R101, R164). -/
theorem respond_fullReply {c : Codec} {r : List Byte} (hexp : c.expN = 6 + c.rdN)
    (hlen : r.length = c.expN) (s : State) :
    respond (replyResult c r) s = answered .reply (r.getD 4 0)
      ((r.drop 5).take (min ((r.getD 3 0).toNat - 2) c.rdN)) c.echoOk (verdictOf c.expN r) s := by
  have hcount : ((r.drop 5).take (validCountOf c.rdN r)).length = validCountOf c.rdN r := by
    have hmin : validCountOf c.rdN r ≤ c.rdN := Nat.min_le_right _ _
    rw [List.length_take, List.length_drop]
    omega
  have hdecoded : decodeReply c.expN c.rdN c.echoOk r =
      ⟨.reply, r.getD 4 0, ((r.drop 5).take (validCountOf c.rdN r)).length,
        (r.drop 5).take (validCountOf c.rdN r), c.echoOk, verdictOf c.expN r⟩ := by
    rw [hcount, ← chkOkOf_eq]
    rfl
  rw [replyResult_full hlen, hdecoded]
  rfl

/-- Settles O28: the reply is decoded or reported missing, and only as many bytes as expected count. -/
theorem hostReply : Obligations.HostReply := by
  intro s r hq
  refine ⟨fun hseq hcnt => ⟨fun hcont hexp => ⟨fun hlen => ?full, fun hlen => ?short⟩, fun hlen => ?cut⟩,
    execPktStatus_out⟩
  case full => rw [execPktStatus_host hq hseq hcnt hcont, respond_fullReply hexp hlen]
  case short => rw [execPktStatus_host hq hseq hcnt hcont, replyResult_short hlen, respond_noReply]
  case cut =>
    have hturn (bs : List Byte) := execPktStatus_turn (r := bs) hq.not_stuck hseq hcnt
    refine (hturn r).trans (Eq.trans ?_ (hturn (r.take s.codec.expN)).symm)
    rw [finishTxn_eq, finishTxn_eq, replyResult_take hlen]

/-! ## Derived commands as expansions -/

/-- A command's rule counts only for what it does to the state at hand. -/
theorem command_congr {tests : List (Bool × Reason)} {body body' : State → State} {s : State}
    (h : body s = body' s) : command tests body s = command tests body' s := by
  rw [command, command, live, live, accept, accept, h]

/-- A test that passes may be left out at the end (R98). -/
theorem command_drop_passed (tests : List (Bool × Reason)) {test : Bool × Reason}
    {body body' : State → State} {s : State} (htest : test.1 = false) (hbody : body s = body' s) :
    command (tests ++ [test]) body s = command tests body' s := by
  have hfirst : firstRefusal s (tests ++ [test]) = firstRefusal s tests := by
    simp [firstRefusal, List.find?_cons, List.find?_append, htest]
  rw [command, command, live, live, accept, accept, hfirst, hbody]

/-- A command that is not held off and none of whose tests fails is carried out, whatever the line. -/
theorem command_accepted_of_live {tests : List (Bool × Reason)} {body : State → State} {s : State}
    (hns : s.stuck = false) (hfree : s.busy = false) (ht : firstFailing tests = none) :
    command tests body s = .next (body s) := by
  have hfirst : tests.find? (fun t => t.1) = none := Option.map_eq_none_iff.mp ht
  rw [command_live hns]
  simp [accept, firstRefusal, hfree, hfirst]

theorem lenTest_passes {p : Params} {n : Byte} (hlow : 1 ≤ n.toNat) (hhigh : n.toNat ≤ p.maxp) :
    (lenTest p n).1 = false := by
  simp only [lenTest, Bool.or_eq_false_iff, beq_eq_false_iff_ne, decide_eq_false_iff_not]
  omega

theorem lenTest_one {p : Params} (hp : p.Valid) : (lenTest p 1).1 = false :=
  lenTest_passes (by decide) (Nat.one_le_of_lt hp.maxpLow)

theorem lenTest_two {p : Params} (hp : p.Valid) : (lenTest p 2).1 = false :=
  lenTest_passes (by decide) hp.maxpLow

theorem identTest_passes {id : Byte} (hid : id ≠ 0xFF) : firstFailing [identTest id] = none := by
  rw [identTest_eq, decide_eq_false hid]
  rfl

/-- A `C_WRITE` whose count is in range is put to the identifier test alone (R98, R168). -/
theorem exec_cWrite {s : State} (id addr : Byte) {n : Byte} (data : List Byte)
    (hn : (lenTest s.cfg n).1 = false) :
    exec (.cWrite id addr n data) s = command [identTest id] (hostWrite opWrite id addr data) s :=
  command_drop_passed [identTest id] hn rfl

/-- A `C_READ` whose count is in range is put to the identifier tests alone (R98, R170). -/
theorem exec_cRead {s : State} (id addr : Byte) {n : Byte} (hn : (lenTest s.cfg n).1 = false) :
    exec (.cRead id addr n) s = command [identTest id, unicastTest id] (hostRead id addr n) s :=
  command_drop_passed [identTest id, unicastTest id] hn rfl

/-! ### `host_id` under sending -/

theorem sendByte_setHostId (id b : Byte) (s : State) :
    sendByte b (setHostId id s) = ((sendByte b s).1, setHostId id (sendByte b s).2) := by
  unfold sendByte
  rw [setHostId_ports]
  cases (drawEcho b s.ports.echoes).1 <;> rfl

theorem noteEcho_setHostId (id b x : Byte) (s : State) :
    noteEcho b x (setHostId id s) = setHostId id (noteEcho b x s) := by
  unfold noteEcho
  split <;> rfl

theorem transmit_setHostId (id : Byte) (bs : List Byte) : ∀ s : State,
    transmit bs (setHostId id s) = setHostId id (transmit bs s) := by
  induction bs with
  | nil => exact fun s => rfl
  | cons b bs ih =>
    intro s
    rw [transmit, transmit, sendByte_setHostId]
    cases (sendByte b s).1 with
    | none => rfl
    | some x => exact (congrArg _ (noteEcho_setHostId id b x _)).trans (ih _)

/-- Sending a frame neither reads nor writes `host_id` (R36, R160). -/
theorem sendFrame_setHostId (host id op : Byte) (ps : List Byte) (s : State) :
    sendFrame id op ps (setHostId host s) = setHostId host (sendFrame id op ps s) :=
  transmit_setHostId host (frame id op ps) (loadFrame id op ps s)

/-! ### `SET_MODE_CONT` -/

/-- A host transaction begun leaves nothing to dispatch. -/
theorem dispatch_beginTxn (id op : Byte) (ps : List Byte) (rn : Nat) (wait : Bool) (k : Cont)
    (s : State) : dispatch (beginTxn completeHost id op ps rn wait k s) =
      beginTxn completeHost id op ps rn wait k s := by
  unfold beginTxn
  split
  case isTrue hstuck => exact dispatch_stuck hstuck
  case isFalse =>
    cases wait with
    | true => exact dispatch_settle rfl
    | false => exact dispatch_dispatch _

/-- Stuck, busy or given no identifier, a command of the identifier test does the same whatever its rule. -/
theorem command_heldOff {id : Byte} {s : State} (h : s.stuck = true ∨ s.busy = true ∨ id = 0xFF)
    (body body' : State → State) :
    command [identTest id] body s = command [identTest id] body' s := by
  cases hstuck : s.stuck with
  | true => rw [command, command, live, live, if_pos hstuck, if_pos hstuck]
  | false =>
    cases hbusy : s.busy with
    | true => rw [command_busy hstuck hbusy, command_busy hstuck hbusy]
    | false =>
      obtain rfl : id = 0xFF := by simpa [hstuck, hbusy] using h
      rw [command_live hstuck, command_live hstuck]
      simp [accept, firstRefusal, hbusy, identTest]

/-- The first write for a unicast target, beside the `C_WRITE` of the same bytes (R196). -/
theorem beginModeCont_unicast {id : Byte} (hid : id ≠ 0xFE) {s t : State}
    (ht : t = hostWrite opWrite id s.cfg.aCwLimit [0x00, 0x00] s) :
    beginModeCont id s = { t with codec := { t.codec with
      hostId := id, cont := if t.stuck then s.codec.cont else .hostMode2 } } := by
  have hwait : (id != broadcastId) = true := bne_iff_ne.mpr hid
  have hkeeps := sendFrame_keeps id opWrite [s.cfg.aCwLimit, 0x00, 0x00] s
  unfold beginModeCont beginTxn
  unfold hostWrite beginTxn at ht
  rw [sendFrame_setHostId, hwait]
  rw [hwait] at ht
  generalize sendFrame id opWrite [s.cfg.aCwLimit, 0x00, 0x00] s = sent at hkeeps ht ⊢
  have hsame : (setHostId id sent).stuck = sent.stuck := rfl
  rw [hsame]
  cases hstuck : sent.stuck with
  | true =>
    obtain rfl : t = sent := ht.trans (if_pos hstuck)
    rw [if_pos rfl, if_pos hstuck, ← hkeeps.cont]
    rfl
  | false =>
    obtain rfl : t = settleFor 0 .host sent := ht.trans (if_neg (by simp [hstuck]))
    have hlive : (settleFor 0 .host sent).stuck = false := hstuck
    rw [if_neg Bool.false_ne_true, if_pos rfl, if_neg (by simp [hlive])]
    rfl

/-- After a first write that did not fail the continuation is the second `C_WRITE` (R196). -/
theorem dispatch_contMode2 {r : Result} (hr : r.failed = false) (s : State) :
    dispatch (contMode2 r s) =
      hostWrite opWrite s.codec.hostId s.cfg.aCcwLimit [0x00, 0x00] s := by
  rw [contMode2, if_neg (by simp [hr]), dispatch_beginTxn]
  rfl

/-- A block that is not stuck and not busy carries out a `C_WRITE` to an identifier (R168). -/
theorem exec_cWrite_accepted {s : State} {id : Byte} (addr : Byte) {n : Byte} (data : List Byte)
    (hns : s.stuck = false) (hfree : s.busy = false) (hid : id ≠ 0xFF)
    (hn : (lenTest s.cfg n).1 = false) :
    exec (.cWrite id addr n data) s = .next (hostWrite opWrite id addr data s) := by
  rw [exec_cWrite id addr data hn]
  exact command_accepted_of_live hns hfree (identTest_passes hid)

theorem exec_setModeCont_accepted {s : State} {id : Byte} (hns : s.stuck = false)
    (hfree : s.busy = false) (hid : id ≠ 0xFF) :
    exec (.setModeCont id) s = .next (beginModeCont id s) :=
  command_accepted_of_live hns hfree (identTest_passes hid)

/-- A reply of six bytes without an error does not stop `SET_MODE_CONT` (R196). -/
theorem replyResult_not_failed {c : Codec} {r : List Byte} (hlen : r.length = c.expN)
    (herr : r.getD 4 0 = 0) : (replyResult c r).failed = false := by
  rw [replyResult_full hlen, Result.failed, decodeReply, byteAt, herr]
  rfl

/-- The reply to the first write begins the second, as a `C_WRITE` of the idle sequencer (R196). -/
theorem exec_pktStatus_mode2 {s : State} {r : List Byte} (hp : s.cfg.Valid) (hns : s.stuck = false)
    (hseq : s.codec.seq = .settle) (hcnt : s.codec.settleCnt = 0) (hcont : s.codec.cont = .hostMode2)
    (hmotion : s.act.motion = .idle) (hid : s.codec.hostId ≠ 0xFF) (hlen : r.length = s.codec.expN)
    (herr : r.getD 4 0 = 0) :
    exec (.pktStatus r) s = exec (.cWrite s.codec.hostId s.cfg.aCcwLimit 2 [0x00, 0x00])
      { s with codec := { s.codec with seq := .idle } } := by
  have hfree : ({ s with codec := { s.codec with seq := .idle } } : State).busy = false :=
    (busy_false_iff _).mpr ⟨rfl, hmotion⟩
  rw [exec_cWrite_accepted (s := { s with codec := { s.codec with seq := .idle } }) _ _ hns hfree hid
    (lenTest_two hp)]
  refine (execPktStatus_turn hns hseq hcnt).trans (congrArg _ ?_)
  rw [finishTxn_eq, hcont]
  exact dispatch_contMode2 (replyResult_not_failed hlen herr) _

/-- A broadcast write with nothing pending: stuck inside its frame, or its frame and the response (R168). -/
theorem hostWrite_broadcast {op addr : Byte} {data : List Byte} {s t : State} (hevq : s.sup.evq = [])
    (ht : t = hostWrite op 0xFE addr data s) :
    ((sendFrame 0xFE op (addr :: data) s).stuck = true ∧ t = sendFrame 0xFE op (addr :: data) s) ∨
      ((sendFrame 0xFE op (addr :: data) s).stuck = false ∧
        ∃ r, t = respond r (sendFrame 0xFE op (addr :: data) s)) := by
  have hsup := (sendFrame_keeps 0xFE op (addr :: data) s).sup
  unfold hostWrite beginTxn at ht
  generalize sendFrame 0xFE op (addr :: data) s = sent at hsup ht ⊢
  cases hstuck : sent.stuck with
  | true => exact .inl ⟨rfl, ht.trans (if_pos hstuck)⟩
  | false =>
    refine .inr ⟨rfl, noWaitResult sent.codec.echoOk, ?_⟩
    rw [ht, if_neg (by simp [hstuck]), if_neg (by decide)]
    exact dispatch_nil (s := respond _ _) (by rw [respond_sup, hsup, hevq])

/-- A response taken back, after a frame. -/
theorem forget_response {s sent t : State} (hkeeps : SendKeeps s sent)
    (ht : t = sent ∨ ∃ r, t = respond r sent) (id : Byte) :
    ({ t with
      codec := { t.codec with hostId := id }
      rsp := s.rsp
      ports := { t.ports with rspValid := s.ports.rspValid } } : State) = setHostId id sent := by
  rcases ht with rfl | ⟨r, rfl⟩ <;> rw [← hkeeps.rsp, ← hkeeps.rspValid] <;> rfl

/-- To broadcast the two writes follow each other, the first without its response (R159, R196). -/
theorem exec_setModeCont_broadcast {s t : State} (hp : s.cfg.Valid) (hns : s.stuck = false)
    (hfree : s.busy = false) (hevq : s.sup.evq = [])
    (ht : t = hostWrite opWrite 0xFE s.cfg.aCwLimit [0x00, 0x00] s) :
    exec (.setModeCont 0xFE) s = exec (.cWrite 0xFE s.cfg.aCcwLimit 2 [0x00, 0x00])
      { t with
        codec := { t.codec with hostId := 0xFE }
        rsp := s.rsp
        ports := { t.ports with rspValid := s.ports.rspValid } } := by
  have hkeeps := sendFrame_keeps 0xFE opWrite [s.cfg.aCwLimit, 0x00, 0x00] s
  have hcases := hostWrite_broadcast hevq ht
  rw [exec_setModeCont_accepted hns hfree (by decide), beginModeCont, beginTxn, sendFrame_setHostId]
  generalize sendFrame 0xFE opWrite [s.cfg.aCwLimit, 0x00, 0x00] s = sent at hkeeps hcases ⊢
  rw [forget_response hkeeps (hcases.imp And.right And.right)]
  have htwo : (lenTest (setHostId 0xFE sent).cfg 2).1 = false := by
    rw [setHostId_cfg, hkeeps.cfg]
    exact lenTest_two hp
  rcases hcases with ⟨hstuck, -⟩ | ⟨hlive, -⟩
  · have hset : (setHostId 0xFE sent).stuck = true := hstuck
    rw [exec_cWrite _ _ _ htwo, command, live, if_pos hset, if_pos hset]
  · have hset : (setHostId 0xFE sent).stuck = false := hlive
    have hfree' : (setHostId 0xFE sent).busy = false :=
      (busy_false_iff _).mpr (by
        rw [setHostId_codec_seq, setHostId_act, hkeeps.seq, hkeeps.act]
        exact (busy_false_iff s).mp hfree)
    rw [exec_cWrite_accepted _ _ hset hfree' (by decide) htwo, if_neg (hset ▸ Bool.false_ne_true),
      if_neg (by decide), ← hkeeps.cfg]
    exact congrArg _ (dispatch_contMode2 rfl (setHostId 0xFE sent))

/-- Settles O24: an operand test that passes and a count in range leave the tests of the identifier, and
`SET_MODE_CONT` is taken apart at the end of its first write. -/
theorem derivedAreExpansions : Obligations.DerivedAreExpansions := by
  intro s id hp
  refine ⟨fun e he => ?torqueEn, fun d0 d1 hd => ?setSpeed, fun d0 d1 hd => ?setCwLimit,
    fun d0 d1 hd => ?setCcwLimit, fun newId => ?setId, fun code => ?setBaudcode, ?readLoad, ?readTemp,
    ?readVolt, fun hoff => ?heldOff, fun hns hfree hid huni => ?unicast, ?second,
    fun hns hfree hevq hid => ?broadcast⟩
  case torqueEn =>
    rw [exec_cWrite _ _ _ (lenTest_one hp)]
    exact command_drop_passed [identTest id] (decide_eq_false (Nat.not_lt.mpr he)) rfl
  case setSpeed =>
    rw [exec_cWrite _ _ _ (lenTest_two hp)]
    exact command_drop_passed [identTest id] (decide_eq_false (Nat.not_lt.mpr hd)) rfl
  case setCwLimit =>
    rw [exec_cWrite _ _ _ (lenTest_two hp)]
    exact command_drop_passed [identTest id] (decide_eq_false (Nat.not_lt.mpr hd)) rfl
  case setCcwLimit =>
    rw [exec_cWrite _ _ _ (lenTest_two hp)]
    exact command_drop_passed [identTest id] (decide_eq_false (Nat.not_lt.mpr hd)) rfl
  case setId => rw [exec_cWrite _ _ _ (lenTest_one hp)]; exact command_congr rfl
  case setBaudcode => rw [exec_cWrite _ _ _ (lenTest_one hp)]; exact command_congr rfl
  case readLoad => rw [exec_cRead _ _ (lenTest_two hp)]; exact command_congr rfl
  case readTemp =>
    rw [exec_cRead _ _ (lenTest_passes hp.nTemp.1 (hp.nTemp.2.trans hp.maxpLow))]
    exact command_congr rfl
  case readVolt =>
    rw [exec_cRead _ _ (lenTest_passes hp.nVolt.1 (hp.nVolt.2.trans hp.maxpLow))]
    exact command_congr rfl
  case heldOff =>
    rw [exec_cWrite _ _ _ (lenTest_two hp)]
    exact command_heldOff hoff _ _
  case unicast =>
    refine ⟨_, exec_cWrite_accepted _ _ hns hfree hid (lenTest_two hp), ?_⟩
    rw [exec_setModeCont_accepted hns hfree hid, beginModeCont_unicast huni rfl]
  case second =>
    intro hns hseq hcnt hcont hexp hmotion hid _ r hlen herr
    exact exec_pktStatus_mode2 hp hns hseq hcnt hcont hmotion hid (hlen.trans hexp.symm) herr
  case broadcast =>
    subst hid
    exact ⟨_, exec_cWrite_accepted _ _ hns hfree (by decide) (lenTest_two hp),
      exec_setModeCont_broadcast hp hns hfree hevq rfl⟩

end Sys2Proof.Machine

/-! # The Transport statements: the stuck state, the frames whose echo is missing and the bytes that arrive
(`40_transport.md`) -/

namespace Sys2Proof.Machine

/-! ## The stuck state -/

theorem live_of_stuck {s : State} (h : s.stuck = true) (f : State → State) : live f s = .next s :=
  congrArg _ (if_pos h)

theorem live_of_not_stuck {s : State} (h : s.stuck = false) (f : State → State) :
    live f s = .next (f s) := by
  simp [live, h]

/-- No instruction but `RESET` is processed in the stuck state (R123). -/
theorem exec_of_stuck {i : Instr} {s : State} (h : s.stuck = true) (hi : i ≠ .reset) :
    exec i s = .next s := by
  cases i with
  | reset => exact absurd rfl hi
  | edgeOpenPressed => exact live_of_stuck h (fun s => dispatch (pressOpen s))
  | edgeClosePressed => exact live_of_stuck h (fun s => dispatch (pressClose s))
  | tSend | tRxavail | tRxbyte | tReinit | cWrite | cRegwrite | cRead | cAction | torqueEn | setSpeed
  | setCwLimit | setCcwLimit | setId | setBaudcode | setModeCont | readLoad | readTemp | readVolt
  | cmdReserved | pktRead | pktWrite | pktRegwrite | pktAction | pktStatus | tick | lineByte
  | edgeOpenReleased | edgeCloseReleased | evDeadline | evClose | evOpen | evSample =>
    exact live_of_stuck h _

/-- Settles O13: the stuck state lets no event but `RESET` through, which makes the link anew. -/
theorem stuckUntilReset : Obligations.StuckUntilReset :=
  fun _ hstuck => ⟨fun _ hi => exec_of_stuck hstuck hi, _, rfl, rfl, Link.fresh_quiet _ _⟩

/-! ## Bytes that arrive -/

/-- A full queue drops the byte, and the link is as it was (R129). -/
theorem Link.Holds.capture_full {depth : Nat} {l : Link} {bs : List Byte} (h : l.Holds depth bs)
    (hfull : bs.length = depth) (b : Byte) : l.capture depth b = l :=
  if_neg fun hfree => (h.slot_wr.mp hfree).ne hfull

/-- Settles O17: on a quiet line the byte goes through the hardware buffer to `capture`. -/
theorem lineByteCaptured : Obligations.LineByteCaptured := by
  intro s bs b hq hb
  obtain ⟨hbaud, -, -, -, hrd⟩ := Link.capture_frame s.cfg.rxqDepth s.link b
  have hquiet := hq.arrive s.cfg.rxqDepth b
  rw [Link.arrive_eq hq] at hquiet
  refine ⟨s.link.capture s.cfg.rxqDepth b, hquiet, hbaud, hrd, hb.capture b,
    fun hfull => hb.capture_full hfull b, ?_⟩
  rw [← Link.arrive_eq hq]
  exact live_of_not_stuck hq.not_stuck _

/-! ## A missing echo of a command or a packet -/

/-- In a block at rest an instruction that has a frame and is not refused sends it: a packet by itself, a
command in its transaction (R154, R159). -/
theorem exec_sends_frame {i : Instr} {bytes : List Byte} {s : State} (hrest : s.AtRest)
    (hframe : frameOf s.cfg i = some bytes) (hpass : refusalOf s.cfg i = none) :
    ∃ id op ps, bytes = frame id op ps ∧
      (exec i s = .next (sendFrame id op ps s) ∨
        ∃ fin rn wait k, exec i s = .next (beginTxn fin id op ps rn wait k s)) := by
  have haccepted (body : State → State) :
      command (acceptanceTests s.cfg i) body s = .next (body s) :=
    command_accepted_of_live hrest.not_stuck hrest.not_busy (refusalOf_eq s.cfg i ▸ hpass)
  have hpacket (id op : Byte) (ps : List Byte) :
      live (emitPacket id op ps) s = .next (sendFrame id op ps s) :=
    (live_of_not_stuck hrest.not_stuck _).trans (congrArg _ (if_pos hrest.seq))
  cases i with
  | cWrite | cRegwrite | cRead | cAction | torqueEn | setSpeed | setCwLimit | setCcwLimit | setId
  | setBaudcode | readLoad | readTemp | readVolt =>
    cases hframe
    exact ⟨_, _, _, rfl, .inr ⟨_, _, _, _, haccepted _⟩⟩
  | pktRead | pktWrite | pktRegwrite | pktAction =>
    cases hframe
    exact ⟨_, _, _, rfl, .inl (hpacket _ _ _)⟩
  | tSend | tRxavail | tRxbyte | tReinit | setModeCont | cmdReserved | pktStatus | reset | tick
  | lineByte | edgeOpenPressed | edgeOpenReleased | edgeClosePressed | edgeCloseReleased
  | evDeadline | evClose | evOpen | evSample => cases hframe

/-- The draws of two frames are those of the first and, after it, those of the second (R100). -/
theorem echoPresent_add (bytes : List Byte) (k : Nat) (s : State) :
    EchoPresent (bytes.length + k) s ↔
      EchoPresent bytes.length s ∧ EchoPresent k (afterFrame bytes s) := by
  simp only [EchoPresent, afterFrame, List.take_add, List.mem_append, not_or]

/-- `T_SEND` with no echo waits inside `send` and responds nothing (R123, R125). -/
theorem sendCommand_missing {d0 : Byte} {rest : List Echo} {s : State}
    (h : s.ports.echoes = none :: rest) : sendCommand d0 s = sendStart d0 s := by
  rw [sendCommand, sendByte_none (by rw [h]; rfl)]

/-- The first frame of `SET_MODE_CONT`, cut short (R123, R196). -/
theorem beginModeCont_missing {id : Byte} {s : State} (hq : s.link.Quiet) (hn : ¬ EchoPresent 9 s) :
    beginModeCont id s =
      afterMissing (frame id opWrite [s.cfg.aCwLimit, 0x00, 0x00]) (setHostId id s) :=
  beginTxn_missing (s := setHostId id s) hq hn

theorem hostWrite_missing {op id addr : Byte} {data : List Byte} {s : State} (hq : s.link.Quiet)
    (hn : ¬ EchoPresent (data.length + 7) s) :
    hostWrite op id addr data s = afterMissing (frame id op (addr :: data)) s :=
  beginTxn_missing hq (by simpa [Nat.add_assoc] using hn)

/-- The second frame of `SET_MODE_CONT` to broadcast, cut short after the first (R123, R159, R196). -/
theorem beginModeCont_second_missing {s : State} (hq : s.link.Quiet) (hp : EchoPresent 9 s)
    (hn : ¬ EchoPresent 18 s) :
    beginModeCont 0xFE s = afterMissing (frame 0xFE opWrite [s.cfg.aCcwLimit, 0x00, 0x00])
      (afterFrame (frame 0xFE opWrite [s.cfg.aCwLimit, 0x00, 0x00]) (setHostId 0xFE s)) := by
  have hsecond : ¬ EchoPresent 9
      (afterFrame (frame 0xFE opWrite [s.cfg.aCwLimit, 0x00, 0x00]) (setHostId 0xFE s)) :=
    fun h => hn ((echoPresent_add (frame 0xFE opWrite [s.cfg.aCwLimit, 0x00, 0x00]) 9
      (setHostId 0xFE s)).mpr ⟨hp, h⟩)
  rw [beginModeCont,
    beginTxn_quiet (ps := [s.cfg.aCwLimit, 0x00, 0x00]) (s := setHostId 0xFE s) hq hp]
  exact (dispatch_contMode2 rfl _).trans (hostWrite_missing hq hsecond)

/-- Settles O12: `send` without its echo, the frame of whichever instruction cut short, and the two frames of
`SET_MODE_CONT` one after the other. -/
theorem missingEchoSticks : Obligations.MissingEchoSticks := by
  intro s hrest
  refine ⟨fun d0 rest hechoes => ?send, fun i bytes hframe hpass hn => ?frame,
    fun id hid => ⟨fun hn => ?first, fun hbroadcast hp hn => ?second⟩⟩
  case send =>
    refine (command_accepted hrest rfl).trans (congrArg _ ?_)
    rw [sendCommand_missing hechoes, sendStart, hechoes]
    rfl
  case frame =>
    obtain ⟨fid, op, ps, rfl, hsent | ⟨fin, rn, wait, k, hbegun⟩⟩ :=
      exec_sends_frame hrest hframe hpass
    · rw [hsent, sendFrame_missing hrest.quiet hn]
    · rw [hbegun, beginTxn_missing hrest.quiet (frame_length fid op ps ▸ hn)]
  case first =>
    exact (exec_setModeCont_accepted hrest.not_stuck hrest.not_busy hid).trans
      (congrArg _ (beginModeCont_missing hrest.quiet hn))
  case second =>
    subst hbroadcast
    exact (exec_setModeCont_accepted hrest.not_stuck hrest.not_busy hid).trans
      (congrArg _ (beginModeCont_second_missing hrest.quiet hp hn))

/-! ## A missing echo of a frame the block sends on its own -/

/-- With no transaction in flight the Controller takes an event by its table (R234, R235). -/
theorem exec_evInstr {s : State} (hq : s.link.Quiet) (hseq : s.codec.seq = .idle) (e : CtrlEv) :
    exec (evInstr e) s = .next (transition e s) := by
  have htaken (apply : State → State) : live (takeEvent e apply) s = .next (apply s) :=
    (live_of_not_stuck hq.not_stuck _).trans (congrArg _ (if_pos hseq))
  cases e <;> exact htaken _

theorem onOpen_idle {s : State} (h : s.act.motion = .idle) : onOpen s = beginMotion .opening s := by
  rw [onOpen, h]

/-- A close event begins closing whatever the Controller is doing (R237, R238). -/
theorem onClose_eq (s : State) : onClose s = beginMotion .closing s := by
  unfold onClose
  split <;> rfl

theorem onSample_moving {s : State} (h : s.moving) : onSample s = readLoadSample s := by
  rcases h with h | h <;> rw [onSample, h]

theorem onDeadline_moving {s : State} (h : s.moving) : onDeadline s = enterEmergency s := by
  rcases h with h | h <;> rw [onDeadline, h]

/-- The load read that confirms a stall, its torque-disable frame cut short (R123, R249). -/
theorem contSample_missing {c : Codec} {r : List Byte} {s : State} (hexp : c.expN = 8) (hrd : c.rdN = 2)
    (hq : s.link.Quiet) (hseq : s.codec.seq = .idle) (husable : usableReply r)
    (hover : overReply s.cfg r) (hlast : s.act.ovlCnt + 1 = s.cfg.validCount)
    (hn : ¬ EchoPresent 8 s) :
    contSample (replyResult c r) s = afterMissing (torqueOffFrame s.cfg) (stallSet s) := by
  have hlen : r.length ≤ 8 := husable.1.le
  rcases contSample_cases hrd hexp hlen (by omega) hq hseq with
    ⟨hun, -⟩ | ⟨-, hwithin, -⟩ | ⟨-, -, hnotLast, -⟩ | ⟨-, -, -, -, hmissing⟩
  · exact absurd husable hun
  · exact absurd hover hwithin
  · exact absurd hlast hnotLast
  · exact hmissing hn

/-- A status packet in its turn on a quiet line is its continuation, then `dispatch` (R166). -/
theorem exec_pktStatus_continues {r : List Byte} {s : State} (hq : s.link.Quiet)
    (hseq : s.codec.seq = .settle) (hcnt : s.codec.settleCnt = 0) :
    exec (.pktStatus r) s = .next (dispatch (continueWith s.codec.cont (replyResult s.codec r)
      { s with codec := { s.codec with seq := .idle } })) :=
  execPktStatus_turn hq.not_stuck hseq hcnt

/-- Settles O58: each transition of the table of R235 begins its transaction, and so do the two continuations
that send a frame; in the stuck state nothing more is dispatched. -/
theorem missingEchoInController : Obligations.MissingEchoInController := by
  intro s hq
  refine ⟨fun hseq => ⟨fun hidle hn => ?opening, fun hn => ?closing,
      fun hmoving hn => ⟨?load, ?emergency⟩⟩,
    fun hseq hcnt r => ⟨fun hcont hexp hrd _ husable hover hlast hn => ?stall,
      fun hcont hexp _ hlen herr hn => ?mode2⟩⟩
  case opening =>
    refine (exec_evInstr hq hseq .openEv).trans (congrArg _ ?_)
    rw [transition, onOpen_idle hidle, (beginMotion_cases hq (.inl rfl)).2 hn]
  case closing =>
    refine (exec_evInstr hq hseq .closeEv).trans (congrArg _ ?_)
    rw [transition, onClose_eq, (beginMotion_cases hq (.inr rfl)).2 hn]
  case load =>
    refine (exec_evInstr hq hseq .sample).trans (congrArg _ ?_)
    rw [transition, onSample_moving hmoving, (readLoadSample_cases hq).2 hn]
  case emergency =>
    refine (exec_evInstr hq hseq .deadline).trans (congrArg _ ?_)
    rw [transition, onDeadline_moving hmoving, (enterEmergency_cases hq).2 hn]
  case stall =>
    rw [exec_pktStatus_continues hq hseq hcnt, hcont, continueWith,
      contSample_missing hexp hrd (s := { s with codec := { s.codec with seq := .idle } }) hq rfl husable
        hover hlast hn]
    exact congrArg _ (dispatch_stuck rfl)
  case mode2 =>
    rw [exec_pktStatus_continues hq hseq hcnt, hcont, continueWith,
      dispatch_contMode2 (replyResult_not_failed (hlen.trans hexp.symm) herr)]
    exact congrArg _ (hostWrite_missing (s := { s with codec := { s.codec with seq := .idle } }) hq hn)

end Sys2Proof.Machine

/-! # The Codec statements: the checksum law, the primitive commands, `SET_MODE_CONT`, the continuations and
the settle interval (`41_codec_primitives.md`) -/

namespace Sys2Proof.Machine

/-! ## The checksum -/

theorem sum8_cons (b : Byte) (bs : List Byte) : sum8 (b :: bs) = (b.toNat + sum8 bs) % 256 := by
  simp [sum8]

/-- R153: the checksum complements the sum to 0xFF. -/
theorem sum8_append_checksum (bs : List Byte) : sum8 (bs ++ [checksum bs]) = 0xFF := by
  simp only [sum8, checksum, List.map_append, List.map_cons, List.map_nil, List.sum_append,
    List.sum_cons, List.sum_nil, BitVec.toNat_ofNat]
  omega

/-- Settles O7: two sync bytes add 0xFF each. -/
theorem checksumLaw : Obligations.ChecksumLaw := by
  intro bs
  refine ⟨sum8_append_checksum bs, ?_⟩
  rw [sum8_cons, sum8_cons, sum8_append_checksum]
  rfl

/-! ## The primitive commands -/

/-- In a block at rest a command that `refusalOf` does not refuse follows its rule (R98). -/
theorem command_of_not_refused {i : Instr} {s : State} (hrest : s.AtRest)
    (hpass : refusalOf s.cfg i = none) (body : State → State) :
    command (acceptanceTests s.cfg i) body s = .next (body s) :=
  command_accepted_of_live hrest.not_stuck hrest.not_busy (refusalOf_eq s.cfg i ▸ hpass)

/-- A count in range does not fail the length test of R98 (4). -/
theorem count_in_range {p : Params} {n : Byte} (hlow : 1 ≤ n.toNat) (hhigh : n.toNat ≤ p.maxp) :
    ¬ (n = 0 ∨ p.maxp < n.toNat) := by
  rintro (rfl | hlong)
  · exact absurd hlow (by decide)
  · omega

/-- Settles O19: operands in range pass every test, and the rule is the host write of either opcode. -/
theorem writeCommands : Obligations.WriteCommands := by
  intro s id addr n data hrest hevq hid hlow hhigh _ hp
  have hpass : refusalOf s.cfg (.cWrite id addr n data) = none :=
    (if_neg hid).trans (if_neg (count_in_range hlow hhigh))
  have hwritten (op : Byte) : command [identTest id, lenTest s.cfg n] (hostWrite op id addr data) s =
      .next (hostWritten op id (addr :: data) s) := by
    rw [← hostWrite_rest hrest hevq hp]
    exact command_of_not_refused hrest hpass _
  exact ⟨hwritten opWrite, hwritten opRegwrite⟩

/-- Settles O20: operands in range pass every test, and the rule is the host read. -/
theorem readCommand : Obligations.ReadCommand := by
  intro s id addr n hrest hid huni hlow hhigh hp
  have hpass : refusalOf s.cfg (.cRead id addr n) = none :=
    (if_neg (not_or.mpr ⟨hid, huni⟩)).trans (if_neg (count_in_range hlow hhigh))
  refine (command_of_not_refused hrest hpass (hostRead id addr n)).trans ?_
  rw [hostRead_rest hrest hp]
  rfl

/-- A host transaction that waits for no reply, with nothing pending, responds at once (R159). -/
theorem beginTxn_noWait {id op : Byte} {ps : List Byte} {rn : Nat} {s : State} (hq : s.link.Quiet)
    (hevq : s.sup.evq = []) (hp : EchoPresent (ps.length + 6) s) :
    beginTxn (complete .host) id op ps rn false .host s = answered .noWait 0x00 []
      (echoesMatch (frame id op ps) s.ports.echoes) false (afterFrame (frame id op ps) s) := by
  rw [beginTxn_quiet hq hp, if_neg Bool.false_ne_true, ← respond_noWait]
  exact dispatch_nil (s := respond _ _) hevq

/-- Settles O21: the trigger is a transaction that never waits. -/
theorem actionCommand : Obligations.ActionCommand := by
  intro s id hrest hevq hid hp
  refine (command_of_not_refused (i := .cAction id) hrest (if_neg hid) _).trans ?_
  rw [beginTxn_noWait (ps := []) hrest.quiet hevq hp]
  rfl

/-! ## `SET_MODE_CONT` -/

/-- Every target but broadcast has a reply to wait for (R159). -/
theorem waits_of_unicast {id : Byte} (huni : id ≠ 0xFE) : (id != broadcastId) = true :=
  bne_iff_ne.mpr huni

/-- The first write to a unicast target, with `host_id` named (R196). -/
theorem beginModeCont_unicast_quiet {id : Byte} {s : State} (hq : s.link.Quiet) (huni : id ≠ 0xFE)
    (hp : EchoPresent 9 s) :
    beginModeCont id s =
      afterWait (frame id opWrite [s.cfg.aCwLimit, 0x00, 0x00]) 0 .hostMode2 (setHostId id s) := by
  rw [beginModeCont,
    beginTxn_quiet (ps := [s.cfg.aCwLimit, 0x00, 0x00]) (s := setHostId id s) hq hp,
    if_pos (waits_of_unicast huni), settleFor_afterFrame]

/-- To broadcast the second write follows the first at once, and it alone is answered (R159, R196). -/
theorem beginModeCont_broadcast_quiet {s : State} (hrest : s.AtRest) (hevq : s.sup.evq = [])
    (hp : EchoPresent 18 s) :
    beginModeCont 0xFE s = hostWritten opWrite 0xFE [s.cfg.aCcwLimit, 0x00, 0x00]
      (afterFrame (frame 0xFE opWrite [s.cfg.aCwLimit, 0x00, 0x00]) (setHostId 0xFE s)) := by
  obtain ⟨hfirst, hsecond⟩ := (echoPresent_add (frame 0xFE opWrite [s.cfg.aCwLimit, 0x00, 0x00]) 9
    (setHostId 0xFE s)).mp hp
  have hrest' : (afterFrame (frame 0xFE opWrite [s.cfg.aCwLimit, 0x00, 0x00])
      (setHostId 0xFE s)).AtRest := ⟨hrest.quiet, hrest.seq, hrest.motion⟩
  rw [beginModeCont, beginTxn_quiet (ps := [s.cfg.aCwLimit, 0x00, 0x00]) (s := setHostId 0xFE s)
    hrest.quiet hfirst]
  exact (dispatch_contMode2 rfl _).trans (hostWrite_rest hrest' hevq hsecond)

/-- Settles O25: the first write alone to a unicast target, both writes to broadcast. -/
theorem modeContBegins : Obligations.ModeContBegins := by
  intro s id hrest hevq
  have hbegins (hid : id ≠ 0xFF) : exec (.setModeCont id) s = .next (beginModeCont id s) :=
    exec_setModeCont_accepted hrest.not_stuck hrest.not_busy hid
  refine ⟨fun hid huni hp => ?unicast, fun hbroadcast hp => ?broadcast⟩
  case unicast =>
    rw [hbegins hid, beginModeCont_unicast_quiet hrest.quiet huni hp]
    rfl
  case broadcast =>
    subst hbroadcast
    rw [hbegins (by decide), beginModeCont_broadcast_quiet hrest hevq hp, hostWritten, if_pos rfl]
    rfl

/-- A host write to a unicast target on a quiet line begins its settle interval (R159, R168). -/
theorem hostWrite_unicast_quiet {op id addr : Byte} {data : List Byte} {s : State} (hq : s.link.Quiet)
    (huni : id ≠ 0xFE) (hp : EchoPresent (data.length + 7) s) :
    hostWrite op id addr data s = afterWait (frame id op (addr :: data)) 0 .host s := by
  rw [hostWrite, beginTxn_quiet (ps := addr :: data) hq hp, if_pos (waits_of_unicast huni),
    settleFor_afterFrame]

/-- A failed first write is the response, and nothing more is sent (R196). -/
theorem contMode2_failed {r : Result} (hr : r.failed = true) (s : State) :
    contMode2 r s = respond r s := if_pos hr

/-- A reply with an error byte stops `SET_MODE_CONT` (R196). -/
theorem replyResult_failed {c : Codec} {r : List Byte} (hlen : r.length = c.expN)
    (herr : r.getD 4 0 ≠ 0) : (replyResult c r).failed = true := by
  have hbyte : byteAt r 4 ≠ 0 := herr
  rw [replyResult_full hlen]
  simpa [Result.failed, decodeReply] using hbyte

/-- Settles O29: a first write that did not fail is followed by the second, a failed one is answered. -/
theorem modeContContinues : Obligations.ModeContContinues := by
  intro s r hq hseq hcnt hcont hexp hrd
  rw [exec_pktStatus_continues hq hseq hcnt, hcont, continueWith]
  refine ⟨fun hlen herr huni hp => congrArg _ ?second, fun hlen herr => ?error, fun hlen => ?missing⟩
  case second =>
    rw [dispatch_contMode2 (replyResult_not_failed (hlen.trans hexp.symm) herr)]
    exact hostWrite_unicast_quiet (s := { s with codec := { s.codec with seq := .idle } }) hq huni hp
  case error =>
    have hfull : r.length = s.codec.expN := hlen.trans hexp.symm
    rw [contMode2_failed (replyResult_failed hfull herr),
      respond_fullReply (by rw [hexp, hrd]) hfull, hexp, hrd, Nat.min_zero, List.take_zero]
  case missing =>
    rw [replyResult_short (hlen.trans_eq hexp.symm), contMode2_failed rfl, respond_noReply]

/-! ## The continuations of the Controller -/

/-- Settles O30: each of the three continuations is one update that reads no result. -/
theorem blindContinuations : Obligations.BlindContinuations := by
  intro s r hq hseq hcnt
  rw [exec_pktStatus_continues hq hseq hcnt]
  refine ⟨fun hcont => ?start, fun hcont => ?stop, fun hcont => ?emerg⟩
  case start => rw [hcont]; rfl
  case stop => rw [hcont]; rfl
  case emerg => rw [hcont]; rfl

/-- Settles O31: the four cases of `contSample_cases`, and nothing is dispatched behind the frame of a
confirmed stall. -/
theorem sampleContinues : Obligations.SampleContinues := by
  intro s r hq hseq hcnt hcont hexp hrd _ hvalid idled
  have hcases (hlen : r.length ≤ 8) :=
    contSample_cases (c := s.codec) (r := r) (s := idled) hrd hexp hlen hvalid hq rfl
  rw [exec_pktStatus_continues hq hseq hcnt, hcont, continueWith]
  refine ⟨fun hlen hun => ?unusable, fun husable hwithin => ?within,
    fun husable hover hmore => ?counted, fun husable hover hlast hp => ?stall⟩
  case unusable =>
    rcases hcases hlen with ⟨-, heq⟩ | ⟨husable, -⟩ | ⟨husable, -⟩ | ⟨husable, -⟩
    · rw [heq]
    all_goals exact absurd husable hun
  case within =>
    rcases hcases husable.1.le with ⟨hun, -⟩ | ⟨-, -, heq⟩ | ⟨-, hover, -⟩ | ⟨-, hover, -⟩
    · exact absurd husable hun
    · rw [heq]
    all_goals exact absurd hover hwithin
  case counted =>
    rcases hcases husable.1.le with ⟨hun, -⟩ | ⟨-, hwithin, -⟩ | ⟨-, -, -, heq⟩ | ⟨-, -, hlast, -⟩
    · exact absurd husable hun
    · exact absurd hover hwithin
    · rw [heq]
    · exact absurd hlast hmore
  case stall =>
    rcases hcases husable.1.le with ⟨hun, -⟩ | ⟨-, hwithin, -⟩ | ⟨-, -, hmore, -⟩ | ⟨-, -, -, heq, -⟩
    · exact absurd husable hun
    · exact absurd hover hwithin
    · exact absurd hlast hmore
    · rw [heq hp]
      exact congrArg _ (dispatch_settle rfl)

/-! ## The tick -/

/-- A tick of a block that is not stuck: the counts, the settle interval, `dispatch` (R230). -/
theorem exec_tick {s : State} (h : s.stuck = false) :
    exec .tick s = .next (dispatch (settlePart (counted s))) := by
  rw [← countParts_counted]
  exact live_of_not_stuck h tickEvent

/-- With no transaction in flight part (d) of a tick does nothing (R230). -/
theorem settlePart_idle {s : State} (h : s.codec.seq = .idle) : settlePart s = s :=
  if_neg (by simp [h])

/-- Before its last tick the settle interval is only counted (R161). -/
theorem settlePart_counts {s : State} (h : s.codec.seq = .settle) (hcnt : 2 ≤ s.codec.settleCnt) :
    settlePart s = countSettle s := by
  have hmore : (countSettle s).codec.settleCnt ≠ 0 := by
    simp only [countSettle_codec_settleCnt]
    omega
  rw [settlePart, if_pos h, if_neg hmore]

/-- The last tick of the settle interval takes the bytes expected, or as many as the queue holds, as the
reply (R161, R162). -/
theorem settlePart_ends {s : State} {bs : List Byte} (h : s.codec.seq = .settle)
    (hcnt : s.codec.settleCnt = 1) (hb : s.link.Holds s.cfg.rxqDepth bs) :
    settlePart s = finishTxn (bs.take s.codec.expN)
      { countSettle s with link := (s.link.takeBytes s.cfg.rxqDepth s.codec.expN).2 } := by
  have hlast : (countSettle s).codec.settleCnt = 0 := by
    rw [countSettle_codec_settleCnt, hcnt]
  rw [settlePart, if_pos h, if_pos hlast, ← (hb.takeBytes s.codec.expN).1]
  rfl

/-- What a tick inside a settle interval leaves: the counts moved, one tick of the interval less. -/
def settleTicked (s : State) : State :=
  { counted s with codec := { s.codec with settleCnt := s.codec.settleCnt - 1 } }

/-- A tick inside a settle interval dispatches nothing (R161, R234). -/
theorem exec_tick_settle {s : State} (hns : s.stuck = false) (hseq : s.codec.seq = .settle)
    (hcnt : 2 ≤ s.codec.settleCnt) : exec .tick s = .next (settleTicked s) := by
  rw [exec_tick hns, settlePart_counts (s := counted s) hseq hcnt]
  exact congrArg _ (dispatch_settle hseq)

theorem counted_evq_nil {s : State} (hevq : s.sup.evq = []) (hnone : tickEvents s = []) :
    (counted s).sup.evq = [] := by
  rw [counted, hevq, hnone]
  rfl

/-- Settles O34: the counts as one update, and part (d) by whether a transaction is in flight. -/
theorem tickCounts : Obligations.TickCounts := by
  intro s hns
  have hidle (hseq : s.codec.seq = .idle) : exec .tick s = .next (dispatch (counted s)) := by
    rw [exec_tick hns, settlePart_idle (s := counted s) hseq]
  refine ⟨fun hseq hcnt => exec_tick_settle hns hseq hcnt, hidle, fun hseq hevq hnone => ?_⟩
  rw [hidle hseq, dispatch_nil (counted_evq_nil hevq hnone)]

/-- Settles O35: the link is what the collection leaves, the reply what it obtains. -/
theorem tickTakesReply : Obligations.TickTakesReply := by
  intro s bs hns hseq hcnt hb
  obtain ⟨hbaud, hirq, hdir, hbuf, hwr⟩ :=
    Link.takeBytes_frame s.cfg.rxqDepth s.codec.expN s.link
  have hns' : State.stuck { counted s with
      link := (s.link.takeBytes s.cfg.rxqDepth s.codec.expN).2
      codec := { s.codec with settleCnt := 0 } } = false := by
    rw [← hns, State.stuck, State.stuck, hdir]
  refine ⟨_, _, (hb.takeBytes s.codec.expN).2, hbaud, hirq, hdir, hbuf, hwr,
    execPktStatus_turn hns' hseq rfl, ?_⟩
  rw [exec_tick hns, settlePart_ends (s := counted s) hseq hcnt hb, countSettle,
    show (counted s).codec = s.codec from rfl, hcnt]
  rfl

/-! ## The settle interval as a whole -/

/-- `t` is in the settle interval of `s`, `k` ticks later: the counts of the timers and the buttons aside, the
ticks have only taken `k` off `settle_cnt` (R161). -/
structure TicksLater (k : Nat) (s t : State) : Prop where
  cfg : t.cfg = s.cfg
  link : t.link = s.link
  seq : t.codec.seq = s.codec.seq
  settleCnt : t.codec.settleCnt = s.codec.settleCnt - k
  expN : t.codec.expN = s.codec.expN
  cont : t.codec.cont = s.codec.cont
  rsp : t.rsp = s.rsp
  motion : t.act.motion = s.act.motion
  ports : t.ports = s.ports

theorem TicksLater.succ {k : Nat} {s t : State} (h : TicksLater k s t) :
    TicksLater (k + 1) s (settleTicked t) where
  cfg := h.cfg
  link := h.link
  seq := h.seq
  settleCnt := congrArg (· - 1) h.settleCnt
  expN := h.expN
  cont := h.cont
  rsp := h.rsp
  motion := h.motion
  ports := h.ports

theorem ticksLater_iterate (s : State) (k : Nat) : TicksLater k s (settleTicked^[k] s) := by
  induction k with
  | zero => constructor <;> rfl
  | succ k ih =>
    rw [Function.iterate_succ_apply']
    exact ih.succ

/-- Events after ticks that all lie inside the settle interval (R161). -/
theorem afterEvents_ticks (is : List Instr) (k : Nat) : ∀ {s : State}, s.stuck = false →
    s.codec.seq = .settle → k < s.codec.settleCnt →
    afterEvents (List.replicate k .tick ++ is) s = afterEvents is (settleTicked^[k] s) := by
  induction k with
  | zero => exact fun _ _ _ => rfl
  | succ k ih =>
    intro s hns hseq hk
    have hleft : k < (settleTicked s).codec.settleCnt := Nat.lt_sub_of_add_lt hk
    rw [Function.iterate_succ_apply, ← ih (s := settleTicked s) hns hseq hleft, List.replicate_succ,
      List.cons_append, afterEvents, exec_tick_settle hns hseq (by omega)]
    exact congrArg (afterEvents _) (dispatch_settle (s := settleTicked s) hseq)

/-! ### The response behind a `dispatch` -/

/-- `t` shows the response that `s` shows (R101). -/
structure KeepsResponse (s t : State) : Prop where
  rsp : t.rsp = s.rsp
  rspValid : t.ports.rspValid = s.ports.rspValid

theorem KeepsResponse.trans {s t u : State} (h : KeepsResponse s t) (g : KeepsResponse t u) :
    KeepsResponse s u := ⟨g.rsp.trans h.rsp, g.rspValid.trans h.rspValid⟩

theorem beginWait_keepsResponse (id op : Byte) (ps : List Byte) (rn : Nat) (k : Cont) (s : State) :
    KeepsResponse s (beginWait id op ps rn k s) := by
  have hsend := sendFrame_keeps id op ps s
  unfold beginWait
  split <;> exact ⟨hsend.rsp, hsend.rspValid⟩

/-- What a transition can do: nothing, or begin a transaction, having written neither the response nor an
output (R235). -/
theorem transition_cases (e : CtrlEv) (s : State) : transition e s = s ∨
    ∃ id op ps rn k u, transition e s = beginWait id op ps rn k u ∧ u.rsp = s.rsp ∧
      u.ports = s.ports := by
  cases e with
  | deadline =>
    unfold transition onDeadline
    cases s.act.motion with
    | idle | emergency => exact .inl rfl
    | opening | closing => exact .inr ⟨_, _, _, _, _, _, rfl, rfl, rfl⟩
  | closeEv => exact .inr ⟨_, _, _, _, _, _, onClose_eq s, rfl, rfl⟩
  | openEv =>
    unfold transition onOpen
    cases s.act.motion with
    | idle => exact .inr ⟨_, _, _, _, _, _, rfl, rfl, rfl⟩
    | opening | closing | emergency => exact .inl rfl
  | sample =>
    unfold transition onSample
    cases s.act.motion with
    | idle | emergency => exact .inl rfl
    | opening | closing => exact .inr ⟨_, _, _, _, _, _, rfl, rfl, rfl⟩

theorem transition_keepsResponse (e : CtrlEv) (s : State) : KeepsResponse s (transition e s) := by
  rcases transition_cases e s with heq | ⟨id, op, ps, rn, k, u, heq, hrsp, hports⟩
  · rw [heq]
    exact ⟨rfl, rfl⟩
  · rw [heq]
    have hset : KeepsResponse s u := ⟨hrsp, congrArg Ports.rspValid hports⟩
    exact hset.trans (beginWait_keepsResponse id op ps rn k u)

theorem dispatch_keepsResponse (s : State) : KeepsResponse s (dispatch s) := by
  refine dispatch_induct (P := KeepsResponse s) (fun t e _ _ ht => ?_) s ⟨rfl, rfl⟩
  have hdrop : KeepsResponse t (dropEvent e t) := ⟨rfl, rfl⟩
  exact (ht.trans hdrop).trans (transition_keepsResponse e _)

/-- The last tick of a host transaction's settle interval ends in its response (R161, R162, R166). -/
theorem exec_tick_host {s : State} {bs : List Byte} (hq : s.link.Quiet)
    (hseq : s.codec.seq = .settle) (hcnt : s.codec.settleCnt = 1) (hcont : s.codec.cont = .host)
    (hb : s.link.Holds s.cfg.rxqDepth bs) :
    ∃ t, exec .tick s = .next t ∧ t.ports.rspValid = true ∧
      t.rsp.status = if bs.length < s.codec.expN then .noReply else .reply := by
  obtain ⟨l, t, -, -, hirq, hdir, hbuf, -, hreply, htick⟩ :=
    tickTakesReply s bs hq.not_stuck hseq hcnt hb
  have hquiet : l.Quiet := ⟨hirq.trans hq.irqEn, hdir.trans hq.lineDir, hbuf.trans hq.hwRx⟩
  rw [execPktStatus_host (s := { counted s with link := l, codec := { s.codec with settleCnt := 0 } })
    hquiet hseq rfl hcont] at hreply
  obtain rfl := Host.Outcome.next.inj hreply
  obtain ⟨hrsp, hvalid⟩ := dispatch_keepsResponse (respond
    (replyResult { s.codec with settleCnt := 0 } (bs.take s.codec.expN))
    { counted s with link := l, codec := { s.codec with seq := .idle, settleCnt := 0 } })
  refine ⟨_, htick, ?_, ?_⟩
  · rw [dispatch_dispatch]
    exact hvalid
  · rw [dispatch_dispatch]
    refine (congrArg Latch.status hrsp).trans ?_
    rw [respond_rsp_status, replyResult_status, List.length_take]
    by_cases hshort : bs.length < s.codec.expN
    · rw [if_pos hshort, if_neg (by simp only; omega)]
    · rw [if_neg hshort, if_pos (by simp only; omega)]

/-- Settles O36: the ticks before the last by induction on their number, the last by the reply it takes. -/
theorem settleIntervalExact : Obligations.SettleIntervalExact := by
  intro s bs hq hb hseq hcnt
  refine ⟨fun k hk => ?inFlight, fun hcont => ?ended⟩
  case inFlight =>
    have hticks := afterEvents_ticks [] k hq.not_stuck hseq hk
    rw [List.append_nil] at hticks
    have hlater := ticksLater_iterate s k
    rw [hticks]
    exact ⟨hlater.seq.trans hseq, hlater.settleCnt, hlater.link, hlater.rsp, hlater.ports, hlater.motion⟩
  case ended =>
    obtain ⟨n, hn⟩ : ∃ n, s.codec.settleCnt = n + 1 := ⟨_, (Nat.sub_add_cancel hcnt).symm⟩
    have hlater := ticksLater_iterate s n
    obtain ⟨t, htick, hvalid, hstatus⟩ := exec_tick_host (s := settleTicked^[n] s) (bs := bs)
      (hlater.link ▸ hq) (hlater.seq.trans hseq) (hlater.settleCnt.trans (by omega))
      (hlater.cont.trans hcont) (by rw [hlater.link, hlater.cfg]; exact hb)
    obtain ⟨hrsp, hkept⟩ := dispatch_keepsResponse t
    rw [hn, List.replicate_succ', afterEvents_ticks [.tick] n hq.not_stuck hseq (by omega),
      afterEvents, htick]
    rw [hlater.expN] at hstatus
    exact ⟨hkept.trans hvalid, (congrArg Latch.status hrsp).trans hstatus⟩

end Sys2Proof.Machine

/-! # The derived commands and the numeric conversions (`42_codec_derived.md`) -/

namespace Sys2Proof.Machine

/-! ## The derived commands -/

/-- A command that is not refused and whose rule is the write of an address parameter (R190 to R195). -/
theorem command_hostWrite {i : Instr} {s : State} {id : Byte} {data : List Byte} (addr : Params → Byte)
    (hrest : s.AtRest) (hevq : s.sup.evq = []) (hpass : refusalOf s.cfg i = none)
    (hp : EchoPresent (data.length + 7) s) :
    command (acceptanceTests s.cfg i) (fun s => hostWrite opWrite id (addr s.cfg) data s) s =
      .next (hostWritten opWrite id (addr s.cfg :: data) s) := by
  rw [command_of_not_refused hrest hpass, hostWrite_rest hrest hevq hp]

/-- Settles O22: each operand in range passes its test, and the rule is the write of the address parameter. -/
theorem derivedWrites : Obligations.DerivedWrites := by
  intro s id hrest hevq hid
  have hpass {limit x : Nat} (hx : x ≤ limit) : (if id = 0xFF then some Reason.ident
      else if limit < x then some .operand else none) = none :=
    (if_neg hid).trans (if_neg (Nat.not_lt.mpr hx))
  refine ⟨fun e he hp => ?torqueEn, fun d0 d1 hd hp => ?setSpeed, fun d0 d1 hd hp => ?setCwLimit,
    fun d0 d1 hd hp => ?setCcwLimit, fun newId hp => ?setId, fun code hp => ?setBaudcode⟩
  case torqueEn =>
    exact command_hostWrite (i := .torqueEn id e) (data := [e]) Params.aTorqueEn hrest hevq (hpass he) hp
  case setSpeed =>
    exact command_hostWrite (i := .setSpeed id d0 d1) (data := [d0, d1]) Params.aSpeed hrest hevq
      (hpass hd) hp
  case setCwLimit =>
    exact command_hostWrite (i := .setCwLimit id d0 d1) (data := [d0, d1]) Params.aCwLimit hrest hevq
      (hpass hd) hp
  case setCcwLimit =>
    exact command_hostWrite (i := .setCcwLimit id d0 d1) (data := [d0, d1]) Params.aCcwLimit hrest hevq
      (hpass hd) hp
  case setId =>
    exact command_hostWrite (i := .setId id newId) (data := [newId]) Params.aId hrest hevq (if_neg hid) hp
  case setBaudcode =>
    exact command_hostWrite (i := .setBaudcode id code) (data := [code]) Params.aBaud hrest hevq
      (if_neg hid) hp

/-- A command that is not refused and whose rule is the read of a count at an address parameter (R197 to
R199). -/
theorem command_hostRead {i : Instr} {s : State} {id : Byte} (addr count : Params → Byte)
    (hrest : s.AtRest) (hpass : refusalOf s.cfg i = none) (hp : EchoPresent 8 s) :
    command (acceptanceTests s.cfg i) (fun s => hostRead id (addr s.cfg) (count s.cfg) s) s =
      .next (afterWait (frame id opRead [addr s.cfg, count s.cfg]) (count s.cfg).toNat .host s) := by
  rw [command_of_not_refused hrest hpass, hostRead_rest hrest hp]

/-- Settles O23: a unicast target passes both tests, and the rule is the read of the address parameter. -/
theorem derivedReads : Obligations.DerivedReads := by
  intro s id hrest hid huni hp
  have hpass : (if id = 0xFF ∨ id = 0xFE then some Reason.ident else none) = none :=
    if_neg (not_or.mpr ⟨hid, huni⟩)
  exact ⟨command_hostRead (i := .readLoad id) Params.aLoad (fun _ => 2) hrest hpass hp,
    command_hostRead (i := .readTemp id) Params.aTemp Params.nTemp hrest hpass hp,
    command_hostRead (i := .readVolt id) Params.aVolt Params.nVolt hrest hpass hp⟩

/-! ## The speed word -/

/-- Saturation as the lattice operations of the rationals (R205). -/
theorem clampQ_eq {lo hi : ℚ} (h : lo ≤ hi) (v : ℚ) : clampQ v lo hi = max lo (min v hi) := by
  unfold clampQ
  split_ifs with hlow hhigh
  · rw [min_eq_left (hlow.le.trans h), max_eq_left hlow.le]
  · rw [min_eq_right hhigh.le, max_eq_right h]
  · rw [min_eq_left (not_lt.mp hhigh), max_eq_right (not_lt.mp hlow)]

theorem clampQ_of_mem {v lo hi : ℚ} (hlow : lo ≤ v) (hhigh : v ≤ hi) : clampQ v lo hi = v := by
  rw [clampQ_eq (hlow.trans hhigh), min_eq_left hhigh, max_eq_right hlow]

theorem clampQ_of_le {v lo hi : ℚ} (h : lo ≤ hi) (hlow : v ≤ lo) : clampQ v lo hi = lo := by
  rw [clampQ_eq h, min_eq_left (hlow.trans h), max_eq_left hlow]

theorem clampQ_of_ge {v lo hi : ℚ} (h : lo ≤ hi) (hhigh : hi ≤ v) : clampQ v lo hi = hi := by
  rw [clampQ_eq h, min_eq_right hhigh, max_eq_right h]

theorem abs_clampQ_le_one (v : ℚ) : |clampQ v (-1) 1| ≤ 1 := by
  rw [clampQ_eq (by norm_num), abs_le]
  exact ⟨le_max_left _ _, max_le (by norm_num) (min_le_right _ _)⟩

theorem speedMag_eq_floor (v : ℚ) : speedMag v = ⌊1023 * |clampQ v (-1) 1|⌋₊ := Int.floor_toNat _

/-- The magnitude fits its ten bits (R92, R206). -/
theorem speedMag_le (v : ℚ) : speedMag v ≤ 1023 := by
  rw [speedMag_eq_floor]
  refine Nat.floor_le_of_le ?_
  push_cast
  linarith [abs_clampQ_le_one v]

/-- Truncation loses less than one quantization step of the magnitude, and never adds to it (R206). -/
theorem speedMag_bounds (v : ℚ) : (speedMag v : ℚ) / 1023 ≤ |clampQ v (-1) 1| ∧
    |clampQ v (-1) 1| < speedMag v / 1023 + 1 / 1023 := by
  have hlow := Nat.floor_le (a := 1023 * |clampQ v (-1) 1|) (by positivity)
  have hhigh := Nat.lt_floor_add_one (1023 * |clampQ v (-1) 1|)
  rw [← speedMag_eq_floor] at hlow hhigh
  constructor <;> linarith

/-- The word is its number: nothing wraps (R206). -/
theorem encSpeed_toNat (v : ℚ) :
    (encSpeed v).toNat = (if speedDir v then 1024 else 0) + speedMag v := by
  have hmag := speedMag_le v
  rw [encSpeed, BitVec.toNat_ofNat, Nat.mod_eq_of_lt]
  split <;> omega

/-- The direction bit of the word is the direction (R92, R206). -/
theorem dirOf_encSpeed (v : ℚ) : dirOf (encSpeed v) = speedDir v := by
  have hmag := speedMag_le v
  rw [dirOf, BitVec.getLsbD, encSpeed_toNat, Nat.testBit_eq_decide_div_mod_eq]
  cases speedDir v <;> simp <;> omega

/-- The ten low bits of the word are the magnitude (R92, R206). -/
theorem magOf_encSpeed (v : ℚ) : (magOf (encSpeed v)).toNat = speedMag v := by
  have hmag := speedMag_le v
  rw [magOf, BitVec.extractLsb'_toNat, Nat.shiftRight_zero, encSpeed_toNat]
  split <;> omega

theorem speedDir_iff (v : ℚ) : speedDir v = true ↔ clampQ v (-1) 1 < 0 := decide_eq_true_iff

/-- A word decoded after its encoding has the sign of the clamped speed and the truncated magnitude. -/
theorem decWord_encSpeed (v : ℚ) : decWord (encSpeed v) =
    if clampQ v (-1) 1 < 0 then -(speedMag v / 1023 : ℚ) else (speedMag v / 1023 : ℚ) := by
  rw [decWord, dirOf_encSpeed, magOf_encSpeed]
  exact if_congr (speedDir_iff v) rfl rfl

/-- Encoding and decoding recover the clamped speed within one quantization step. -/
theorem abs_decWord_encSpeed_sub_lt (v : ℚ) :
    |decWord (encSpeed v) - clampQ v (-1) 1| < 1 / 1023 := by
  obtain ⟨hlow, hhigh⟩ := speedMag_bounds v
  rw [decWord_encSpeed, abs_lt]
  split_ifs with hneg
  · rw [abs_of_neg hneg] at hlow hhigh
    constructor <;> linarith
  · rw [abs_of_nonneg (not_lt.mp hneg)] at hlow hhigh
    constructor <;> linarith

/-- Settles O55: a speed in range is its own clamped value. -/
theorem speedRoundTrip : Obligations.SpeedRoundTrip := by
  intro v hlow hhigh
  have hclamp : clampQ v (-1) 1 = v := clampQ_of_mem hlow hhigh
  have hclose := abs_decWord_encSpeed_sub_lt v
  have hdir : dirOf (encSpeed v) = true ↔ clampQ v (-1) 1 < 0 := dirOf_encSpeed v ▸ speedDir_iff v
  rw [hclamp] at hclose hdir
  exact ⟨hclose, hdir⟩

/-! ## Saturation and the angle conversions -/

/-- Full speed has all ten magnitude bits set, in either direction (R206). -/
theorem speedMag_of_abs_eq_one {v : ℚ} (h : |clampQ v (-1) 1| = 1) : speedMag v = 1023 := by
  rw [speedMag_eq_floor, h, mul_one]
  exact Nat.floor_natCast 1023

theorem encSpeed_of_one_le {v : ℚ} (h : 1 ≤ v) : encSpeed v = 0x03FF := by
  have hclamp : clampQ v (-1) 1 = 1 := clampQ_of_ge (by norm_num) h
  rw [encSpeed, speedDir, speedMag_of_abs_eq_one (by simp [hclamp]), hclamp]
  rfl

theorem encSpeed_of_le_neg_one {v : ℚ} (h : v ≤ -1) : encSpeed v = 0x07FF := by
  have hclamp : clampQ v (-1) 1 = -1 := clampQ_of_le (by norm_num) h
  rw [encSpeed, speedDir, speedMag_of_abs_eq_one (by simp [hclamp]), hclamp]
  rfl

/-- No bit above the direction bit is set (R206). -/
theorem encSpeed_toNat_le (v : ℚ) : (encSpeed v).toNat ≤ 0x07FF := by
  have hmag := speedMag_le v
  rw [encSpeed_toNat]
  split <;> omega

/-- The formula of R208 is Mathlib's `round` of the exact value. -/
theorem degToUnits_eq_round (d : ℚ) : (degToUnits d : ℤ) = round (1023 * clampQ d 0 300 / 300) := by
  have hclamp : 0 ≤ clampQ d 0 300 := by
    rw [clampQ_eq (by norm_num)]
    exact le_max_left _ _
  rw [degToUnits, Int.toNat_of_nonneg (Int.floor_nonneg.mpr (by positivity)), round_eq]

/-- An angle in range is rounded to a nearest unit (R208). -/
theorem abs_degToUnits_sub_le {d : ℚ} (hlow : 0 ≤ d) (hhigh : d ≤ 300) :
    |(degToUnits d : ℚ) - 1023 * d / 300| ≤ 1 / 2 := by
  have hround := degToUnits_eq_round d
  rw [clampQ_of_mem hlow hhigh] at hround
  rw [← Int.cast_natCast, hround, abs_sub_comm]
  exact abs_sub_round _

theorem degToUnits_of_le_zero {d : ℚ} (h : d ≤ 0) : degToUnits d = 0 := by
  have hround := degToUnits_eq_round d
  rw [clampQ_of_le (by norm_num) h] at hround
  simpa using hround

theorem degToUnits_of_ge {d : ℚ} (h : 300 ≤ d) : degToUnits d = 1023 := by
  have hround := degToUnits_eq_round d
  have hexact : (1023 * 300 / 300 : ℚ) = (1023 : ℤ) := by norm_num
  rw [clampQ_of_ge (by norm_num) h, hexact, round_intCast] at hround
  exact_mod_cast hround

/-- The integer division of R209 is the floor of the exact value. -/
theorem unitsToDeg_eq_floor (u : Nat) : unitsToDeg u = ⌊(300 * u / 1023 : ℚ)⌋₊ := by
  have hfloor := Nat.floor_div_eq_div (K := ℚ) (300 * u) 1023
  push_cast at hfloor
  exact hfloor.symm

theorem unitsToDeg_le {u : Nat} (h : u ≤ 1023) : unitsToDeg u ≤ 300 := by
  unfold unitsToDeg
  omega

/-- Settles O57: the ends by the clamped value, the angle by `round`, the unit by the floor. -/
theorem conversionsSaturate : Obligations.ConversionsSaturate := by
  refine ⟨fun _ => encSpeed_of_one_le, fun _ => encSpeed_of_le_neg_one, encSpeed_toNat_le,
    fun _ => abs_degToUnits_sub_le, fun _ => degToUnits_of_le_zero, fun _ => degToUnits_of_ge,
    fun u hu => ⟨?below, ?above, unitsToDeg_le hu⟩⟩
  case below => rw [unitsToDeg_eq_floor]; exact Nat.floor_le (by positivity)
  case above => rw [unitsToDeg_eq_floor]; exact Nat.lt_floor_add_one _

end Sys2Proof.Machine

/-! # The Controller statements: the buttons, the controller events, the load samples and the deadline
(`43_controller.md`) -/

namespace Sys2Proof.Machine

/-! ## The buttons -/

theorem Button.press_held {b : Button} (h : b.held = true) (hold : Nat) :
    b.press hold = b ∧ b.pressQualifies hold = false := by
  simp [Button.press, Button.pressQualifies, h]

/-- A press of a button not held is noted, and qualifies at once exactly when there is no threshold (R222). -/
theorem Button.press_free {b : Button} (h : b.held = false) (hold : Nat) :
    b.press hold = ⟨true, 0, decide (hold = 0)⟩ ∧ b.pressQualifies hold = decide (hold = 0) := by
  simp [Button.press, Button.pressQualifies, h]

theorem pressOpen_eq (s : State) : pressOpen s = { s with sup := { s.sup with
    openBtn := s.sup.openBtn.press s.cfg.holdTicks
    evq := if s.sup.openBtn.pressQualifies s.cfg.holdTicks then enqueued .openEv s.sup.evq
      else s.sup.evq } } :=
  enqueueIf_eq _ _ _

theorem pressClose_eq (s : State) : pressClose s = { s with sup := { s.sup with
    closeBtn := s.sup.closeBtn.press s.cfg.holdTicks
    evq := if s.sup.closeBtn.pressQualifies s.cfg.holdTicks then enqueued .closeEv s.sup.evq
      else s.sup.evq } } :=
  enqueueIf_eq _ _ _

/-- Settles O37: the press of a button that is held, of one that is not, and the threshold 0. -/
theorem edgePressed : Obligations.EdgePressed := by
  intro s hns
  have hopen : exec .edgeOpenPressed s = .next (dispatch (pressOpen s)) :=
    live_of_not_stuck hns fun s => dispatch (pressOpen s)
  have hclose : exec .edgeClosePressed s = .next (dispatch (pressClose s)) :=
    live_of_not_stuck hns fun s => dispatch (pressClose s)
  rw [hopen, hclose, pressOpen_eq, pressClose_eq]
  refine ⟨fun hheld => ?openHeld, fun hheld => ?closeHeld, fun hfree hpos => ?openNoted,
    fun hfree hpos => ?closeNoted, fun hfree hzero => ?openFires, fun hfree hzero => ?closeFires⟩
  case openHeld | closeHeld =>
    obtain ⟨hbtn, hqual⟩ := Button.press_held hheld s.cfg.holdTicks
    rw [hbtn, hqual]
    rfl
  case openNoted | closeNoted =>
    obtain ⟨hbtn, hqual⟩ := Button.press_free hfree s.cfg.holdTicks
    rw [hbtn, hqual, decide_eq_false (Nat.one_le_iff_ne_zero.mp hpos)]
    rfl
  case openFires | closeFires =>
    obtain ⟨hbtn, hqual⟩ := Button.press_free hfree s.cfg.holdTicks
    rw [hbtn, hqual, decide_eq_true hzero]
    rfl

/-- Settles O38: a release replaces the button alone, by itself when it is not held. -/
theorem edgeReleased : Obligations.EdgeReleased := by
  intro s hns
  refine ⟨(live_of_not_stuck hns _).trans (congrArg _ ?_),
    (live_of_not_stuck hns _).trans (congrArg _ ?_)⟩
  · rw [Button.release]
    split <;> rfl
  · rw [Button.release]
    split <;> rfl

/-- One more tick of a button pressed `k` ticks ago (R224). -/
theorem Button.tick_pressed (hold k : Nat) :
    Button.tick hold ⟨true, min k hold, decide (hold ≤ k)⟩ =
      ⟨true, min (k + 1) hold, decide (hold ≤ k + 1)⟩ := by
  by_cases hfired : hold ≤ k
  · have hmin : min k hold = min (k + 1) hold := by omega
    have hstays : hold ≤ k + 1 := by omega
    simp [Button.tick, Button.counting, hfired, hstays]
  · have hk : min k hold = k := by omega
    have hk' : min (k + 1) hold = k + 1 := by omega
    simp [Button.tick, Button.counting, hfired, hk, hk']

/-- `k` ticks after a press (R224). -/
theorem Button.tick_iterate {hold : Nat} (hpos : 1 ≤ hold) (k : Nat) :
    (Button.tick hold)^[k] ⟨true, 0, false⟩ = ⟨true, min k hold, decide (hold ≤ k)⟩ := by
  induction k with
  | zero => simp [Nat.not_le.mpr hpos]
  | succ k ih => rw [Function.iterate_succ_apply', ih, Button.tick_pressed]

/-- Settles O39: by induction on the ticks; the tick that qualifies is the one that reaches the threshold. -/
theorem holdQualifiesOnce : Obligations.HoldQualifiesOnce := by
  intro hold k hpos
  refine ⟨Button.tick_iterate hpos k, ?_⟩
  rw [Button.tick_iterate hpos, qualifies_eq, decide_eq_true_eq, decide_eq_false_iff_not]
  simp only [true_and]
  omega

/-! ## The controller events -/

/-- An instruction of a controller event in a block that is not stuck: the table of R235, or `evq`. -/
theorem exec_evInstr_takes {s : State} (hns : s.stuck = false) (e : CtrlEv) :
    exec (evInstr e) s = .next (takeEvent e (transition e) s) := by
  cases e <;> exact live_of_not_stuck hns _

/-- When `dispatch` may take an event, its instruction makes the same transition (R234, R235). -/
theorem exec_evInstr_ready {s : State} (hr : s.ready = true) (e : CtrlEv) :
    exec (evInstr e) s = .next (transition e s) := by
  obtain ⟨hseq, hns⟩ := (ready_iff s).mp hr
  rw [exec_evInstr_takes hns, takeEvent, if_pos hseq]

/-- Settles O44: in a settle interval the event is enqueued. -/
theorem eventsWait : Obligations.EventsWait := by
  intro s e hns hseq
  rw [exec_evInstr_takes hns, takeEvent, if_neg (by simp [hseq])]
  rfl

theorem onOpen_ignored {s : State} (h : s.act.motion ≠ .idle) : onOpen s = s := by
  unfold onOpen
  split
  · exact absurd ‹_› h
  all_goals rfl

theorem onSample_ignored {s : State} (h : ¬ s.moving) : onSample s = s := by
  unfold onSample
  split
  · rfl
  · exact absurd (.inl ‹_›) h
  · exact absurd (.inr ‹_›) h
  · rfl

theorem onDeadline_ignored {s : State} (h : ¬ s.moving) : onDeadline s = s := by
  unfold onDeadline
  split
  · rfl
  · exact absurd (.inl ‹_›) h
  · exact absurd (.inr ‹_›) h
  · rfl

/-- Settles O41: the two intents by the table of R235. -/
theorem motionBegins : Obligations.MotionBegins := by
  intro s hq hseq
  refine ⟨fun hidle hp => (exec_evInstr hq hseq .openEv).trans (congrArg _ ?opening),
    fun hbusy => (exec_evInstr hq hseq .openEv).trans (congrArg _ (onOpen_ignored hbusy)),
    fun hp => (exec_evInstr hq hseq .closeEv).trans (congrArg _ ?closing)⟩
  case opening => exact (onOpen_idle hidle).trans ((beginMotion_cases hq (.inl rfl)).1 hp)
  case closing => exact (onClose_eq s).trans ((beginMotion_cases hq (.inr rfl)).1 hp)

/-- Settles O42: the load read by the table of R235. -/
theorem sampleReads : Obligations.SampleReads := by
  intro s hq hseq
  refine ⟨fun hmoving hp => (exec_evInstr hq hseq .sample).trans (congrArg _ ?_),
    fun hrest => (exec_evInstr hq hseq .sample).trans (congrArg _ (onSample_ignored hrest))⟩
  exact (onSample_moving hmoving).trans ((readLoadSample_cases hq).1 hp)

/-- Settles O43: the deadline by the table of R235. -/
theorem deadlineEmergency : Obligations.DeadlineEmergency := by
  intro s hq hseq
  refine ⟨fun hmoving hp => (exec_evInstr hq hseq .deadline).trans (congrArg _ ?_),
    fun hrest => (exec_evInstr hq hseq .deadline).trans (congrArg _ (onDeadline_ignored hrest))⟩
  exact (onDeadline_moving hmoving).trans ((enterEmergency_cases hq).1 hp)

/-! ## `dispatch` -/

/-- A load read with the deadline behind it is passed over for the event after it (`90_conflicts.md` C8). -/
theorem nextEvent_past_sample {e : CtrlEv} {rest : List CtrlEv} (he : e ≠ .sample)
    (hd : CtrlEv.deadline ∈ e :: rest) : nextEvent (.sample :: e :: rest) = some e := by
  rw [nextEvent, if_pos (List.mem_cons_of_mem _ hd)]
  simp [he]

/-- Settles O45: which event is next by the head of the queue, and its instruction is its transition. -/
theorem dispatchTakesEvents : Obligations.DispatchTakesEvents := by
  intro s
  refine ⟨?nothing, fun e rest hevq ho hseq hns => ?oldest,
    fun e rest hevq he hd hseq hns => ?past⟩
  case nothing =>
    rintro (hevq | hseq | hstuck)
    · exact dispatch_nil hevq
    · exact dispatch_settle hseq
    · exact dispatch_stuck hstuck
  case oldest =>
    have hr : s.ready = true := (ready_iff s).mpr ⟨hseq, hns⟩
    exact ⟨_, exec_evInstr_ready (s := { s with sup := { s.sup with evq := rest } }) hr e,
      dispatch_cons hevq ho hr⟩
  case past =>
    have hr : s.ready = true := (ready_iff s).mpr ⟨hseq, hns⟩
    refine ⟨_, exec_evInstr_ready (s := { s with sup := { s.sup with evq := .sample :: rest } }) hr e,
      ?_⟩
    rw [dispatch_next (by rw [hevq]; exact nextEvent_past_sample he hd) hr, dropEvent, hevq,
      List.erase_cons_tail (by simpa using he.symm), List.erase_cons_head]

/-- Settles O40: both intents become pending, close first; the close intent is taken, and the open intent
stays behind its transaction. -/
theorem closeWinsTie : Obligations.CloseWinsTie := by
  intro s hrest hevq hoff hp hcheld hcfired hccnt hoheld hofired hocnt
  have hboth : (counted s).sup.evq = [.closeEv, .openEv] := by
    simp [counted, tickEvents, hevq, hoff, hcheld, hcfired, hccnt, hoheld, hofired, hocnt]
  have hr : (counted s).ready = true := (ready_iff _).mpr ⟨hrest.seq, hrest.not_stuck⟩
  obtain ⟨u, hu⟩ : ∃ u, u = { counted s with sup := { (counted s).sup with evq := [.openEv] } } :=
    ⟨_, rfl⟩
  have hbegun : dispatch (counted s) =
      afterWait (frame s.cfg.servoId 0x03 (speedParams s.cfg .closing)) 0 .start
        (motionSet .closing u) := by
    rw [dispatch_cons hboth (.inl (by decide)) hr, ← hu, transition, onClose_eq,
      (beginMotion_cases (hu ▸ hrest.quiet) (.inr rfl)).1 (hu ▸ hp), dispatch_settle rfl, hu]
    rfl
  rw [exec_tick hrest.not_stuck, settlePart_idle (s := counted s) hrest.seq, hbegun, hu]
  exact ⟨_, rfl, rfl, rfl, rfl, rfl, rfl⟩

/-! ## The stall -/

/-- The overload counter written, and nothing else (R248). -/
def withHits (n : Nat) (s : State) : State := { s with act := { s.act with ovlCnt := n } }

@[simp] theorem withHits_cfg (n : Nat) (s : State) : (withHits n s).cfg = s.cfg := rfl
@[simp] theorem withHits_act_ovlCnt (n : Nat) (s : State) : (withHits n s).act.ovlCnt = n := rfl

theorem beginWait_act (id op : Byte) (ps : List Byte) (rn : Nat) (k : Cont) (s : State) :
    (beginWait id op ps rn k s).act = s.act := by
  have hact := (sendFrame_keeps id op ps s).act
  unfold beginWait
  split <;> exact hact

/-- A confirmed stall ends the motion and turns both timers off, whatever the line does (R249). -/
theorem confirmStall_act (s : State) : (confirmStall s).act =
    { s.act with motion := .idle, timersOn := false, deadlineCnt := 0, sampleCnt := 0 } :=
  beginWait_act _ _ _ _ _ (setStalled (cancelTimers s))

/-- The magnitude of a load word of two bytes (R66, R92). -/
theorem magOf_wordOf (lo hi : Byte) :
    (magOf (wordOf lo hi)).toNat = (lo.toNat + 256 * hi.toNat) % 1024 := by
  rw [magOf, wordOf, BitVec.extractLsb'_toNat, BitVec.toNat_append,
    ← Nat.shiftLeft_add_eq_or_of_lt lo.isLt, Nat.shiftLeft_eq]
  omega

theorem overThreshold_loadWord (p : Params) (r : Result) :
    overThreshold p r.loadWord = overSample p r := by
  rw [overThreshold, Result.loadWord, magOf_wordOf]
  rfl

/-- What one more result does to the run of over-threshold samples (R264). -/
theorem overRun_snoc (p : Params) (rs : List Result) (r : Result) :
    overRun p (rs ++ [r]) =
      if r.usable then if overSample p r then overRun p rs + 1 else 0 else overRun p rs := by
  cases hu : r.usable <;> cases ho : overSample p r <;> simp [overRun, List.filter_append, hu, ho]

/-- The continuation of a load read in a state that counts the run of the results before it (R248, R264): it
counts the run with this result, or finds it complete. -/
theorem contSample_overRun (s : State) (rs : List Result) (r : Result) :
    contSample r (withHits (overRun s.cfg rs) s) =
      if r.usable = true ∧ overRun s.cfg (rs ++ [r]) = s.cfg.validCount then
        confirmStall (withHits (overRun s.cfg (rs ++ [r])) s)
      else withHits (overRun s.cfg (rs ++ [r])) s := by
  have hcount : countHit (overSample s.cfg r) (withHits (overRun s.cfg rs) s) =
      withHits (if overSample s.cfg r then overRun s.cfg rs + 1 else 0) s := rfl
  rw [contSample, withHits_cfg, overThreshold_loadWord, hcount, withHits_act_ovlCnt, overRun_snoc]
  cases hu : r.usable with
  | false => simp
  | true => simp only [if_true, true_and]

/-- Results none of whose prefixes confirms a stall leave the overload counter at their run, and nothing else
changed (R248, R264). -/
theorem foldl_contSample {s : State} (hzero : s.act.ovlCnt = 0) (rs : List Result) :
    (∀ pre, pre <+: rs → overRun s.cfg pre < s.cfg.validCount) →
    rs.foldl (fun t x => contSample x t) s = withHits (overRun s.cfg rs) s := by
  induction rs using List.reverseRecOn with
  | nil =>
    intro _
    show s = withHits 0 s
    rw [← hzero]
    rfl
  | append_singleton rs r ih =>
    intro hbelow
    have hlast := hbelow _ (List.prefix_refl _)
    rw [List.foldl_append, ih fun pre hpre => hbelow pre (hpre.trans (List.prefix_append rs [r]))]
    exact (contSample_overRun s rs r).trans (if_neg fun h => hlast.ne h.2)

/-- Settles O33: the counter is the run of the results so far, and the next result completes it or not. -/
theorem stallCountsConsecutive : Obligations.StallCountsConsecutive := by
  intro s rs r _ hzero hbelow
  have hcounted := foldl_contSample hzero rs hbelow
  have hnext : (rs ++ [r]).foldl (fun t x => contSample x t) s = _ :=
    (List.foldl_append ..).trans ((congrArg (contSample r) hcounted).trans
      (contSample_overRun s rs r))
  rw [hnext]
  refine ⟨hcounted, ?_, fun husable hfull => ?_⟩
  · split
    · rw [confirmStall_act]
    · rfl
  · rw [if_pos ⟨husable, hfull⟩, confirmStall_act]

/-- The hits after a reply that ends no motion (R248). -/
def hitsAfter (p : Params) (r : List Byte) (n : Nat) : Nat :=
  if usableReply r then if overReply p r then n + 1 else 0 else n

/-- A load read in its turn that confirms no stall writes the overload counter alone, and then what is pending
is dispatched (R248). -/
theorem exec_pktStatus_unconfirmed {s : State} {r : List Byte} (hq : s.link.Quiet)
    (hseq : s.codec.seq = .settle) (hcnt : s.codec.settleCnt = 0) (hcont : s.codec.cont = .sample)
    (hexp : s.codec.expN = 8) (hrd : s.codec.rdN = 2) (hm : s.moving) (hv : 1 ≤ s.cfg.validCount)
    (hlen : r.length ≤ 8)
    (hmore : ¬ (usableReply r ∧ overReply s.cfg r ∧ s.act.ovlCnt + 1 = s.cfg.validCount)) :
    exec (.pktStatus r) s = .next (dispatch (withHits (hitsAfter s.cfg r s.act.ovlCnt)
      { s with codec := { s.codec with seq := .idle } })) := by
  obtain ⟨hunusable, hwithin, hover, -⟩ :=
    sampleContinues s r hq hseq hcnt hcont hexp hrd hm hv
  unfold hitsAfter
  split
  · rename_i hu
    split
    · rename_i ho
      exact hover hu ho fun hfull => hmore ⟨hu, ho, hfull⟩
    · rename_i ho
      exact hwithin hu ho
  · rename_i hu
    exact hunusable hlen hu

theorem echoPresent_of_all {s : State} (h : none ∉ s.ports.echoes) (k : Nat) : EchoPresent k s :=
  fun hm => h (List.mem_of_mem_take hm)

/-- No timer event is pending once the timers are cancelled (R233). -/
theorem timer_not_pending (evs : List CtrlEv) :
    CtrlEv.sample ∉ evs.filter (fun e => e != .sample && e != .deadline) ∧
      CtrlEv.deadline ∉ evs.filter (fun e => e != .sample && e != .deadline) := by
  simp

/-- Settles O32: a confirmed stall purges the deadline; after any other read `dispatch` finds it. -/
theorem stallBeatsDeadline : Obligations.StallBeatsDeadline := by
  intro s r hq hseq hcnt hcont hexp hrd hm hv hdeadline hp hlen
  refine ⟨fun ⟨hu, ho, hfull⟩ => ?stall, fun hmore hclose => ?emergency⟩
  case stall =>
    obtain ⟨-, -, -, hstall⟩ := sampleContinues s r hq hseq hcnt hcont hexp hrd hm hv
    exact ⟨_, hstall hu ho hfull hp, rfl, rfl, rfl, rfl, rfl, rfl, rfl⟩
  case emergency =>
    obtain ⟨evs, hentered⟩ := dispatch_deadline (withHits (hitsAfter s.cfg r s.act.ovlCnt)
      { s with codec := { s.codec with seq := .idle } }) hq rfl hm hp hdeadline hclose
    obtain ⟨hnoSample, hnoDeadline⟩ := timer_not_pending evs
    refine ⟨_, exec_pktStatus_unconfirmed hq hseq hcnt hcont hexp hrd hm hv hlen hmore, ?_⟩
    rw [hentered]
    refine ⟨rfl, rfl, rfl, rfl, hnoSample, hnoDeadline, fun hu ho => ?_, fun hu ho => ?_,
      fun hu => ?_, rfl, rfl, rfl⟩
    · exact (if_pos hu).trans (if_pos ho)
    · exact (if_pos hu).trans (if_neg ho)
    · exact if_neg hu

/-! ## The timer pair over every run -/

/-- What every step keeps, every run keeps. -/
theorem run_keeps {M : Host.Core} {P : M.State → Prop}
    (hstep : ∀ s t, P s → M.step s = .next t → P t) (k : Nat) : ∀ {s t : M.State}, P s →
    M.run k s = .next t → P t := by
  induction k with
  | zero =>
    intro s t h hrun
    obtain rfl : s = t := Host.Outcome.next.inj hrun
    exact h
  | succ k ih =>
    intro s t h hrun
    rw [Host.Core.run] at hrun
    split at hrun
    · exact ih (hstep s _ h ‹_›) hrun
    · cases hrun
    · cases hrun

/-- Settles O52: the timer pair is a part of the invariant. -/
theorem timerPair : Obligations.TimerPair := by
  intro p io k t hp hrun hns
  have hinv : t.Inv := run_keeps (M := Sys2Proof.core) (P := State.Inv) invKept k (resetWith_inv hp io) hrun
  have htimers := (hinv.live hns).timers
  exact ⟨htimers.on_moving, htimers.moving_on, htimers.events, htimers.counts⟩

/-! ## Nothing but the deadline enters the emergency path -/

/-- The block is not in the emergency path, and no deadline is pending to enter it. -/
structure State.Calm (s : State) : Prop where
  motion : s.act.motion ≠ .emergency
  pending : CtrlEv.deadline ∉ s.sup.evq

theorem State.Calm.congr {s t : State} (h : s.Calm) (hm : t.act.motion = s.act.motion)
    (he : t.sup.evq = s.sup.evq) : t.Calm := ⟨hm ▸ h.motion, he ▸ h.pending⟩

theorem SendKeeps.calm {s t : State} (k : SendKeeps s t) (h : s.Calm) : t.Calm :=
  h.congr (congrArg Actuator.motion k.act) (congrArg Support.evq k.sup)

theorem beginWait_calm {s : State} (h : s.Calm) (id op : Byte) (ps : List Byte) (rn : Nat) (k : Cont) :
    (beginWait id op ps rn k s).Calm :=
  h.congr (congrArg Actuator.motion (beginWait_act id op ps rn k s))
    (congrArg Support.evq (beginWait_sup id op ps rn k s))

/-- A host transaction keeps calm when what is done at once with its result does. -/
theorem beginTxn_calm {finish : Result → State → State}
    (hfin : ∀ r t, t.Calm → (finish r t).Calm) {s : State} (h : s.Calm) (id op : Byte)
    (ps : List Byte) (rn : Nat) (wait : Bool) (k : Cont) :
    (beginTxn finish id op ps rn wait k s).Calm := by
  have hsent := (sendFrame_keeps id op ps s).calm h
  unfold beginTxn
  split
  · exact hsent
  · split
    · exact hsent.congr rfl rfl
    · exact hfin _ _ hsent

theorem cancelTimers_calm {s : State} (h : s.Calm) : (cancelTimers s).Calm :=
  ⟨h.motion, fun hm => h.pending (List.mem_of_mem_filter hm)⟩

theorem beginMotion_calm {m : Motion} (hm : m ≠ .emergency) {s : State} (h : s.Calm) :
    (beginMotion m s).Calm :=
  beginWait_calm (s := setMotion m (cancelTimers s)) ⟨hm, (cancelTimers_calm h).pending⟩ _ _ _ _ _

theorem confirmStall_calm {s : State} (h : s.Calm) : (confirmStall s).Calm :=
  beginWait_calm (s := setStalled (cancelTimers s))
    ⟨Motion.noConfusion, (cancelTimers_calm h).pending⟩ _ _ _ _ _

/-- Every event but the deadline (R235). -/
theorem transition_calm {e : CtrlEv} (he : e ≠ .deadline) {s : State} (h : s.Calm) :
    (transition e s).Calm := by
  cases e with
  | deadline => exact absurd rfl he
  | closeEv =>
    rw [transition, onClose_eq]
    exact beginMotion_calm (m := .closing) (by decide) h
  | openEv =>
    show (onOpen s).Calm
    unfold onOpen
    split
    · exact beginMotion_calm (m := .opening) (by decide) h
    all_goals exact h
  | sample =>
    show (onSample s).Calm
    unfold onSample
    split
    · exact h
    · exact beginWait_calm h _ _ _ _ _
    · exact beginWait_calm h _ _ _ _ _
    · exact h

/-- `dispatch` takes pending events alone, and the deadline is none of them. -/
theorem dispatch_calm {s : State} (h : s.Calm) : (dispatch s).Calm := by
  refine dispatch_induct (P := State.Calm) (fun t e he _ ht => ?_) s h
  have hdropped : (dropEvent e t).Calm :=
    ⟨ht.motion, fun hm => ht.pending (List.mem_of_mem_erase hm)⟩
  refine transition_calm (fun hdeadline => ?_) hdropped
  exact ht.pending (hdeadline ▸ nextEvent_mem he)

theorem respond_calm {s : State} (h : s.Calm) (r : Result) : (respond r s).Calm := h.congr rfl rfl

theorem completeHost_calm (r : Result) (s : State) (h : s.Calm) : (completeHost r s).Calm :=
  dispatch_calm (respond_calm h r)

theorem contMode2_calm {s : State} (h : s.Calm) (r : Result) : (contMode2 r s).Calm := by
  unfold contMode2
  split
  · exact respond_calm h r
  · exact beginTxn_calm completeHost_calm h _ _ _ _ _ _

theorem contSample_calm {s : State} (h : s.Calm) (r : Result) : (contSample r s).Calm := by
  have hcounted : (countHit (overThreshold s.cfg r.loadWord) s).Calm := h.congr rfl rfl
  unfold contSample
  split
  · split
    · exact confirmStall_calm hcounted
    · exact hcounted
  · exact h

theorem complete_calm (k : Cont) (r : Result) (s : State) (h : s.Calm) : (complete k r s).Calm := by
  refine dispatch_calm ?_
  cases k with
  | host => exact respond_calm h r
  | hostMode2 => exact contMode2_calm h r
  | start => exact h.congr rfl rfl
  | sample => exact contSample_calm h r
  | stop => exact h
  | emerg => exact ⟨Motion.noConfusion, h.pending⟩

theorem settlePart_calm {s : State} (h : s.Calm) : (settlePart s).Calm := by
  unfold settlePart
  split
  · split
    · exact complete_calm _ _ _ (h.congr rfl rfl)
    · exact h.congr rfl rfl
  · exact h

/-- A tick after which no deadline is pending to be dispatched (R230). -/
theorem exec_tick_calm {s t : State} (hns : s.stuck = false) (h : (counted s).Calm)
    (he : exec .tick s = .next t) : t.Calm := by
  obtain rfl := Host.Outcome.next.inj ((exec_tick hns).symm.trans he)
  exact dispatch_calm (settlePart_calm h)

/-- The deadline is pending behind the counts of a tick when it was before, or when the tick counts it to 0
(R230). -/
theorem deadline_mem_counted (s : State) : CtrlEv.deadline ∈ (counted s).sup.evq ↔
    CtrlEv.deadline ∈ s.sup.evq ∨ s.act.timersOn = true ∧ s.act.deadlineCnt = 1 := by
  by_cases hd : CtrlEv.deadline ∈ s.sup.evq <;> simp [counted, tickEvents, hd]

/-- The event is processed, or the block is stuck and it is not (R123). -/
theorem live_calm {f : State → State} {s t : State} (he : live f s = .next t) (h : s.Calm)
    (hf : (f s).Calm) : t.Calm := by
  obtain rfl : (if s.stuck then s else f s) = t := Host.Outcome.next.inj he
  split
  · exact h
  · exact hf

theorem command_calm {tests : List (Bool × Reason)} {body : State → State} {s t : State}
    (he : command tests body s = .next t) (h : s.Calm) (hbody : (body s).Calm) : t.Calm := by
  refine live_calm he h ?_
  rcases accept_cases tests body s with ⟨why, hrefused⟩ | ⟨-, -, hruns⟩
  · rw [hrefused]
    exact respond_calm h _
  · rw [hruns]
    exact hbody

theorem sendCommand_calm {s : State} (h : s.Calm) (b : Byte) : (sendCommand b s).Calm := by
  have hsent := (sendByte_keeps b s).calm h
  unfold sendCommand
  split
  · exact hsent
  · exact respond_calm hsent _

theorem hostWrite_calm {s : State} (h : s.Calm) (op id addr : Byte) (data : List Byte) :
    (hostWrite op id addr data s).Calm := beginTxn_calm (complete_calm .host) h _ _ _ _ _ _

theorem hostRead_calm {s : State} (h : s.Calm) (id addr n : Byte) : (hostRead id addr n s).Calm :=
  beginTxn_calm (complete_calm .host) h _ _ _ _ _ _

theorem action_calm {s : State} (h : s.Calm) (id : Byte) :
    (beginTxn (complete .host) id opRegwrite [] 0 false .host s).Calm :=
  beginTxn_calm (complete_calm .host) h _ _ _ _ _ _

theorem beginModeCont_calm {s : State} (h : s.Calm) (id : Byte) : (beginModeCont id s).Calm :=
  beginTxn_calm (complete_calm .hostMode2) (s := setHostId id s) (h.congr rfl rfl) _ _ _ _ _ _

theorem exec_command_calm {i : Instr} {s t : State} (h : s.Calm) (hi : isCommand i = true)
    (he : exec i s = .next t) : t.Calm := by
  cases i with
  | tSend d0 => exact command_calm he h (sendCommand_calm h d0)
  | tRxavail => exact command_calm he h (respond_calm h _)
  | tRxbyte =>
    exact command_calm he h
      (respond_calm (s := { s with link := (s.link.receiveByte s.cfg.rxqDepth).2 }) (h.congr rfl rfl) _)
  | tReinit d0 d1 d2 d3 =>
    exact command_calm he h
      (respond_calm (s := s.onLink (Link.rebuild s.cfg.rxqDepth (baudOf d0 d1 d2 d3)))
        (h.congr rfl rfl) _)
  | cWrite | cRegwrite | torqueEn | setSpeed | setCwLimit | setCcwLimit | setId | setBaudcode =>
    exact command_calm he h (hostWrite_calm h _ _ _ _)
  | cRead | readLoad | readTemp | readVolt => exact command_calm he h (hostRead_calm h _ _ _)
  | cAction id => exact command_calm he h (action_calm h id)
  | setModeCont id => exact command_calm he h (beginModeCont_calm h id)
  | cmdReserved op => exact command_calm he h h
  | pktRead | pktWrite | pktRegwrite | pktAction | pktStatus | reset | tick | lineByte
  | edgeOpenPressed | edgeOpenReleased | edgeClosePressed | edgeCloseReleased
  | evDeadline | evClose | evOpen | evSample => cases hi

/-- An intent enqueued is no deadline. -/
theorem enqueueIf_calm {q : Bool} {e : CtrlEv} (he : e ≠ .deadline) {s : State} (h : s.Calm) :
    (enqueueIf q e s).Calm := by
  unfold enqueueIf
  split
  · refine ⟨h.motion, fun hm => ?_⟩
    rcases (enqueue_mem e .deadline s).mp hm with hold | hnew
    · exact h.pending hold
    · exact he hnew.symm
  · exact h

theorem pressOpen_calm {s : State} (h : s.Calm) : (pressOpen s).Calm :=
  enqueueIf_calm CtrlEv.noConfusion (s := withOpenBtn _ s) (h.congr rfl rfl)

theorem pressClose_calm {s : State} (h : s.Calm) : (pressClose s).Calm :=
  enqueueIf_calm CtrlEv.noConfusion (s := withCloseBtn _ s) (h.congr rfl rfl)

/-- Every external event but a tick leaves a calm block calm. -/
theorem exec_calm {i : Instr} {s t : State} (h : s.Calm) (hi : ExternalEvent i) (hne : i ≠ .tick)
    (he : exec i s = .next t) : t.Calm := by
  cases hi with
  | command hcommand => exact exec_command_calm h hcommand he
  | reset =>
    obtain rfl : State.resetWith s.cfg s.ports = t := Host.Outcome.next.inj he
    exact ⟨Motion.noConfusion, List.not_mem_nil⟩
  | tick => exact absurd rfl hne
  | openPressed =>
    exact live_calm (f := fun s => dispatch (pressOpen s)) he h (dispatch_calm (pressOpen_calm h))
  | closePressed =>
    exact live_calm (f := fun s => dispatch (pressClose s)) he h (dispatch_calm (pressClose_calm h))
  | lineByte | openReleased | closeReleased => exact live_calm he h (h.congr rfl rfl)

/-- In a settle interval no external event but a tick or `RESET` reaches the actuator: commands are refused and
nothing is dispatched (R98, R234). -/
theorem exec_settle_act {i : Instr} {s t : State} (hns : s.stuck = false)
    (hseq : s.codec.seq = .settle) (hi : ExternalEvent i) (hne : i ≠ .tick) (hreset : i ≠ .reset)
    (he : exec i s = .next t) : t.act = s.act := by
  have hlive {f : State → State} (hf : live f s = .next t) : t = f s :=
    (Host.Outcome.next.inj ((live_of_not_stuck hns f).symm.trans hf)).symm
  cases hi with
  | command hcommand =>
    have hrefused := busyRefusesEveryCommand s i hns (.inl hseq) hcommand
    obtain rfl := Host.Outcome.next.inj (hrefused.symm.trans he)
    rfl
  | reset => exact absurd rfl hreset
  | tick => exact absurd rfl hne
  | lineByte | openReleased | closeReleased => rw [hlive he]; rfl
  | openPressed =>
    rw [hlive (f := fun s => dispatch (pressOpen s)) he, pressOpen_eq, dispatch_settle]
    exact hseq
  | closePressed =>
    rw [hlive (f := fun s => dispatch (pressClose s)) he, pressClose_eq, dispatch_settle]
    exact hseq

/-- Settles O46: unless a tick finds the deadline pending or counts it to 0, the block stays calm, or a
transaction in flight keeps the event from the actuator. -/
theorem emergencyOnlyByDeadline : Obligations.EmergencyOnlyByDeadline := by
  rintro s t i hinv ⟨p, bs, hdecode⟩ he hm hentered
  have hext := decode_external hdecode
  have hnotReset : i ≠ .reset := by
    rintro rfl
    obtain rfl : State.resetWith s.cfg s.ports = t := Host.Outcome.next.inj he
    cases hentered
  have hns : s.stuck = false := by
    rw [← Bool.not_eq_true]
    intro hstuck
    obtain rfl := Host.Outcome.next.inj ((exec_of_stuck hstuck hnotReset).symm.trans he)
    exact hm hentered
  have htimers := (hinv.live hns).timers
  by_cases htick : i = .tick
  · subst htick
    have hpending : CtrlEv.deadline ∈ (counted s).sup.evq := by
      by_contra hnone
      exact (exec_tick_calm hns ⟨hm, hnone⟩ he).motion hentered
    have hdue : s.act.timersOn = true ∧ s.act.deadlineCnt ≤ 1 := by
      rcases (deadline_mem_counted s).mp hpending with hold | ⟨hon, hlast⟩
      · exact ⟨htimers.events (.inr hold), (htimers.expired hold).le.trans (Nat.zero_le 1)⟩
      · exact ⟨hon, hlast.le⟩
    exact ⟨rfl, htimers.on_moving hdue.1, hdue⟩
  · exfalso
    by_cases hevq : s.sup.evq = []
    · exact (exec_calm ⟨hm, by simp [hevq]⟩ hext htick he).motion hentered
    · have hact := exec_settle_act hns (hinv.waits hns hevq) hext htick hnotReset he
      exact hm (hact ▸ hentered)

/-! ## The deadline of a running motion -/

/-- A motion whose timers run, on a quiet line, with no close intent under way and no echo missing to come: what
the statements on the deadline ask beside the invariant (R265, R268). -/
structure State.Cruising (s : State) : Prop where
  quiet : s.link.Quiet
  moving : s.moving
  timersOn : s.act.timersOn = true
  closeBtn : s.sup.closeBtn.held = false ∨ s.sup.closeBtn.fired = true
  noClose : CtrlEv.closeEv ∉ s.sup.evq
  echoes : none ∉ s.ports.echoes

/-- The transaction in flight in such a motion is a load read (R33, R34). -/
theorem State.Cruising.load_in_flight {s : State} (h : s.Cruising) (hinv : s.Inv)
    (hseq : s.codec.seq = .settle) :
    s.codec.cont = .sample ∧ s.codec.expN = 8 ∧ s.codec.rdN = 2 := by
  have htxn := (hinv.live h.quiet.not_stuck).txn
  have hbusy : s.act.motion ≠ .idle ∧ s.act.motion ≠ .emergency := by
    rcases h.moving with hm | hm <;> simp [hm]
  have hcont : s.codec.cont = .sample := by
    cases hc : s.codec.cont with
    | sample => rfl
    | start =>
      obtain ⟨-, hoff⟩ := htxn.start hseq hc
      rw [h.timersOn] at hoff
      cases hoff
    | emerg => exact absurd (htxn.emerg hseq hc) hbusy.2
    | host => exact absurd (htxn.other hseq (.inl hc)) hbusy.1
    | hostMode2 => exact absurd (htxn.other hseq (.inr (.inl hc))) hbusy.1
    | stop => exact absurd (htxn.other hseq (.inr (.inr hc))) hbusy.1
  obtain ⟨-, -, hrd⟩ := htxn.sample hseq hcont
  exact ⟨hcont, by rw [htxn.count hseq, hrd], hrd⟩

/-- The intent of a close button that cannot qualify does not become pending in a tick (R224). -/
theorem closeEv_not_counted {s : State} (hbtn : s.sup.closeBtn.held = false ∨ s.sup.closeBtn.fired = true)
    (hnone : CtrlEv.closeEv ∉ s.sup.evq) : CtrlEv.closeEv ∉ (counted s).sup.evq := by
  rcases hbtn with hbtn | hbtn <;> simp [counted, tickEvents, hnone, hbtn]

/-- A button that does not count is as it was after a tick (R224). -/
theorem heldOneTick_same {hold : Nat} {b : Button} (h : b.held = false ∨ b.fired = true) :
    heldOneTick hold b = b := by
  rcases h with h | h <;> simp [heldOneTick, h]

theorem State.Cruising.after_counts {s : State} (h : s.Cruising) : (counted s).Cruising where
  quiet := h.quiet
  moving := h.moving
  timersOn := h.timersOn
  closeBtn := by
    have hsame : (counted s).sup.closeBtn = s.sup.closeBtn := heldOneTick_same h.closeBtn
    rw [hsame]
    exact h.closeBtn
  noClose := closeEv_not_counted h.closeBtn h.noClose
  echoes := h.echoes

/-- The deadline count after a tick of a running pair (R230). -/
theorem State.Cruising.deadlineCnt_counted {s : State} (h : s.Cruising) :
    (counted s).act.deadlineCnt = s.act.deadlineCnt - 1 := if_pos h.timersOn

/-- The deadline is pending behind the counts of a tick exactly when one tick or none was left (R230). -/
theorem State.Cruising.deadline_pending_iff {s : State} (h : s.Cruising) (hinv : s.Inv) :
    CtrlEv.deadline ∈ (counted s).sup.evq ↔ s.act.deadlineCnt ≤ 1 := by
  have htimers := (hinv.live h.quiet.not_stuck).timers
  rw [deadline_mem_counted]
  constructor
  · rintro (hold | ⟨-, hlast⟩)
    · exact (htimers.expired hold).le.trans (Nat.zero_le 1)
    · exact hlast.le
  · intro hle
    rcases Nat.le_one_iff_eq_zero_or_eq_one.mp hle with hzero | hone
    · exact .inl (htimers.deadline h.timersOn hzero)
    · exact .inr ⟨h.timersOn, hone⟩

/-- The torque-disable frame is sent, in a settle interval of its own (R249, R250). -/
structure TorqueOffSent (s t : State) : Prop where
  seq : t.codec.seq = .settle
  wireTx : t.ports.wireTx = s.ports.wireTx ++ torqueOffFrame s.cfg

/-- `t` has entered the emergency path (R250). -/
structure EmergencyEntered (t : State) : Prop where
  motion : t.act.motion = .emergency
  emergency : t.act.emergency = true

/-- `t` has ended the motion of `s` by a confirmed stall (R249). -/
structure StallEnded (s t : State) : Prop where
  motion : t.act.motion = .idle
  emergency : t.act.emergency = s.act.emergency
  ovlCnt : t.act.ovlCnt = s.cfg.validCount

/-- A pending deadline with no transaction in flight is dispatched (R250, R265). -/
theorem State.Cruising.dispatch_emergency {s : State} (h : s.Cruising) (hseq : s.codec.seq = .idle)
    (hd : CtrlEv.deadline ∈ s.sup.evq) :
    TorqueOffSent s (dispatch s) ∧ EmergencyEntered (dispatch s) := by
  obtain ⟨evs, hentered⟩ :=
    dispatch_deadline s h.quiet hseq h.moving (echoPresent_of_all h.echoes 8) hd h.noClose
  rw [hentered]
  exact ⟨⟨rfl, rfl⟩, ⟨rfl, rfl⟩⟩

/-- The state in which the reply of a load read that completes finds its continuation. -/
def loadRead (s : State) (l : Link) : State :=
  { counted s with link := l, codec := { s.codec with seq := .idle, settleCnt := 0 } }

theorem State.Cruising.after_read {s : State} (h : s.Cruising) {l : Link} (hl : l.Quiet) (n : Nat) :
    (withHits n (loadRead s l)).Cruising := by
  obtain ⟨-, hmoving, hon, hbtn, hnone, hechoes⟩ := h.after_counts
  exact ⟨hl, hmoving, hon, hbtn, hnone, hechoes⟩

/-- The tick that completes a load read: a stall is confirmed, its frame sent, or the overload counter alone is
written and what is pending is dispatched (R230 (d), R248, R249). -/
theorem State.Cruising.tick_completes {s : State} (h : s.Cruising) (hinv : s.Inv)
    (hseq : s.codec.seq = .settle) (hcnt : s.codec.settleCnt = 1) :
    ∃ t, exec .tick s = .next t ∧ (TorqueOffSent s t ∧ StallEnded s t ∨
      ∃ (l : Link) (n : Nat), l.Quiet ∧ t = dispatch (withHits n (loadRead s l))) := by
  obtain ⟨bs, hb⟩ := hinv.always.queue
  obtain ⟨hcont, hexp, hrd⟩ := h.load_in_flight hinv hseq
  obtain ⟨l, t, -, -, hirq, hdir, hbuf, -, hreply, htick⟩ :=
    tickTakesReply s bs h.quiet.not_stuck hseq hcnt hb
  have hl : l.Quiet := ⟨hirq.trans h.quiet.irqEn, hdir.trans h.quiet.lineDir, hbuf.trans h.quiet.hwRx⟩
  have hvalid := hinv.always.params.validCount
  obtain ⟨r, hr⟩ : ∃ r, bs.take s.codec.expN = r := ⟨_, rfl⟩
  have hlen : r.length ≤ 8 := by
    rw [← hr, hexp]
    exact List.length_take_le 8 bs
  rw [hr] at hreply
  refine ⟨_, htick, ?_⟩
  by_cases hstall : usableReply r ∧ overReply s.cfg r ∧ s.act.ovlCnt + 1 = s.cfg.validCount
  · obtain ⟨hu, ho, hfull⟩ := hstall
    obtain ⟨-, -, -, hconfirmed⟩ := sampleContinues
      { counted s with link := l, codec := { s.codec with settleCnt := 0 } } r hl hseq rfl hcont
      hexp hrd h.moving hvalid
    obtain rfl := Host.Outcome.next.inj
      ((hconfirmed hu ho hfull (echoPresent_of_all h.echoes 8)).symm.trans hreply)
    rw [dispatch_settle rfl]
    exact .inl ⟨⟨rfl, rfl⟩, ⟨rfl, rfl, hfull⟩⟩
  · have hcounted := exec_pktStatus_unconfirmed (r := r)
      (s := { counted s with link := l, codec := { s.codec with settleCnt := 0 } }) hl hseq rfl
      hcont hexp hrd h.moving hvalid hlen hstall
    obtain rfl := Host.Outcome.next.inj (hcounted.symm.trans hreply)
    rw [dispatch_dispatch]
    exact .inr ⟨l, _, hl, rfl⟩

/-- The tick that counts the deadline to 0 with no transaction in flight (R265). -/
theorem State.Cruising.tick_emergency {s : State} (h : s.Cruising) (hinv : s.Inv)
    (hseq : s.codec.seq = .idle) (hcnt : s.act.deadlineCnt ≤ 1) :
    ∃ t, exec .tick s = .next t ∧ TorqueOffSent s t ∧ EmergencyEntered t := by
  obtain ⟨hsent, hentered⟩ := h.after_counts.dispatch_emergency hseq ((h.deadline_pending_iff hinv).mpr hcnt)
  refine ⟨_, exec_tick h.quiet.not_stuck, ?_⟩
  rw [settlePart_idle (s := counted s) hseq]
  exact ⟨⟨hsent.seq, hsent.wireTx⟩, hentered⟩

/-- The tick that completes a load read with the deadline reached (R265, R283 (3)). -/
theorem State.Cruising.tick_ends {s : State} (h : s.Cruising) (hinv : s.Inv)
    (hseq : s.codec.seq = .settle) (hcnt : s.codec.settleCnt = 1) (hlast : s.act.deadlineCnt ≤ 1) :
    ∃ t, exec .tick s = .next t ∧ TorqueOffSent s t ∧ (EmergencyEntered t ∨ StallEnded s t) := by
  obtain ⟨t, htick, ⟨hsent, hstall⟩ | ⟨l, n, hl, rfl⟩⟩ := h.tick_completes hinv hseq hcnt
  · exact ⟨t, htick, hsent, .inr hstall⟩
  · obtain ⟨hsent, hentered⟩ := (h.after_read hl n).dispatch_emergency rfl
      ((h.deadline_pending_iff hinv).mpr hlast)
    exact ⟨_, htick, ⟨hsent.seq, hsent.wireTx⟩, .inl hentered⟩

/-- Settles O59: by whether a transaction is in flight and whether it completes; while ticks are left, no
deadline is pending behind the counts. -/
theorem deadlineDispatched : Obligations.DeadlineDispatched := by
  intro s hinv hns hm hon hbtn hnone hechoes
  have h : s.Cruising := ⟨(hinv.live hns).quiet, hm, hon, hbtn, hnone, hechoes⟩
  refine ⟨fun hseq hcnt => ?atOnce, fun hseq hmore hcnt => ?waits, fun hseq hlast hcnt => ?completes,
    fun hleft t htick => ?early⟩
  case atOnce =>
    obtain ⟨t, htick, hsent, hentered⟩ := h.tick_emergency hinv hseq hcnt.le
    exact ⟨t, htick, hentered.motion, hentered.emergency, hsent.wireTx⟩
  case waits =>
    exact ⟨_, exec_tick_settle hns hseq hmore, (h.deadline_pending_iff hinv).mpr hcnt, rfl, rfl, rfl⟩
  case completes =>
    obtain ⟨t, htick, hsent, hended⟩ := h.tick_ends hinv hseq hlast hcnt
    refine ⟨t, htick, ?_, hsent.seq, hsent.wireTx⟩
    rcases hended with hentered | hstall
    · exact .inl ⟨hentered.motion, hentered.emergency⟩
    · exact .inr ⟨hstall.motion, hstall.emergency, hstall.ovlCnt⟩
  case early =>
    have hnotEmergency : s.act.motion ≠ .emergency := by
      rcases hm with hm | hm <;> simp [hm]
    have hcalm := exec_tick_calm hns ⟨hnotEmergency,
      fun hd => absurd ((h.deadline_pending_iff hinv).mp hd) (by omega)⟩ htick
    exact ⟨hcalm.motion, hcalm.pending⟩

/-! ## A motion ends -/

/-- An open intent changes nothing in a motion, and a load read changes neither the timers nor the motion
(R239, R244). -/
theorem transition_cruising {e : CtrlEv} {s : State} (h : s.Cruising) (hclose : e ≠ .closeEv)
    (hdeadline : e ≠ .deadline) :
    (transition e s).Cruising ∧ (transition e s).act = s.act ∧ (transition e s).sup = s.sup := by
  cases e with
  | closeEv => exact absurd rfl hclose
  | deadline => exact absurd rfl hdeadline
  | openEv =>
    have hbusy : s.act.motion ≠ .idle := by
      rcases h.moving with hm | hm <;> simp [hm]
    rw [transition, onOpen_ignored hbusy]
    exact ⟨h, rfl, rfl⟩
  | sample =>
    rw [transition, onSample_moving h.moving,
      (readLoadSample_cases h.quiet).1 (echoPresent_of_all h.echoes 8)]
    exact ⟨⟨h.quiet, h.moving, h.timersOn, h.closeBtn, h.noClose,
      fun hm => h.echoes (List.mem_of_mem_drop hm)⟩, rfl, rfl⟩

/-- With no deadline pending `dispatch` neither ends a motion nor moves its timers. -/
theorem State.Cruising.dispatch_keeps {s : State} (h : s.Cruising)
    (hd : CtrlEv.deadline ∉ s.sup.evq) : (dispatch s).Cruising ∧ (dispatch s).act = s.act := by
  suffices hkept : (dispatch s).Cruising ∧ (dispatch s).act = s.act ∧
      CtrlEv.deadline ∉ (dispatch s).sup.evq from ⟨hkept.1, hkept.2.1⟩
  refine dispatch_induct (P := fun t => t.Cruising ∧ t.act = s.act ∧ CtrlEv.deadline ∉ t.sup.evq)
    (fun t e he _ ⟨ht, hact, hnone⟩ => ?_) s ⟨h, rfl, hd⟩
  have hmem := nextEvent_mem he
  have hdropped : (dropEvent e t).Cruising := ⟨ht.quiet, ht.moving, ht.timersOn, ht.closeBtn,
    fun hm => ht.noClose (List.mem_of_mem_erase hm), ht.echoes⟩
  obtain ⟨hcruising, hkeepsAct, hkeepsSup⟩ := transition_cruising hdropped
    (fun hclose => ht.noClose (hclose ▸ hmem)) (fun hdeadline => hnone (hdeadline ▸ hmem))
  refine ⟨hcruising, hkeepsAct.trans hact, ?_⟩
  rw [hkeepsSup]
  exact fun hm => hnone (List.mem_of_mem_erase hm)

/-- The ticks within which a running motion ends: to its deadline, and through the settle interval that the
deadline may have to wait for (R265). -/
def ticksLeft (s : State) : Nat :=
  if s.act.deadlineCnt = 0 then s.codec.settleCnt else s.act.deadlineCnt + s.cfg.settleTicks - 1

/-- `u` has the motion, the timers and the transaction of `s`, and no deadline pending that is not pending in
`s`. -/
structure TimersKept (s u : State) : Prop where
  act : u.act = s.act
  codec : u.codec = s.codec
  cfg : u.cfg = s.cfg
  deadline : CtrlEv.deadline ∈ u.sup.evq → CtrlEv.deadline ∈ s.sup.evq

/-- `t` is the motion of `s`, running still between two events. -/
structure RunsOn (s t : State) : Prop where
  inv : t.Inv
  cruising : t.Cruising
  cfg : t.cfg = s.cfg

/-- A deadline that is reached waits for a transaction in flight (R234). -/
theorem State.Cruising.settle_of_reached {s : State} (h : s.Cruising) (hinv : s.Inv)
    (hzero : s.act.deadlineCnt = 0) : s.codec.seq = .settle := by
  have hns := h.quiet.not_stuck
  have hpending := (hinv.live hns).timers.deadline h.timersOn hzero
  exact hinv.waits hns (List.ne_nil_of_mem hpending)

theorem State.Cruising.ticksLeft_pos {s : State} (h : s.Cruising) (hinv : s.Inv) : 1 ≤ ticksLeft s := by
  have hsettle := hinv.always.params.settleTicks
  unfold ticksLeft
  split
  · rename_i hzero
    exact (hinv.live h.quiet.not_stuck).txn.settle (h.settle_of_reached hinv hzero)
  · omega

/-- With no transaction in flight nothing waits for its end (R234). -/
theorem State.Inv.nothing_pending {s : State} (h : s.Inv) (hns : s.stuck = false)
    (hseq : s.codec.seq = .idle) : s.sup.evq = [] := by
  by_contra hpending
  have hsettle := h.waits hns hpending
  rw [hseq] at hsettle
  cases hsettle

/-- The `dispatch` that ends an event which has kept the timers: the motion runs on, with as many ticks left. -/
theorem State.Cruising.dispatch_timersKept {s u : State} (h : s.Cruising) (hinv : s.Inv)
    (hu : u.Cruising) (hkept : TimersKept s u) :
    (dispatch u).Cruising ∧ ticksLeft (dispatch u) = ticksLeft s := by
  cases hseq : s.codec.seq with
  | settle =>
    rw [dispatch_settle (hkept.codec ▸ hseq), ticksLeft, hkept.act, hkept.codec, hkept.cfg]
    exact ⟨hu, rfl⟩
  | idle =>
    have hevq := hinv.nothing_pending h.quiet.not_stuck hseq
    have hleft : s.act.deadlineCnt ≠ 0 := fun hzero => by
      have hsettle := h.settle_of_reached hinv hzero
      rw [hseq] at hsettle
      cases hsettle
    have hnone : CtrlEv.deadline ∉ u.sup.evq := fun hm => by
      have hold := hkept.deadline hm
      rw [hevq] at hold
      cases hold
    obtain ⟨hcruising, hact⟩ := hu.dispatch_keeps hnone
    refine ⟨hcruising, ?_⟩
    rw [ticksLeft, ticksLeft, hact, hkept.act, dispatch_cfg, hkept.cfg, if_neg hleft, if_neg hleft]

theorem NoClose.external {i : Instr} (h : NoClose i) : ExternalEvent i := by
  rcases h with hcommand | hevent | ⟨b, rfl⟩
  · exact .command hcommand
  · simp only [List.mem_cons, List.not_mem_nil, or_false] at hevent
    rcases hevent with rfl | rfl | rfl | rfl
    · exact .tick
    · exact .openPressed
    · exact .openReleased
    · exact .closeReleased
  · exact .lineByte b

/-- A pressed open edge makes no intent but its own pending (R222). -/
theorem mem_pressOpen {e : CtrlEv} (he : e ≠ .openEv) {s : State} (h : e ∈ (pressOpen s).sup.evq) :
    e ∈ s.sup.evq := by
  unfold pressOpen enqueueIf at h
  split at h
  · exact ((enqueue_mem _ _ _).mp h).resolve_right he
  · exact h

theorem State.Cruising.after_pressOpen {s : State} (h : s.Cruising) :
    (pressOpen s).Cruising ∧ TimersKept s (pressOpen s) := by
  have hclose : CtrlEv.closeEv ∉ (pressOpen s).sup.evq := fun hm => h.noClose (mem_pressOpen (by decide) hm)
  have hdeadline := mem_pressOpen (e := .deadline) (s := s) (by decide)
  rw [pressOpen_eq] at hclose hdeadline ⊢
  exact ⟨⟨h.quiet, h.moving, h.timersOn, h.closeBtn, hclose, h.echoes⟩, ⟨rfl, rfl, rfl, hdeadline⟩⟩

theorem Button.release_held (b : Button) : b.release.held = false := by
  unfold Button.release
  split
  · rfl
  · exact Bool.eq_false_iff.mpr ‹_›

/-- An event of R268 that is no tick keeps the timers, whatever the `dispatch` inside it finds: a command is
refused, a byte captured, an edge noted (R98, R121, R222, R223). -/
theorem State.Cruising.exec_noTick {i : Instr} {s : State} (h : s.Cruising) (hi : NoClose i)
    (hne : i ≠ .tick) : ∃ t u, exec i s = .next t ∧ dispatch t = dispatch u ∧ u.Cruising ∧
      TimersKept s u := by
  have hns := h.quiet.not_stuck
  have ⟨hq, hm, hon, hbtn, hnone, hechoes⟩ := h
  rcases hi with hcommand | hevent | ⟨b, rfl⟩
  · have hbusy : s.act.motion ≠ .idle := by
      rcases hm with hm | hm <;> simp [hm]
    exact ⟨_, _, busyRefusesEveryCommand s i hns (.inr hbusy) hcommand, rfl,
      ⟨hq, hm, hon, hbtn, hnone, hechoes⟩, ⟨rfl, rfl, rfl, id⟩⟩
  · simp only [List.mem_cons, List.not_mem_nil, or_false] at hevent
    rcases hevent with rfl | rfl | rfl | rfl
    · exact absurd rfl hne
    · exact ⟨_, _, live_of_not_stuck hns fun s => dispatch (pressOpen s), dispatch_dispatch _,
        h.after_pressOpen⟩
    · exact ⟨_, _, live_of_not_stuck hns _, rfl, ⟨hq, hm, hon, hbtn, hnone, hechoes⟩, ⟨rfl, rfl, rfl, id⟩⟩
    · exact ⟨_, _, live_of_not_stuck hns _, rfl,
        ⟨hq, hm, hon, .inl (Button.release_held _), hnone, hechoes⟩, ⟨rfl, rfl, rfl, id⟩⟩
  · exact ⟨_, _, live_of_not_stuck hns _, rfl, ⟨hq.arrive _ b, hm, hon, hbtn, hnone, hechoes⟩,
      ⟨rfl, rfl, rfl, id⟩⟩

/-- A tick that takes one off the deadline count, and not the last, takes one off the ticks left. -/
theorem ticksLeft_counted {s t : State} (hsettle : 1 ≤ s.cfg.settleTicks) (hmore : 2 ≤ s.act.deadlineCnt)
    (hcnt : t.act.deadlineCnt = s.act.deadlineCnt - 1) (hcfg : t.cfg = s.cfg) :
    ticksLeft t + 1 ≤ ticksLeft s := by
  rw [ticksLeft, ticksLeft, hcnt, hcfg, if_neg (by omega), if_neg (by omega)]
  omega

/-- A tick inside a settle interval: the deadline comes closer, or the end of the interval it waits for does. -/
theorem State.Cruising.ticksLeft_settleTicked {s : State} (h : s.Cruising) (hinv : s.Inv)
    (hmore : 2 ≤ s.codec.settleCnt) : ticksLeft (settleTicked s) + 1 ≤ ticksLeft s := by
  have hbound := hinv.always.ranges.settleCnt
  have hd : (settleTicked s).act.deadlineCnt = s.act.deadlineCnt - 1 := h.deadlineCnt_counted
  rcases Nat.lt_or_ge s.act.deadlineCnt 2 with hlast | hleft
  · rw [ticksLeft, ticksLeft, if_pos (by omega)]
    show s.codec.settleCnt - 1 + 1 ≤ _
    split <;> omega
  · exact ticksLeft_counted (by omega) hleft hd rfl

theorem EmergencyEntered.not_moving {t : State} (h : EmergencyEntered t) : ¬ t.moving := by
  simp [State.moving, h.motion]

theorem StallEnded.not_moving {s t : State} (h : StallEnded s t) : ¬ t.moving := by
  simp [State.moving, h.motion]

/-- What a tick with more than the last tick of the deadline left dispatches behind its counts (R230). -/
theorem State.Cruising.dispatch_counted {s u : State} (hu : u.Cruising)
    (hsettle : 1 ≤ s.cfg.settleTicks) (hmore : 2 ≤ s.act.deadlineCnt)
    (hnone : CtrlEv.deadline ∉ u.sup.evq) (hcnt : u.act.deadlineCnt = s.act.deadlineCnt - 1)
    (hcfg : u.cfg = s.cfg) : (dispatch u).Cruising ∧ ticksLeft (dispatch u) + 1 ≤ ticksLeft s := by
  obtain ⟨hcruising, hact⟩ := hu.dispatch_keeps hnone
  exact ⟨hcruising, ticksLeft_counted hsettle hmore (by rw [hact, hcnt]) (by rw [dispatch_cfg, hcfg])⟩

/-- A tick ends the motion with its torque-disable frame, or leaves it running with one tick less (R265). -/
theorem State.Cruising.tick_runs {s : State} (h : s.Cruising) (hinv : s.Inv) :
    ∃ t, exec .tick s = .next t ∧ (TorqueOffSent s t ∧ ¬ t.moving ∨
      (dispatch t).Cruising ∧ ticksLeft (dispatch t) + 1 ≤ ticksLeft s) := by
  have hns := h.quiet.not_stuck
  have hsettle := hinv.always.params.settleTicks
  have hnone (hleft : 2 ≤ s.act.deadlineCnt) : CtrlEv.deadline ∉ (counted s).sup.evq := fun hd =>
    absurd ((h.deadline_pending_iff hinv).mp hd) (by omega)
  cases hseq : s.codec.seq with
  | idle =>
    rcases Nat.lt_or_ge s.act.deadlineCnt 2 with hlast | hleft
    · obtain ⟨t, htick, hsent, hentered⟩ := h.tick_emergency hinv hseq (Nat.le_of_lt_succ hlast)
      exact ⟨t, htick, .inl ⟨hsent, hentered.not_moving⟩⟩
    · refine ⟨_, exec_tick hns, .inr ?_⟩
      rw [settlePart_idle (s := counted s) hseq, dispatch_dispatch]
      exact h.after_counts.dispatch_counted hsettle hleft (hnone hleft) h.deadlineCnt_counted rfl
  | settle =>
    have hpos := (hinv.live hns).txn.settle hseq
    rcases Nat.lt_or_ge s.codec.settleCnt 2 with hend | hmore
    · have hcnt : s.codec.settleCnt = 1 := by omega
      rcases Nat.lt_or_ge s.act.deadlineCnt 2 with hlast | hleft
      · obtain ⟨t, htick, hsent, hended⟩ := h.tick_ends hinv hseq hcnt (Nat.le_of_lt_succ hlast)
        exact ⟨t, htick, .inl ⟨hsent, hended.elim (·.not_moving) (·.not_moving)⟩⟩
      · obtain ⟨t, htick, ⟨hsent, hstall⟩ | ⟨l, n, hl, rfl⟩⟩ := h.tick_completes hinv hseq hcnt
        · exact ⟨t, htick, .inl ⟨hsent, hstall.not_moving⟩⟩
        · refine ⟨_, htick, .inr ?_⟩
          rw [dispatch_dispatch]
          exact (h.after_read hl n).dispatch_counted hsettle hleft (hnone hleft) h.deadlineCnt_counted rfl
    · refine ⟨_, exec_tick_settle hns hseq hmore, .inr ?_⟩
      have hcounts := h.after_counts
      rw [dispatch_settle (s := settleTicked s) hseq]
      exact ⟨⟨hcounts.quiet, hcounts.moving, hcounts.timersOn, hcounts.closeBtn, hcounts.noClose,
        hcounts.echoes⟩, h.ticksLeft_settleTicked hinv hmore⟩

/-- What one event of R268 does to a running motion: a tick may end it, and otherwise it runs on, with the ticks
taken off those left to it. -/
theorem State.Cruising.event_runs {i : Instr} {s : State} (h : s.Cruising) (hinv : s.Inv)
    (hi : NoClose i) : ∃ t, exec i s = .next t ∧ (i = .tick ∧ TorqueOffSent s t ∧ ¬ t.moving ∨
      RunsOn s (dispatch t) ∧ ticksLeft (dispatch t) + [i].count .tick ≤ ticksLeft s) := by
  have hrunsOn {t : State} (hexec : exec i s = .next t) (ht : (dispatch t).Cruising) :
      RunsOn s (dispatch t) :=
    ⟨dispatch_inv (exec_mid hinv.mid hi.external hexec), ht,
      (dispatch_cfg t).trans (configurationKept i s t hexec).1⟩
  by_cases htick : i = .tick
  · subst htick
    obtain ⟨t, hexec, hended | ⟨hcruising, hless⟩⟩ := h.tick_runs hinv
    · exact ⟨t, hexec, .inl ⟨rfl, hended⟩⟩
    · exact ⟨t, hexec, .inr ⟨hrunsOn hexec hcruising, hless⟩⟩
  · obtain ⟨t, u, hexec, hsame, hu, hkept⟩ := h.exec_noTick hi htick
    obtain ⟨hcruising, hleft⟩ := h.dispatch_timersKept hinv hu hkept
    rw [← hsame] at hcruising hleft
    refine ⟨t, hexec, .inr ⟨hrunsOn hexec hcruising, ?_⟩⟩
    rw [List.count_cons_of_ne htick, List.count_nil]
    exact hleft.le

theorem afterEvents_cons {i : Instr} {s t : State} (h : exec i s = .next t) (is : List Instr) :
    afterEvents (i :: is) s = afterEvents is (dispatch t) := by
  rw [afterEvents, h]

/-- A running motion ends within the ticks left to it, whatever other events of R268 come between (R265). -/
theorem motion_ends_within (es : List Instr) : ∀ {s : State}, s.Inv → s.Cruising →
    (∀ i ∈ es, NoClose i) → ticksLeft s ≤ es.count .tick →
    ∃ pre, pre <+: es ∧ pre.count .tick ≤ ticksLeft s ∧ ¬ (afterEvents pre s).moving ∧
      torqueOffFrame s.cfg <:+ (afterEvents pre s).ports.wireTx := by
  induction es with
  | nil =>
    intro s hinv h _ hcount
    exact absurd (h.ticksLeft_pos hinv) (Nat.not_le.mpr (Nat.lt_succ_of_le hcount))
  | cons i es ih =>
    intro s hinv h hclose hcount
    have hcons (is : List Instr) : (i :: is).count .tick = [i].count .tick + is.count .tick :=
      List.count_append (l₁ := [i])
    obtain ⟨t, hexec, ⟨rfl, hsent, hended⟩ | ⟨hruns, hless⟩⟩ :=
      h.event_runs hinv (hclose i List.mem_cons_self)
    · refine ⟨[.tick], List.prefix_append [.tick] es, h.ticksLeft_pos hinv, ?_⟩
      rw [afterEvents_cons hexec, afterEvents, dispatch_settle hsent.seq, hsent.wireTx]
      exact ⟨hended, List.suffix_append _ _⟩
    · rw [hcons] at hcount
      obtain ⟨pre, hpre, hticks, hended, hframe⟩ := ih hruns.inv hruns.cruising
        (fun j hj => hclose j (List.mem_cons_of_mem i hj)) (by omega)
      refine ⟨i :: pre, (List.prefix_cons_inj _).mpr hpre, ?_, ?_⟩
      · rw [hcons]
        omega
      · rw [afterEvents_cons hexec, ← hruns.cfg]
        exact ⟨hended, hframe⟩

/-- Settles O47: right after `K_START` the ticks left are the whole deadline and one settle interval. -/
theorem motionBounded : Obligations.MotionBounded := by
  intro s es hinv hns hm hseq hon hdeadline _ hechoes hbtn hclose hcount
  have hevq := hinv.nothing_pending hns hseq
  have h : s.Cruising := ⟨(hinv.live hns).quiet, hm, hon, hbtn, by simp [hevq], hechoes⟩
  have hticks : ticksLeft s = s.cfg.timeoutTicks + s.cfg.settleTicks - 1 := by
    have htimeout := hinv.always.params.timeoutTicks
    rw [ticksLeft, hdeadline, if_neg (by omega)]
  rw [← hticks] at hcount ⊢
  exact motion_ends_within es hinv h hclose hcount

end Sys2Proof.Machine

/-! # The reset statement: what `RESET` makes of a state (`70_reset_and_hazards.md`) -/

namespace Sys2Proof.Machine

/-- `RESET` reads no field of the block, the stuck line included: of the state it keeps the instance and the
ports alone (R320, R322). -/
theorem exec_reset (s : State) : exec .reset s = .next (State.resetWith s.cfg s.ports) := rfl

/-- Settles O49: the state that `RESET` makes is the table of R320, row by row. -/
theorem resetRestores : Obligations.ResetRestores := by
  intro s
  rw [exec_reset, State.resetWith, Link.fresh, emptySlot, Button.released]

end Sys2Proof.Machine
